-- ==== Sys2Proof/Word.lean ====
section
/-! DEFINITION. The word types: a byte of the stream, the 16-bit registers, and the 32-bit fields (00_scope.md R11). A
time in ticks is a natural number, as R14 allows; an implementation keeps `TIME_W` bits of it (log 12). -/

namespace Sys2Proof

/-- `u8` (R11). -/
abbrev Byte := BitVec 8

/-- `u16` (R11): the width `LEN_W` of `fd_len`, `fd_cnt`, `fd_body_len` (R6, R23 to R25). -/
abbrev Half := BitVec 16

/-- `u32` (R11): the widest header fields (R174). -/
abbrev Word := BitVec 32

end Sys2Proof
end

