-- ==== Sys2Proof/Config.lean ====
section
/-! DEFINITION. What an implementation fixes (00_scope.md R5 to R10) and the free values (93_implementation_defined.md).
A parameter the spec leaves OPEN is a constant with no body, so that no claim can rest on a value of it. -/

namespace Sys2Proof

/-- The build-time parameters of R6 to R10, as plain data. Every operation reads them from the state, so that a
claim over all states is a claim over all parameter values (log 4). Fields that no rule reads are kept because
R7, R8 and R9 name them. -/
structure Params where
  /-- `HDR_SIZE` (R6). -/
  hdrSize : Nat
  /-- `BODY_CAP`, OPEN (R6). -/
  bodyCap : Nat
  /-- `HOLD_TICKS`, OPEN (R7). -/
  holdTicks : Nat
  /-- `SAMPLE_PERIOD`, OPEN; no rule reads it (R7). -/
  samplePeriod : Nat
  /-- `N_CH`, OPEN (R9). -/
  nCh : Nat
  /-- `PIN_ID[ch]`, OPEN; it names the wire of a channel and nothing else (R9, R38). -/
  pinId : List Nat
  /-- `ASSERTED_LEVEL` (R9): false is low, true is high. -/
  assertedLevel : Bool
  /-- `READ_PI_AS_ACTIVE` (R9). -/
  readPiAsActive : Bool
  /-- `DISCARD_RESYNC` (R10). -/
  discardResync : Bool
  /-- `SAMPLE_BE` (R8). -/
  sampleBe : Bool
  /-- `REASON_OFF`, OPEN (R8). -/
  reasonOff : Byte
  /-- `REASON_DEMAND`, OPEN; no rule reads it (R8). -/
  reasonDemand : Byte
  /-- `I_SCALE`, OPEN (R8): amps per count of the current ADC value, a rational number (log 16). -/
  iScale : Rat
  /-- `V_SCALE`, OPEN; no rule reads it (R8). -/
  vScale : Rat
  /-- `INRUSH_TOL`, OPEN (R179). -/
  inrushTol : Rat
  deriving DecidableEq, Repr

namespace Config

/-- `SOP` (R5). -/
def sop : Byte := 0x1B
/-- `EOP` (R5). -/
def eop : Byte := 0x0A
/-- `TYPE_SIG`, the letter 'S' (R5). -/
def typeSig : Byte := 0x53
/-- `SAMPLE_SIZE` (R6). -/
def sampleSize : Nat := 4
/-- `META_EXTENT`: bytes the header field list spans (R6, R100). -/
def metaExtent : Nat := 30
/-- `WDOG_MS` (R7). -/
def wdogMs : Nat := 500
/-- `TICKS_PER_MS` (R7). -/
def ticksPerMs : Nat := 1
/-- `WDOG_TICKS` = `WDOG_MS` × `TICKS_PER_MS` (R7). -/
def wdogTicks : Nat := wdogMs * ticksPerMs
/-- `TIME_W` (R7). -/
def timeW : Nat := 32
/-- 2^(`TIME_W`−1): two instants that a rule compares lie less than this apart (R14). -/
def timeBound : Nat := Nat.pow 2 (timeW - 1)
/-- `REASON_ON` (R8). -/
def reasonOn : Byte := 0x01
/-- `RMS_FACTOR` = 0.7071 (R8, R178). -/
def rmsFactor : Rat := 7071 / 10000

/-- Free constant behind `BODY_CAP` (R6; log 5). -/
opaque freeBodyCap : Nat
/-- Free constant behind `HOLD_TICKS` (R7; log 5). -/
opaque freeHoldTicks : Nat
/-- Free constant behind `SAMPLE_PERIOD` (R7; log 5). -/
opaque freeSamplePeriod : Nat
/-- Free constant behind `N_CH` (R9; log 5). -/
opaque freeChannels : Nat
/-- Free constants behind `PIN_ID[ch]` (R9; log 5). -/
opaque freePin : Nat → Nat
/-- Free constant behind `REASON_OFF` (R8; log 5). -/
opaque freeReasonOff : Byte
/-- Free constant behind `REASON_DEMAND` (R8; log 5). -/
opaque freeReasonDemand : Byte
/-- Free constant behind `I_SCALE` (R8; log 5, 16). -/
opaque freeIScale : Rat
/-- Free constant behind `V_SCALE` (R8; log 5, 16). -/
opaque freeVScale : Rat
/-- Free constant behind `INRUSH_TOL` (R179; log 5, 15). -/
opaque freeInrushTol : Rat

/-- Free function behind `INRUSH_REPR` (R179; log 15): the delivered value for an exact in-rush, before it is kept
within `INRUSH_TOL` of the exact one. -/
opaque freeInrush : Rat → Rat

/-- Free bytes (93_implementation_defined.md U1; log 7): what a byte of a buffer that nothing has written since the
reset number `epoch` holds, by space (0 `hdr`, 1 `body`) and address. -/
opaque freeByte : (epoch space address : Nat) → Byte

/-- A code different from `REASON_ON`: `c` itself, or 0 where `c` is `REASON_ON`. -/
def avoidOn (c : Byte) : Byte := if c = reasonOn then 0x00 else c

/-- A code different from `REASON_ON` and from `off`: `c` where it is, else one of 0, 2, 3. -/
def avoidBoth (off c : Byte) : Byte :=
  if c ≠ reasonOn ∧ c ≠ off then c else if off ≠ 0x00 then 0x00 else 0x02

/-- The parameters of this hardware: the spec's values where it gives one, free values within the spec's bounds where
it leaves them OPEN (R6 to R10, R179; 92_eei_decisions.md; log 5). -/
def device : Params where
  hdrSize := 15
  bodyCap := freeBodyCap % 65519 + 1
  holdTicks := freeHoldTicks
  samplePeriod := freeSamplePeriod
  nCh := freeChannels + 1
  pinId := (List.range (freeChannels + 1)).map freePin
  assertedLevel := false
  readPiAsActive := true
  discardResync := true
  sampleBe := true
  reasonOff := avoidOn freeReasonOff
  reasonDemand := avoidBoth (avoidOn freeReasonOff) freeReasonDemand
  iScale := freeIScale
  vScale := freeVScale
  inrushTol := |freeInrushTol|

end Config

/-- The bounds the spec puts on the parameters: `HDR_SIZE` in 1..65534 and `BODY_CAP` in 1..65519 (R6), at least one
channel with one pin each (R9), the three reason codes pairwise distinct (R8), and a tolerance that is not
negative (R179; log 5). -/
def Params.wf (p : Params) : Bool :=
  decide (1 ≤ p.hdrSize) && decide (p.hdrSize ≤ 65534) &&
  decide (1 ≤ p.bodyCap) && decide (p.bodyCap ≤ 65519) &&
  decide (1 ≤ p.nCh) && decide (p.pinId.length = p.nCh) &&
  decide (p.reasonOff ≠ Config.reasonOn) && decide (p.reasonDemand ≠ Config.reasonOn) &&
  decide (p.reasonOff ≠ p.reasonDemand) && decide (0 ≤ p.inrushTol)

end Sys2Proof
end

