-- ==== Sys2Proof/Syntax.lean ====
section
/-! DEFINITION. The operations of spec/opcode_table.json: one constructor per row (30_encoding.md R110, R111, R120).
The operands of a constructor are what the operation's rule reads beside the block's registers, and the bits of its
selector that the row's mask leaves free. -/

namespace Sys2Proof

/-- The eight states of the frame decoder, in the order of their codes 0 to 7 (10_state.md R20, 30_encoding.md R108). -/
inductive FdState where
  | idle | sop | readLength | readHeader | readBody | checksum | eop | discard
  deriving DecidableEq, Repr

/-- The eight codes of a channel's 3-bit state register: the five states, then the codes 5, 6, 7 that are not states
(10_state.md R35, 30_encoding.md R109, R114). -/
inductive DbState where
  | init | pendingActive | active | pendingInactive | inactive
  | invalid5 | invalid6 | invalid7
  deriving DecidableEq, Repr

/-- One operation. `b` is the byte of the `RX`, `now` its time or the time of the `PASS`, `ch` the channel;
`expired` (and `asserted` in `dbInvalid`) are condition bits that select nothing in that row (R107, R111). -/
inductive Instr where
  -- frame decoder (40_frame_decoder.md)
  /-- `FD_WDOG` (R131), taken in state `st` before the byte `b` is looked at. -/
  | fdWdog (st : FdState) (b : Byte)
  /-- `FD_IDLE_SOP` (R133). -/
  | fdIdleSop (now : Nat)
  /-- `FD_IDLE_SKIP` (R132). -/
  | fdIdleSkip (b : Byte)
  /-- `FD_SOP_TYPE` (R134). -/
  | fdSopType
  /-- `FD_SOP_BADTYPE` (R135). -/
  | fdSopBadtype (b : Byte)
  /-- `FD_LEN_HI` (R136). -/
  | fdLenHi (b : Byte)
  /-- `FD_LEN_LO` (R137). -/
  | fdLenLo (b : Byte)
  /-- `FD_HDR_BYTE` (R138). -/
  | fdHdrByte (b : Byte)
  /-- `FD_BODY_BYTE` (R139). -/
  | fdBodyByte (b : Byte)
  /-- `FD_BODY_OVF` (R140). -/
  | fdBodyOvf (b : Byte)
  /-- `FD_DISCARD_DROP` (R141); `b` = 0x1B only where `DISCARD_RESYNC` is false. -/
  | fdDiscardDrop (b : Byte)
  /-- `FD_DISCARD_SOP` (R142). -/
  | fdDiscardSop (now : Nat)
  /-- `FD_CSUM_OK` (R143). -/
  | fdCsumOk (b : Byte)
  /-- `FD_CSUM_BAD` (R144). -/
  | fdCsumBad (b : Byte)
  /-- `FD_EOP_OK` (R145). -/
  | fdEopOk
  /-- `FD_EOP_BAD` (R146). -/
  | fdEopBad (b : Byte)
  -- debounce channel (42_debounce_sampler.md)
  /-- `DB_INIT_A` (R192). -/
  | dbInitA (ch : Nat) (now : Nat) (expired : Bool)
  /-- `DB_INIT_D` (R193). -/
  | dbInitD (ch : Nat) (now : Nat) (expired : Bool)
  /-- `DB_PA_BOUNCE` (R194). -/
  | dbPaBounce (ch : Nat) (expired : Bool)
  /-- `DB_PA_CONFIRM` (R195). -/
  | dbPaConfirm (ch : Nat)
  /-- `DB_PA_WAIT` (R196). -/
  | dbPaWait (ch : Nat)
  /-- `DB_ACT_STAY` (R197). -/
  | dbActStay (ch : Nat) (expired : Bool)
  /-- `DB_ACT_LEAVE` (R198). -/
  | dbActLeave (ch : Nat) (now : Nat) (expired : Bool)
  /-- `DB_PI_BOUNCE` (R199). -/
  | dbPiBounce (ch : Nat) (expired : Bool)
  /-- `DB_PI_CONFIRM` (R200). -/
  | dbPiConfirm (ch : Nat)
  /-- `DB_PI_WAIT` (R201). -/
  | dbPiWait (ch : Nat)
  /-- `DB_INA_STAY` (R202). -/
  | dbInaStay (ch : Nat) (expired : Bool)
  /-- `DB_INA_LEAVE` (R203). -/
  | dbInaLeave (ch : Nat) (now : Nat) (expired : Bool)
  /-- `DB_INVALID` (R204), found with the code `st`. -/
  | dbInvalid (ch : Nat) (st : DbState) (asserted expired : Bool)
  -- host operations (43_host_operations.md); they have no encoding (R120)
  /-- `HOST_RESET_FD` (R220). -/
  | hostResetFd
  /-- `HOST_RESET_DIS` (R221). -/
  | hostResetDis
  /-- `FD_SET_CONSUMER` (R222). -/
  | fdSetConsumer (present : Bool)
  /-- `DIS_SET_CONSUMER` (R223). -/
  | disSetConsumer (present : Bool)
  /-- `DIS_READ` (R224); any index is an operand, an index outside the channels gives an error result. -/
  | disRead (ch : Nat)
  /-- `FD_READ_STATE` (R225). -/
  | fdReadState
  deriving DecidableEq, Repr

end Sys2Proof
end

