-- ==== Sys2Proof/WellFormed.lean ====
section
/-! DEFINITION. Which operand values a row of the table admits (30_encoding.md R110, R111): the "otherwise" rows do
not take the byte of the specific row, the watchdog is not tested in `idle`, `DB_INVALID` takes the codes 5, 6, 7. -/

namespace Sys2Proof

/-- The codes 5, 6, 7 are not states (30_encoding.md R114). -/
def DbState.isInvalid : DbState → Bool
  | .invalid5 | .invalid6 | .invalid7 => true
  | .init | .pendingActive | .active | .pendingInactive | .inactive => false

/-- The operands are ones the operation's row admits. -/
def Instr.wellFormed : Instr → Bool
  | .fdWdog st _ => decide (st ≠ .idle)
  | .fdIdleSkip b => decide (b ≠ Config.sop)
  | .fdSopBadtype b => decide (b ≠ Config.typeSig)
  | .fdEopBad b => decide (b ≠ Config.eop)
  | .dbInvalid _ st _ _ => st.isInvalid
  | .fdIdleSop _ | .fdSopType | .fdLenHi _ | .fdLenLo _ | .fdHdrByte _ | .fdBodyByte _ | .fdBodyOvf _ => true
  | .fdDiscardDrop _ | .fdDiscardSop _ | .fdCsumOk _ | .fdCsumBad _ | .fdEopOk => true
  | .dbInitA _ _ _ | .dbInitD _ _ _ | .dbPaBounce _ _ | .dbPaConfirm _ | .dbPaWait _ | .dbActStay _ _ => true
  | .dbActLeave _ _ _ | .dbPiBounce _ _ | .dbPiConfirm _ | .dbPiWait _ | .dbInaStay _ _ | .dbInaLeave _ _ _ => true
  | .hostResetFd | .hostResetDis | .fdSetConsumer _ | .disSetConsumer _ | .disRead _ | .fdReadState => true

end Sys2Proof
end

