-- ==== Sys2Proof/Decode.lean ====
section
/-! DEFINITION. The decoder (total, a selector that no row takes is rejected by name), then the encoder, both written
from 30_encoding.md R108 to R111 and R120.

The word is the composed selector of R120: for the format RX `{fd_state[2:0], b[7:0]}` in bits 10:0, for the format
SAMPLE `{db_state[2:0], asserted, expired}` in bits 4:0. What the table says in a row's guard, and a mask cannot
express, stands in bits above the table's (log 9). For RX: bits 12:11 the guard of the rows of one state, 0 where the
row is the one the spec names first (readLength: 0 `fd_cnt` = 0, 1 `fd_cnt` = 1, 2 neither; readBody: 1 `fd_cnt` ≥
`BODY_CAP`; checksum: 1 `b` ≠ `fd_csum`; discard: 1 `b` = `SOP` and `DISCARD_RESYNC` false; else 0), bit 13 the
watchdog's guard, bits 15:14 zero. For SAMPLE: bits 7:5 zero. The host operations have no encoding (R120). -/

namespace Sys2Proof

/-- The 3-bit code of a decoder state (R108). -/
def FdState.code : FdState → BitVec 3
  | .idle => 0
  | .sop => 1
  | .readLength => 2
  | .readHeader => 3
  | .readBody => 4
  | .checksum => 5
  | .eop => 6
  | .discard => 7

/-- The decoder state of a 3-bit code; every code is a state (R20). -/
def FdState.ofCode (c : BitVec 3) : FdState :=
  match c.toNat with
  | 0 => .idle
  | 1 => .sop
  | 2 => .readLength
  | 3 => .readHeader
  | 4 => .readBody
  | 5 => .checksum
  | 6 => .eop
  | _ => .discard

/-- The 3-bit code of a channel's state register (R109, R114). -/
def DbState.code : DbState → BitVec 3
  | .init => 0
  | .pendingActive => 1
  | .active => 2
  | .pendingInactive => 3
  | .inactive => 4
  | .invalid5 => 5
  | .invalid6 => 6
  | .invalid7 => 7

/-- The register value of a 3-bit code (R109, R114). -/
def DbState.ofCode (c : BitVec 3) : DbState :=
  match c.toNat with
  | 0 => .init
  | 1 => .pendingActive
  | 2 => .active
  | 3 => .pendingInactive
  | 4 => .inactive
  | 5 => .invalid5
  | 6 => .invalid6
  | _ => .invalid7

/-- What the decoder is given: the selector word with the operands that no bit of the table carries (log 9). -/
inductive Fetched where
  /-- Format RX: the selector of the byte, and the time of the `RX`. -/
  | rx (sel : BitVec 16) (now : Nat)
  /-- Format SAMPLE: the selector of the sample, its channel, and the time of the `PASS`. -/
  | sample (sel : BitVec 8) (ch : Nat) (now : Nat)
  deriving DecidableEq, Repr

/-- Why a selector is rejected. None of these is formed by a state that a run reaches (R30 (a), R110). -/
inductive DecodeError where
  /-- A bit above the selector's bits is set. -/
  | reservedBits
  /-- A guard bit is set in a state whose rows have no such guard. -/
  | guardBits
  /-- The watchdog's guard in `idle`, where it is not tested (R131). -/
  | watchdogInIdle
  /-- `readLength` with `fd_cnt` neither 0 nor 1: no row (R110, R30 (a)). -/
  | lengthCount
  deriving DecidableEq, Repr

/-- The decoder's answer. -/
inductive Decoded where
  | instr (i : Instr)
  | reject (e : DecodeError)
  deriving DecidableEq, Repr

/-- The row of state `st` for the byte `b` under the guard `g` (R110). -/
def decodeRow (st : FdState) (g : BitVec 2) (b : Byte) (now : Nat) : Decoded :=
  match st with
  | .idle => if g ≠ 0 then .reject .guardBits else if b = Config.sop then .instr (.fdIdleSop now) else .instr (.fdIdleSkip b)
  | .sop => if g ≠ 0 then .reject .guardBits else if b = Config.typeSig then .instr .fdSopType else .instr (.fdSopBadtype b)
  | .readLength => if g = 0 then .instr (.fdLenHi b) else if g = 1 then .instr (.fdLenLo b) else .reject .lengthCount
  | .readHeader => if g ≠ 0 then .reject .guardBits else .instr (.fdHdrByte b)
  | .readBody => if g = 0 then .instr (.fdBodyByte b) else if g = 1 then .instr (.fdBodyOvf b) else .reject .guardBits
  | .checksum => if g = 0 then .instr (.fdCsumOk b) else if g = 1 then .instr (.fdCsumBad b) else .reject .guardBits
  | .eop => if g ≠ 0 then .reject .guardBits else if b = Config.eop then .instr .fdEopOk else .instr (.fdEopBad b)
  | .discard =>
    if g = 0 then (if b = Config.sop then .instr (.fdDiscardSop now) else .instr (.fdDiscardDrop b))
    else if g = 1 ∧ b = Config.sop then .instr (.fdDiscardDrop b)
    else .reject .guardBits

/-- The byte of an RX selector. -/
def selByte (sel : BitVec 16) : Byte := sel.extractLsb' 0 8
/-- The state of an RX selector. -/
def selState (sel : BitVec 16) : FdState := FdState.ofCode (sel.extractLsb' 8 3)
/-- The guard bits of an RX selector. -/
def selGuard (sel : BitVec 16) : BitVec 2 := sel.extractLsb' 11 2
/-- The watchdog bit of an RX selector. -/
def selWdog (sel : BitVec 16) : Bool := sel.getLsbD 13

/-- The row an RX selector selects; the watchdog's row comes before every other (R110, R130). -/
def decodeRx (sel : BitVec 16) (now : Nat) : Decoded :=
  if sel.extractLsb' 14 2 ≠ 0 then .reject .reservedBits
  else if selWdog sel then
    if selGuard sel ≠ 0 then .reject .guardBits
    else if selState sel = .idle then .reject .watchdogInIdle
    else .instr (.fdWdog (selState sel) (selByte sel))
  else decodeRow (selState sel) (selGuard sel) (selByte sel) now

/-- The row of a channel's state for the condition `{asserted, expired}` (R111). -/
def decodeCond (st : DbState) (asserted expired : Bool) (ch : Nat) (now : Nat) : Instr :=
  match st with
  | .init => if asserted then .dbInitA ch now expired else .dbInitD ch now expired
  | .pendingActive => if asserted then (if expired then .dbPaConfirm ch else .dbPaWait ch) else .dbPaBounce ch expired
  | .active => if asserted then .dbActStay ch expired else .dbActLeave ch now expired
  | .pendingInactive => if asserted then .dbPiBounce ch expired else (if expired then .dbPiConfirm ch else .dbPiWait ch)
  | .inactive => if asserted then .dbInaLeave ch now expired else .dbInaStay ch expired
  | .invalid5 | .invalid6 | .invalid7 => .dbInvalid ch st asserted expired

/-- The row a SAMPLE selector selects (R111). -/
def decodeSample (sel : BitVec 8) (ch : Nat) (now : Nat) : Decoded :=
  if sel.extractLsb' 5 3 ≠ 0 then .reject .reservedBits
  else .instr (decodeCond (DbState.ofCode (sel.extractLsb' 2 3)) (sel.getLsbD 1) (sel.getLsbD 0) ch now)

/-- The decoder: total on every word of either format. -/
def decode : Fetched → Decoded
  | .rx sel now => decodeRx sel now
  | .sample sel ch now => decodeSample sel ch now

/-- An RX selector from its parts: two zero bits, the watchdog bit, the guard, the state, the byte. -/
def packRx (wdog : Bool) (guard : BitVec 2) (st : FdState) (b : Byte) : BitVec 16 :=
  0#2 ++ BitVec.ofBool wdog ++ guard ++ st.code ++ b

/-- A SAMPLE selector from its parts: three zero bits, the state, `asserted`, `expired` (R107, R120). -/
def packSample (st : DbState) (asserted expired : Bool) : BitVec 8 :=
  0#3 ++ st.code ++ BitVec.ofBool asserted ++ BitVec.ofBool expired

/-- The encoder: the selector of each row of R110 and R111 with its operands in place; none for a host operation
(R120). An operand that the row does not read, time or channel of the other format, is 0. -/
def encode : Instr → Option Fetched
  | .fdWdog st b => some (.rx (packRx true 0 st b) 0)
  | .fdIdleSop now => some (.rx (packRx false 0 .idle Config.sop) now)
  | .fdIdleSkip b => some (.rx (packRx false 0 .idle b) 0)
  | .fdSopType => some (.rx (packRx false 0 .sop Config.typeSig) 0)
  | .fdSopBadtype b => some (.rx (packRx false 0 .sop b) 0)
  | .fdLenHi b => some (.rx (packRx false 0 .readLength b) 0)
  | .fdLenLo b => some (.rx (packRx false 1 .readLength b) 0)
  | .fdHdrByte b => some (.rx (packRx false 0 .readHeader b) 0)
  | .fdBodyByte b => some (.rx (packRx false 0 .readBody b) 0)
  | .fdBodyOvf b => some (.rx (packRx false 1 .readBody b) 0)
  | .fdDiscardDrop b => some (.rx (packRx false (if b = Config.sop then 1 else 0) .discard b) 0)
  | .fdDiscardSop now => some (.rx (packRx false 0 .discard Config.sop) now)
  | .fdCsumOk b => some (.rx (packRx false 0 .checksum b) 0)
  | .fdCsumBad b => some (.rx (packRx false 1 .checksum b) 0)
  | .fdEopOk => some (.rx (packRx false 0 .eop Config.eop) 0)
  | .fdEopBad b => some (.rx (packRx false 0 .eop b) 0)
  | .dbInitA ch now e => some (.sample (packSample .init true e) ch now)
  | .dbInitD ch now e => some (.sample (packSample .init false e) ch now)
  | .dbPaBounce ch e => some (.sample (packSample .pendingActive false e) ch 0)
  | .dbPaConfirm ch => some (.sample (packSample .pendingActive true true) ch 0)
  | .dbPaWait ch => some (.sample (packSample .pendingActive true false) ch 0)
  | .dbActStay ch e => some (.sample (packSample .active true e) ch 0)
  | .dbActLeave ch now e => some (.sample (packSample .active false e) ch now)
  | .dbPiBounce ch e => some (.sample (packSample .pendingInactive true e) ch 0)
  | .dbPiConfirm ch => some (.sample (packSample .pendingInactive false true) ch 0)
  | .dbPiWait ch => some (.sample (packSample .pendingInactive false false) ch 0)
  | .dbInaStay ch e => some (.sample (packSample .inactive false e) ch 0)
  | .dbInaLeave ch now e => some (.sample (packSample .inactive true e) ch now)
  | .dbInvalid ch st a e => some (.sample (packSample st a e) ch 0)
  | .hostResetFd | .hostResetDis | .fdSetConsumer _ | .disSetConsumer _ | .disRead _ | .fdReadState => none

/-- The selector of a word as spec/opcode_table.json numbers its bits: a row of the format SAMPLE has 5 bits, in whole
bytes 8; a row of the format RX has 11 bits, in whole bytes 16. Every bit above is 0, the operands time and channel
too. -/
def tableFetched (nbits w : Nat) : Fetched :=
  if nbits ≤ 8 then .sample (BitVec.ofNat 8 w) 0 0 else .rx (BitVec.ofNat 16 w) 0

/-- The instruction the decoder reads from a word of the opcode table. -/
def decodeTableWord (nbits w : Nat) : Option Instr :=
  match decode (tableFetched nbits w) with
  | .instr i => some i
  | .reject _ => none

/-- The bytes of a frame on the wire (R90, R119): `FRAME(T, H, B)` with its length and checksum filled in. -/
def frameBytes (typ : Byte) (header body : List Byte) : List Byte :=
  let len : Half := BitVec.ofNat 16 (header.length + body.length + 1)
  let covered := [typ, len.extractLsb' 8 8, len.extractLsb' 0 8] ++ header ++ body
  [Config.sop] ++ covered ++ [covered.foldl (· ^^^ ·) 0, Config.eop]

end Sys2Proof
end

