-- ==== Sys2Proof/Machine/State.lean ====
section
/-! DEFINITION. The state of the two blocks (10_state.md), the host's events, the blocks' events, the reasons to stop,
and the state after reset. -/

namespace Sys2Proof.Machine

/-- A buffer as the list of the bytes written since the last reset, addresses strictly rising. An address with no
entry holds no known byte (log 7), so no entry can equal what an unlisted address reads as. -/
abbrev Memory := List Host.Cell

/-- The canonical form of a buffer. -/
abbrev Memory.wf (m : Memory) : Prop := m.Pairwise (fun x y => x.1 < y.1)

/-- The two address spaces (20_memory.md R60). -/
inductive Space where
  | hdr | body
  deriving DecidableEq, Repr

/-- The two blocks (00_scope.md R2). -/
inductive Block where
  | fd | dis
  deriving DecidableEq, Repr

/-- The registers and buffers of the frame decoder (10_state.md R20 to R29). -/
structure FdRegs where
  /-- `fd_state` (R20). -/
  state : FdState
  /-- `fd_type` (R21). -/
  typ : Byte
  /-- `fd_csum` (R22). -/
  csum : Byte
  /-- `fd_len` (R23). -/
  len : Half
  /-- `fd_cnt` (R24). -/
  cnt : Half
  /-- `fd_body_len` (R25). -/
  bodyLen : Half
  /-- `fd_t_start` (R26; R14 for its width, log 12). -/
  tStart : Nat
  /-- `hdr` (R27). -/
  hdr : Memory
  /-- `body` (R28). -/
  body : Memory
  /-- `fd_consumer_en` (R29). -/
  consumerEn : Bool
  deriving DecidableEq, Repr

/-- One debounce channel (10_state.md R35, R36). -/
structure Channel where
  /-- `db_state[ch]` (R35). -/
  state : DbState
  /-- `db_deadline[ch]` (R36; R14 for its width, log 12). -/
  deadline : Nat
  deriving DecidableEq, Repr

/-- The registers of the sampler (10_state.md R35 to R37). -/
structure DisRegs where
  /-- The channels 0 .. `N_CH` − 1. -/
  channels : List Channel
  /-- `db_consumer_en` (R37). -/
  consumerEn : Bool
  deriving DecidableEq, Repr

/-- The causes of a rejection (60_exceptions.md R240). -/
inductive Cause where
  | badType | lenTooSmall | bodyOverflow | csumMismatch | badEop | watchdog
  deriving DecidableEq, Repr

/-- The meta record of a delivery (41_header_unpack.md R174). A field is `none` where R171 gives it no value
(`UNSPEC`; 93_implementation_defined.md U3; log 8). -/
structure Meta where
  reason : Option Byte
  cycleCount : Option Word
  relayCycleCount : Option Word
  cycleDuration : Option Word
  avgCurrent : Option Half
  avgVoltage : Option Half
  avgPowerFactor : Option Byte
  temperature : Option Byte
  totalPoweredTime : Option Word
  totalRunningTime : Option Word
  waterLevel : Option Byte
  sampleResolution : Option Byte
  /-- `meta_ok` (R173). -/
  metaOk : Bool
  /-- `sample_count` (R175). -/
  sampleCount : Nat
  /-- `inrush`, the delivered value in milliamps (R177 to R179). -/
  inrush : Rat
  deriving DecidableEq, Repr

/-- The contents of a `frame` event (40_frame_decoder.md R152). -/
structure Frame where
  typ : Byte
  len : Half
  hdrBytes : List Byte
  bodyBytes : List Byte
  bodyLen : Half
  info : Meta
  deriving DecidableEq, Repr

/-- The events of the frame decoder (10_state.md R52). -/
inductive FdEvent where
  | frame (f : Frame)
  | diag (c : Cause)
  deriving DecidableEq, Repr

/-- `edge(ch, is_active)`, the event of the sampler (10_state.md R52, 42_debounce_sampler.md R206). -/
structure Edge where
  ch : Nat
  isActive : Bool
  deriving DecidableEq, Repr

/-- What a read returns to the host (43_host_operations.md R224, R225). -/
inductive ReadResult where
  /-- `DIS_READ`: the error bit and the active bit. -/
  | channel (err active : Bool)
  /-- `FD_READ_STATE`: the 3-bit code of `fd_state`. -/
  | fdState (code : BitVec 3)
  deriving DecidableEq, Repr

/-- One event that the host presents (10_state.md R50, R53; 30_encoding.md R118). -/
inductive InEvent where
  /-- `RX(b, now)` (R50). -/
  | rx (b : Byte) (now : Nat)
  /-- `PASS(pins, now)` (R53): bit `ch` of `pins` is the level on the wire of channel `ch`, 0 low, 1 high (log 17). -/
  | pass (pins : Nat) (now : Nat)
  /-- `RESET_FD`. -/
  | resetFd
  /-- `RESET_DIS`. -/
  | resetDis
  /-- `SET_CONSUMER_FD v`. -/
  | setConsumerFd (present : Bool)
  /-- `SET_CONSUMER_DIS v`. -/
  | setConsumerDis (present : Bool)
  /-- `READ ch`. -/
  | read (ch : Nat)
  /-- `FD_READ_STATE`. -/
  | readState
  deriving DecidableEq, Repr

/-- The state of the machine: the two blocks, what the host has presented, and what it has received. -/
structure State where
  /-- The build-time parameters; no step changes them (R38, R40; log 4). -/
  params : Params
  /-- The frame decoder. -/
  fd : FdRegs
  /-- The sampler. -/
  dis : DisRegs
  /-- `HOST_RESET_FD` has been performed at least once (R226). -/
  fdInit : Bool
  /-- `HOST_RESET_DIS` has been performed at least once (R226). -/
  disInit : Bool
  /-- The events presented and not yet taken, oldest first (log 2). -/
  inputs : List InEvent
  /-- The next channel of the `PASS` at the head of `inputs` (R190; log 1). -/
  passCh : Nat
  /-- The `now` of the last `RX` (R14; log 12, 13). -/
  fdNow : Option Nat
  /-- The `now` of the last `PASS` (R14; log 12, 13). -/
  disNow : Option Nat
  /-- The events the frame decoder has emitted, oldest first (R52; log 3). -/
  fdOut : List FdEvent
  /-- The events the sampler has emitted, oldest first (R52; log 3). -/
  edges : List Edge
  /-- What the reads have returned, oldest first (R224, R225; log 3). -/
  results : List ReadResult
  /-- Index of the free bytes that the unwritten bytes of the buffers hold (U1; log 7). -/
  bufEpoch : Nat
  deriving DecidableEq, Repr

/-- The machine stops with a fault. No state that a run reaches from reset raises one (R30, R61, R62); a stop in the
other states is safe. -/
inductive Fault where
  /-- An access to an address that the buffer does not have (R61, R62). Raised by `FD_HDR_BYTE`, `FD_BODY_BYTE` and
  `FD_EOP_OK` in states that R30 excludes. Safe. -/
  | noSuchAddress (sp : Space) (a : Nat)
  /-- A `SAMPLE` on a channel that does not exist (R35). Raised by the `DB_` operations and by the fetch of a `PASS`.
  Safe. -/
  | noSuchChannel (ch : Nat)
  deriving DecidableEq, Repr

/-- The machine refuses to go on. -/
inductive Refusal where
  /-- An operation of the table that has no meaning in the model. Raised by a refused arm of `exec` only. Safe. -/
  | notModelled (mnemonic : String)
  /-- An operation before the block's first reset (R226, U8). Raised by every operation but the two resets. Safe. -/
  | beforeReset (b : Block)
  /-- The time of an `RX` or `PASS` goes back against the last one of the same block (R14, R290, U7). Raised by the
  fetch. Safe. -/
  | timeGoesBack (b : Block)
  /-- The time of an `RX` or `PASS` is 2^31 ticks or more after an instant that a rule compares it with: the `SOP` of the
  open session, the arming of a pending channel (R14, R290, U7). Raised by the fetch. Safe. -/
  | timeTooFar (b : Block)
  /-- No row of the table takes the selector (log 10). Raised by the fetch in states that R30 excludes. Safe. -/
  | noRow
  deriving DecidableEq, Repr

/-- The frame decoder after `HOST_RESET_FD` (R45, R220). -/
def FdRegs.reset : FdRegs where
  state := .idle
  typ := 0
  csum := 0
  len := 0
  cnt := 0
  bodyLen := 0
  tStart := 0
  hdr := []
  body := []
  consumerEn := false

/-- A channel after `HOST_RESET_DIS` (R45, R221). -/
def Channel.reset : Channel where
  state := .init
  deadline := 0

/-- The sampler of `n` channels after `HOST_RESET_DIS` (R45, R221). -/
def DisRegs.reset (n : Nat) : DisRegs where
  channels := List.replicate n Channel.reset
  consumerEn := false

/-- The machine with the parameters `p`, right after both blocks' reset, before the host has presented anything. -/
def State.resetWith (p : Params) : State where
  params := p
  fd := FdRegs.reset
  dis := DisRegs.reset p.nCh
  fdInit := true
  disInit := true
  inputs := []
  passCh := 0
  fdNow := none
  disNow := none
  fdOut := []
  edges := []
  results := []
  bufEpoch := 0

/-- The machine right after reset (R45, R280, R281; log 2, 14). -/
def State.reset : State := State.resetWith Config.device

/-- The machine before any reset (R226): the registers hold no known value, and every operation but the resets is
refused, so that what stands in them here is never read (log 14). -/
def State.powerOn : State := { State.reset with fdInit := false, disInit := false }

end Sys2Proof.Machine
end

