-- ==== Sys2Proof/Machine/Flags.lean ====
section
/-! DEFINITION. The block has no flags (10_state.md R41). This file holds what selects an operation beside the byte and the
state: the condition of a sample (30_encoding.md R107), the guards of the decoder's rows (R110), and the comparisons of
times (00_scope.md R14). -/

namespace Sys2Proof.Machine

/-- `elapsed = now − t_start`, on natural numbers (R14; `elapsed_eq_mod` for an implementation's computation). -/
def elapsed (tStart now : Nat) : Nat := now - tStart

/-- `reached`: `now ≥ deadline`, on natural numbers (R14, R107; `reached_eq_mod` for an implementation's computation). -/
def reached (deadline now : Nat) : Bool := decide (deadline ≤ now)

/-- The time does not go back against the last one of the block (R14, R290; log 12). -/
def timeOk (last : Option Nat) (now : Nat) : Bool :=
  match last with
  | none => true
  | some l => decide (l ≤ now)

/-- `now` is less than 2^(TIME_W−1) ticks after the instant `start` that a rule compares it with (R14, U7). The first
disjunct implies the second; it lets the test evaluate where `start` hangs on an OPEN `HOLD_TICKS` (`within_iff`). -/
def within (start now : Nat) : Bool :=
  decide (now < Config.timeBound) || decide (elapsed start now < Config.timeBound)

/-- The time of an `RX` can be compared with the `SOP` of the open session; in `idle` no rule compares it (R14, R131). -/
def sessionWithin (r : FdRegs) (now : Nat) : Bool := decide (r.state = .idle) || within r.tStart now

/-- The two states in which a sample is compared with the deadline (R36, R259). -/
def isPending : DbState → Bool
  | .pendingActive | .pendingInactive => true
  | .init | .active | .inactive | .invalid5 | .invalid6 | .invalid7 => false

/-- The instant at which the deadline of a pending channel was armed (R36). -/
def armedAt (p : Params) (c : Channel) : Nat := c.deadline - p.holdTicks

/-- The time of a sample can be compared with the arming of the deadline; outside the pending states no rule compares it
(R14, R36, R259). -/
def deadlineWithin (p : Params) (c : Channel) (now : Nat) : Bool := !isPending c.state || within (armedAt p c) now

/-- `asserted = (level == ASSERTED_LEVEL)` (R53, R107). -/
def asserted (p : Params) (level : Bool) : Bool := level == p.assertedLevel

/-- `expired = (now ≥ db_deadline[ch])` (R107). -/
def expired (c : Channel) (now : Nat) : Bool := reached c.deadline now

/-- The watchdog's guard: a session is open and more than `WDOG_TICKS` have passed since its `SOP` (R131). -/
def timedOut (r : FdRegs) (now : Nat) : Bool :=
  decide (r.state ≠ .idle) && decide (Config.wdogTicks < elapsed r.tStart now)

/-- The guard bits of the decoder's state for the byte `b` (R110, R120; log 9). -/
def guardBits (p : Params) (r : FdRegs) (b : Byte) : BitVec 2 :=
  match r.state with
  | .readLength => if r.cnt = 0 then 0 else if r.cnt = 1 then 1 else 2
  | .readBody => if p.bodyCap ≤ r.cnt.toNat then 1 else 0
  | .checksum => if b = r.csum then 0 else 1
  | .discard => if b = Config.sop ∧ p.discardResync = false then 1 else 0
  | .idle | .sop | .readHeader | .eop => 0

end Sys2Proof.Machine
end

