-- ==== Sys2Proof/Machine/Operands.lean ====
section
/-! DEFINITION. Assembly of values from bytes (30_encoding.md R102 to R106, 20_memory.md R63, R64) and the exclusive-or of
the checksum (40_frame_decoder.md R148). -/

namespace Sys2Proof.Machine

/-- `BE(list)`: the first element is the most significant byte (00_scope.md R12, 20_memory.md R63). -/
def be (bytes : List Byte) : Nat := bytes.foldl (fun acc b => acc * 256 + b.toNat) 0

/-- `fd_len` with its bits 15:8 replaced (R136). -/
def withHi (len : Half) (b : Byte) : Half := b ++ len.extractLsb' 0 8

/-- `fd_len` with its bits 7:0 replaced (R137). -/
def withLo (len : Half) (b : Byte) : Half := len.extractLsb' 8 8 ++ b

/-- The exclusive-or of a list of bytes (R148 (a)). -/
def xorBytes (bytes : List Byte) : Byte := bytes.foldl (· ^^^ ·) 0

/-- `L − HDR_SIZE − 1` as the 16-bit register holds it (R105, R138). -/
def bodyLength (len : Half) (hdrSize : Nat) : Half := len - BitVec.ofNat 16 hdrSize - 1

/-- The two bytes of a sample value as a 16-bit word: the first is the most significant where `SAMPLE_BE` (R104). -/
def sampleRaw (bigEndian : Bool) (b0 b1 : Byte) : Half := if bigEndian then b0 ++ b1 else b1 ++ b0

/-- One sample: the voltage value, then the current value, both two's complement (R101, R104, R176). -/
structure Sample where
  v : Int
  i : Int
  deriving DecidableEq, Repr

/-- The samples of a body: the whole groups of four bytes, the 0 to 3 bytes after the last of them left out
(20_memory.md R68, 30_encoding.md R101, R106). -/
def samples (bigEndian : Bool) : List Byte → List Sample
  | v0 :: v1 :: i0 :: i1 :: rest =>
    { v := (sampleRaw bigEndian v0 v1).toInt, i := (sampleRaw bigEndian i0 i1).toInt } :: samples bigEndian rest
  | _ => []

/-- `sample_count = floor(body_len / SAMPLE_SIZE)` (R106, R175). -/
def sampleCount (bodyLen : Half) : Nat := bodyLen.toNat / Config.sampleSize

end Sys2Proof.Machine
end

