-- ==== Sys2Proof/Machine/Ops.lean ====
section
/-! DEFINITION. The shared operations over registers, buffers and events: each says once what several operations of the table
do. -/

namespace Sys2Proof.Machine

/-- The outcome of an operation. -/
abbrev Outcome := Host.Outcome State Fault Refusal

/-- Go on with `k` from the next state; a stop stays. -/
def andThen (o : Outcome) (k : State → Outcome) : Outcome :=
  match o with
  | .next s => k s
  | .fault r => .fault r
  | .refused r => .refused r

/-! ### Buffers -/

/-- The byte listed at an address. -/
def Memory.read : Memory → Nat → Option Byte
  | [], _ => none
  | (k, v) :: rest, a => if k = a then some v else Memory.read rest a

/-- The buffer with the byte `b` at the address `a`, addresses kept rising. -/
def Memory.write : Memory → Nat → Byte → Memory
  | [], a, b => [(a, b)]
  | (k, v) :: rest, a, b =>
    if a < k then (a, b) :: (k, v) :: rest
    else if k = a then (a, b) :: rest
    else (k, v) :: Memory.write rest a b

/-- The size of an address space (R61, R62). -/
def spaceSize (p : Params) : Space → Nat
  | .hdr => p.hdrSize
  | .body => p.bodyCap

/-- The number of an address space, for the free bytes. -/
def Space.number : Space → Nat
  | .hdr => 0
  | .body => 1

/-- The buffer of an address space. -/
def FdRegs.buffer (r : FdRegs) : Space → Memory
  | .hdr => r.hdr
  | .body => r.body

/-- The registers with the buffer of an address space replaced. -/
def FdRegs.setBuffer (r : FdRegs) (sp : Space) (m : Memory) : FdRegs :=
  match sp with
  | .hdr => { r with hdr := m }
  | .body => { r with body := m }

/-- The byte at an address of a buffer: the one written there, or, where nothing has been written since the last reset,
a free byte, the same at every read (R45, R67; U1; log 7). -/
def State.readByte (s : State) (sp : Space) (a : Nat) : Byte :=
  ((s.fd.buffer sp).read a).getD (Config.freeByte s.bufEpoch sp.number a)

/-- The bytes at the addresses `addr .. addr + n − 1`, lowest first. -/
def State.readBytes (s : State) (sp : Space) (addr n : Nat) : List Byte :=
  (List.range n).map (fun k => s.readByte sp (addr + k))

/-- `MemWrite(space, addr, 1, [b])` (R12, R61, R62); an address the buffer does not have faults (log 11). -/
def memWrite (sp : Space) (addr : Nat) (b : Byte) (s : State) : Outcome :=
  if addr < spaceSize s.params sp then
    .next { s with fd := s.fd.setBuffer sp ((s.fd.buffer sp).write addr b) }
  else .fault (.noSuchAddress sp addr)

/-! ### The block has been reset (R226) -/

/-- An operation of the frame decoder is defined after the block's first reset only. -/
def requireFd (s : State) (o : Outcome) : Outcome :=
  if s.fdInit then o else .refused (.beforeReset .fd)

/-- An operation of the sampler is defined after the block's first reset only. -/
def requireDis (s : State) (o : Outcome) : Outcome :=
  if s.disInit then o else .refused (.beforeReset .dis)

/-! ### Registers -/

/-- The state with other registers of the frame decoder. -/
def State.setFd (s : State) (r : FdRegs) : State := { s with fd := r }

/-- The state with other registers of the sampler. -/
def State.setDis (s : State) (r : DisRegs) : State := { s with dis := r }

/-- The state with one channel replaced, every other left alone (R39). -/
def State.setChannel (s : State) (ch : Nat) (c : Channel) : State :=
  s.setDis { s.dis with channels := s.dis.channels.set ch c }

/-- `emit` an event of the frame decoder (R12, R52). -/
def State.emitFd (s : State) (e : FdEvent) : State := { s with fdOut := s.fdOut ++ [e] }

/-- `emit edge(ch, is_active)` where a consumer is registered; else nothing is emitted and nothing kept (R207, R250). -/
def State.emitEdge (s : State) (ch : Nat) (isActive : Bool) : State :=
  if s.dis.consumerEn then { s with edges := s.edges ++ [{ ch := ch, isActive := isActive }] } else s

/-- Return a result to the host. -/
def State.giveResult (s : State) (r : ReadResult) : State := { s with results := s.results ++ [r] }

/-! ### Taking an exception: a rejection (60_exceptions.md R240, R246) -/

/-- The code of a cause on the diagnostic output (R240). -/
def Cause.code : Cause → BitVec 3
  | .badType => 1
  | .lenTooSmall => 2
  | .bodyOverflow => 3
  | .csumMismatch => 4
  | .badEop => 5
  | .watchdog => 6

/-- Where a rejection goes: `discard` for `BODY_OVERFLOW`, else `idle` (R240, R246). -/
def Cause.target : Cause → FdState
  | .bodyOverflow => .discard
  | .badType | .lenTooSmall | .csumMismatch | .badEop | .watchdog => .idle

/-- `raise Reject(cause)` (R12, R246): emit `diag(cause)` and set `fd_state`; nothing is saved and no other register
changes. There is no return from a rejection (R254). -/
def reject (c : Cause) (s : State) : State :=
  (s.setFd { s.fd with state := c.target }).emitFd (.diag c)

/-! ### Sessions, channels -/

/-- A start marker is accepted (R133, R142). -/
def openSession (now : Nat) (s : State) : State :=
  s.setFd { s.fd with csum := 0, tStart := now, state := .sop }

/-- Change one channel (R39); a channel that does not exist faults (log 11). -/
def changeChannel (ch : Nat) (f : Channel → Channel) (s : State) : Outcome :=
  match s.dis.channels[ch]? with
  | none => .fault (.noSuchChannel ch)
  | some c => .next (s.setChannel ch (f c))

/-- Arm the deadline one hold time ahead and enter a pending state (R205 "arm"). -/
def armInto (st : DbState) (ch : Nat) (now : Nat) (s : State) : Outcome :=
  changeChannel ch (fun _ => { state := st, deadline := now + s.params.holdTicks }) s

/-- Enter a state without arming (R205). -/
def moveTo (st : DbState) (ch : Nat) (s : State) : Outcome :=
  changeChannel ch (fun c => { c with state := st }) s

/-- Enter a confirmed state and emit its event (R195, R200). -/
def confirm (st : DbState) (isActive : Bool) (ch : Nat) (s : State) : Outcome :=
  andThen (moveTo st ch s) (fun t => .next (t.emitEdge ch isActive))

/-- Nothing happens to the channel (R196, R197, R201, R202). -/
def stay (ch : Nat) (s : State) : Outcome := changeChannel ch id s

end Sys2Proof.Machine
end

