-- ==== Sys2Proof/Machine/Payload.lean ====
section
/-! DEFINITION. The payload stage of a delivery, `Unpack` (41_header_unpack.md): a pure function of the header bytes, the body
bytes and the parameters. -/

namespace Sys2Proof.Machine

/-- The field cursor (R170). -/
structure Cursor where
  pos : Nat
  ok : Bool
  deriving DecidableEq, Repr

/-- A step of `n` bytes fits (R171, R172). -/
def Cursor.fits (c : Cursor) (cap n : Nat) : Bool := c.ok && decide (c.pos + n ≤ cap)

/-- The cursor after a step of `n` bytes: moved on, or its error latched (R171, R172). -/
def Cursor.advance (c : Cursor) (cap n : Nat) : Cursor :=
  if c.fits cap n then { c with pos := c.pos + n } else { c with ok := false }

/-- `Get(n)` for a field of `w = 8·n` bits (R171): `none` is `UNSPEC`, no value. -/
def Cursor.get (c : Cursor) (h : List Byte) (n w : Nat) : Option (BitVec w) :=
  if c.fits h.length n then some (BitVec.ofNat w (be ((h.drop c.pos).take n))) else none

/-- The five conditional fields with the cursor after them (R174): extracted where the reason is power-off, else ten bytes
skipped and the fields 0 by assignment. -/
structure Conditional where
  cycleDuration : Option Word
  avgCurrent : Option Half
  avgVoltage : Option Half
  avgPowerFactor : Option Byte
  temperature : Option Byte
  after : Cursor
  deriving DecidableEq, Repr

/-- The conditional part of `Unpack` from the cursor `c` (R174). -/
def unpackConditional (isOff : Bool) (h : List Byte) (c : Cursor) : Conditional :=
  if isOff then
    let c1 := c.advance h.length 4
    let c2 := c1.advance h.length 2
    let c3 := c2.advance h.length 2
    let c4 := c3.advance h.length 1
    { cycleDuration := c.get h 4 32, avgCurrent := c1.get h 2 16, avgVoltage := c2.get h 2 16,
      avgPowerFactor := c3.get h 1 8, temperature := c4.get h 1 8, after := c4.advance h.length 1 }
  else
    { cycleDuration := some 0, avgCurrent := some 0, avgVoltage := some 0, avgPowerFactor := some 0,
      temperature := some 0, after := c.advance h.length 10 }

/-- The largest of a first value and the values after it. -/
def maxOf (x : Int) (xs : List Int) : Int := xs.foldl max x

/-- The smallest of a first value and the values after it. -/
def minOf (x : Int) (xs : List Int) : Int := xs.foldl min x

/-- `InrushExact` (R178), in milliamps: `((A_max − A_min) / 2) × RMS_FACTOR × 1000` with
`A_max − A_min = |I_SCALE| × (i_max − i_min)`. -/
def inrushExact (iScale : Rat) (iMax iMin : Int) : Rat :=
  |iScale| * ((iMax - iMin : Int) : Rat) / 2 * Config.rmsFactor * 1000

/-- `INRUSH_REPR` (R179): a free function of the exact value, kept within `INRUSH_TOL` of it (log 15). -/
def inrushRepr (tol exact : Rat) : Rat :=
  max (exact - tol) (min (exact + tol) (Config.freeInrush exact))

/-- `Inrush(reason, B, sample_count)` (R177): 0 where the reason is not power-on, and 0 where there is no sample. -/
def inrush (p : Params) (reason : Option Byte) (body : List Byte) : Rat :=
  if reason = some Config.reasonOn then
    match (samples p.sampleBe body).map (·.i) with
    | [] => 0
    | x :: xs => inrushRepr p.inrushTol (inrushExact p.iScale (maxOf x xs) (minOf x xs))
  else 0

/-- `Unpack('S', H, B, body_len)` (R174). The capacity of the cursor is the number of header bytes, `HDR_SIZE` (R170). -/
def unpack (p : Params) (h body : List Byte) (bodyLen : Half) : Meta :=
  let c0 : Cursor := { pos := 0, ok := true }
  let c1 := c0.advance h.length 1
  let c2 := c1.advance h.length 4
  let c3 := c2.advance h.length 4
  let reason := c0.get h 1 8
  let cond := unpackConditional (decide (reason = some p.reasonOff)) h c3
  let c4 := cond.after
  let c5 := c4.advance h.length 4
  let c6 := c5.advance h.length 4
  let c7 := c6.advance h.length 1
  let c8 := c7.advance h.length 1
  let c9 := c8.advance h.length 1
  { reason := reason
    cycleCount := c1.get h 4 32
    relayCycleCount := c2.get h 4 32
    cycleDuration := cond.cycleDuration
    avgCurrent := cond.avgCurrent
    avgVoltage := cond.avgVoltage
    avgPowerFactor := cond.avgPowerFactor
    temperature := cond.temperature
    totalPoweredTime := c4.get h 4 32
    totalRunningTime := c5.get h 4 32
    waterLevel := c6.get h 1 8
    sampleResolution := c8.get h 1 8
    metaOk := c9.ok
    sampleCount := sampleCount bodyLen
    inrush := inrush p reason body }

end Sys2Proof.Machine
end

