-- ==== Sys2Proof/Machine/FrameDecoder.lean ====
section
/-! DEFINITION. The sixteen operations of the frame decoder (40_frame_decoder.md R131 to R146). Each is the pseudocode of its
rule; which of them an `RX` performs is selected in Machine/Select.lean. -/

namespace Sys2Proof.Machine

/-- `FD_WDOG` (R131, R247): the session is abandoned; the byte is dispatched in `idle` afterwards. -/
def execFdWdog (s : State) : Outcome := requireFd s (.next (reject .watchdog s))

/-- `FD_IDLE_SOP` (R133). -/
def execFdIdleSop (now : Nat) (s : State) : Outcome := requireFd s (.next (openSession now s))

/-- `FD_IDLE_SKIP` (R132): nothing. -/
def execFdIdleSkip (s : State) : Outcome := requireFd s (.next s)

/-- `FD_SOP_TYPE` (R134): the byte is `TYPE_SIG`. -/
def execFdSopType (s : State) : Outcome :=
  requireFd s (.next (s.setFd
    { s.fd with typ := Config.typeSig, csum := s.fd.csum ^^^ Config.typeSig, cnt := 0, state := .readLength }))

/-- `FD_SOP_BADTYPE` (R135). -/
def execFdSopBadtype (s : State) : Outcome := requireFd s (.next (reject .badType s))

/-- `FD_LEN_HI` (R136). -/
def execFdLenHi (b : Byte) (s : State) : Outcome :=
  requireFd s (.next (s.setFd { s.fd with len := withHi s.fd.len b, csum := s.fd.csum ^^^ b, cnt := 1 }))

/-- `FD_LEN_LO` (R137): the declared length is complete; it must exceed `HDR_SIZE`. -/
def execFdLenLo (b : Byte) (s : State) : Outcome :=
  let t := s.setFd { s.fd with len := withLo s.fd.len b, csum := s.fd.csum ^^^ b }
  requireFd s (.next
    (if (withLo s.fd.len b).toNat ≤ s.params.hdrSize then reject .lenTooSmall t
     else t.setFd { t.fd with cnt := 0, state := .readHeader }))

/-- `FD_HDR_BYTE` (R138): the byte is stored; the last one fixes the body length and leaves the header. -/
def execFdHdrByte (b : Byte) (s : State) : Outcome :=
  requireFd s (andThen (memWrite .hdr s.fd.cnt.toNat b s) (fun t =>
    if s.fd.cnt.toNat + 1 < s.params.hdrSize then
      .next (t.setFd { t.fd with csum := s.fd.csum ^^^ b, cnt := s.fd.cnt + 1 })
    else
      let len := bodyLength s.fd.len s.params.hdrSize
      .next (t.setFd { t.fd with
        csum := s.fd.csum ^^^ b, bodyLen := len, cnt := 0,
        state := if len = 0 then .checksum else .readBody })))

/-- `FD_BODY_BYTE` (R139): the byte is stored; the last one leaves the body. -/
def execFdBodyByte (b : Byte) (s : State) : Outcome :=
  requireFd s (andThen (memWrite .body s.fd.cnt.toNat b s) (fun t =>
    .next (t.setFd { t.fd with
      csum := s.fd.csum ^^^ b, cnt := s.fd.cnt + 1,
      state := if s.fd.cnt.toNat + 1 = s.fd.bodyLen.toNat then .checksum else s.fd.state })))

/-- `FD_BODY_OVF` (R140): the byte is dropped. -/
def execFdBodyOvf (s : State) : Outcome := requireFd s (.next (reject .bodyOverflow s))

/-- `FD_DISCARD_DROP` (R141): nothing. -/
def execFdDiscardDrop (s : State) : Outcome := requireFd s (.next s)

/-- `FD_DISCARD_SOP` (R142): exactly the effect of `FD_IDLE_SOP`. -/
def execFdDiscardSop (now : Nat) (s : State) : Outcome := requireFd s (.next (openSession now s))

/-- `FD_CSUM_OK` (R143): the byte is not folded into `fd_csum`. -/
def execFdCsumOk (s : State) : Outcome := requireFd s (.next (s.setFd { s.fd with state := .eop }))

/-- `FD_CSUM_BAD` (R144). -/
def execFdCsumBad (s : State) : Outcome := requireFd s (.next (reject .csumMismatch s))

/-- The `frame` event of a delivery (R145, R152), from the header bytes and the first `fd_body_len` body bytes. -/
def frameOf (s : State) : Frame :=
  let h := s.readBytes .hdr 0 s.params.hdrSize
  let body := s.readBytes .body 0 s.fd.bodyLen.toNat
  { typ := s.fd.typ, len := s.fd.len, hdrBytes := h, bodyBytes := body, bodyLen := s.fd.bodyLen,
    info := unpack s.params h body s.fd.bodyLen }

/-- Emit `frame(...)` where a consumer is registered; with none the frame is dropped (R145). -/
def deliver (s : State) : State := if s.fd.consumerEn then s.emitFd (.frame (frameOf s)) else s

/-- `FD_EOP_OK` (R145): the frame is delivered. Reading past the body buffer, which R30 (d) excludes, faults (log 11). -/
def execFdEopOk (s : State) : Outcome :=
  requireFd s
    (if s.fd.bodyLen.toNat ≤ s.params.bodyCap then
      .next ((deliver s).setFd { s.fd with state := .idle })
    else .fault (.noSuchAddress .body s.params.bodyCap))

/-- `FD_EOP_BAD` (R146): to `idle`, not to the state `discard`. -/
def execFdEopBad (s : State) : Outcome := requireFd s (.next (reject .badEop s))

end Sys2Proof.Machine
end

