-- ==== Sys2Proof/Machine/Sampler.lean ====
section
/-! DEFINITION. The thirteen operations of a debounce channel (42_debounce_sampler.md R192 to R204) and the value of the snapshot
accessor (R209). Each operation is one `SAMPLE` of channel `ch`. -/

namespace Sys2Proof.Machine

/-- `DB_INIT_A` (R192). -/
def execDbInitA (ch : Nat) (now : Nat) (s : State) : Outcome := requireDis s (armInto .pendingActive ch now s)

/-- `DB_INIT_D` (R193). -/
def execDbInitD (ch : Nat) (now : Nat) (s : State) : Outcome := requireDis s (armInto .pendingInactive ch now s)

/-- `DB_PA_BOUNCE` (R194): no event, no deadline. -/
def execDbPaBounce (ch : Nat) (s : State) : Outcome := requireDis s (moveTo .inactive ch s)

/-- `DB_PA_CONFIRM` (R195): "activated". -/
def execDbPaConfirm (ch : Nat) (s : State) : Outcome := requireDis s (confirm .active true ch s)

/-- `DB_PA_WAIT` (R196). -/
def execDbPaWait (ch : Nat) (s : State) : Outcome := requireDis s (stay ch s)

/-- `DB_ACT_STAY` (R197). -/
def execDbActStay (ch : Nat) (s : State) : Outcome := requireDis s (stay ch s)

/-- `DB_ACT_LEAVE` (R198). -/
def execDbActLeave (ch : Nat) (now : Nat) (s : State) : Outcome := requireDis s (armInto .pendingInactive ch now s)

/-- `DB_PI_BOUNCE` (R199): back to `active`, no event. -/
def execDbPiBounce (ch : Nat) (s : State) : Outcome := requireDis s (moveTo .active ch s)

/-- `DB_PI_CONFIRM` (R200): "deactivated". -/
def execDbPiConfirm (ch : Nat) (s : State) : Outcome := requireDis s (confirm .inactive false ch s)

/-- `DB_PI_WAIT` (R201). -/
def execDbPiWait (ch : Nat) (s : State) : Outcome := requireDis s (stay ch s)

/-- `DB_INA_STAY` (R202). -/
def execDbInaStay (ch : Nat) (s : State) : Outcome := requireDis s (stay ch s)

/-- `DB_INA_LEAVE` (R203). -/
def execDbInaLeave (ch : Nat) (now : Nat) (s : State) : Outcome := requireDis s (armInto .pendingActive ch now s)

/-- `DB_INVALID` (R204): the sample is used up by the repair. -/
def execDbInvalid (ch : Nat) (s : State) : Outcome := requireDis s (moveTo .init ch s)

/-- `Read(ch)` of a channel's state (R209). -/
def readActive (p : Params) (st : DbState) : Bool :=
  match st with
  | .active => true
  | .pendingInactive => p.readPiAsActive
  | .init | .pendingActive | .inactive | .invalid5 | .invalid6 | .invalid7 => false

end Sys2Proof.Machine
end

