-- ==== Sys2Proof/Machine/HostOps.lean ====
section
/-! DEFINITION. The six host operations (43_host_operations.md R220 to R226). -/

namespace Sys2Proof.Machine

/-- `HOST_RESET_FD` (R220): every register at its reset value, the consumer unregistered, the contents of the buffers
unspecified afterwards (log 7). It may be the first operation of all (R226). -/
def execHostResetFd (s : State) : Outcome :=
  .next { s with fd := FdRegs.reset, fdInit := true, bufEpoch := s.bufEpoch + 1 }

/-- `HOST_RESET_DIS` (R221): every channel in `init`, the consumer unregistered, no event. -/
def execHostResetDis (s : State) : Outcome :=
  .next { s with dis := DisRegs.reset s.params.nCh, disInit := true }

/-- `FD_SET_CONSUMER` (R222). -/
def execFdSetConsumer (present : Bool) (s : State) : Outcome :=
  requireFd s (.next (s.setFd { s.fd with consumerEn := present }))

/-- `DIS_SET_CONSUMER` (R223). -/
def execDisSetConsumer (present : Bool) (s : State) : Outcome :=
  requireDis s (.next (s.setDis { s.dis with consumerEn := present }))

/-- What `DIS_READ(ch)` returns (R224): an error for an index that is no channel, else the value of R209. -/
def disReadResult (s : State) (ch : Nat) : ReadResult :=
  if s.params.nCh ≤ ch then .channel true false
  else .channel false (((s.dis.channels[ch]?).map (fun c => readActive s.params c.state)).getD false)

/-- `DIS_READ` (R224): it changes no register. -/
def execDisRead (ch : Nat) (s : State) : Outcome := requireDis s (.next (s.giveResult (disReadResult s ch)))

/-- `FD_READ_STATE` (R225): it changes no register. -/
def execFdReadState (s : State) : Outcome := requireFd s (.next (s.giveResult (.fdState s.fd.state.code)))

end Sys2Proof.Machine
end

