-- ==== Sys2Proof/Machine/Dispatch.lean ====
section
/-! DEFINITION. What each operation of spec/opcode_table.json does: one arm per row, each a direct call of its meaning. -/

namespace Sys2Proof.Machine

def exec (i : Instr) (s : State) : Host.Outcome State Fault Refusal :=
  match i with
  -- frame decoder (40_frame_decoder.md)
  | .fdWdog _ _ => Sys2Proof.Machine.execFdWdog s
  | .fdIdleSop now => Sys2Proof.Machine.execFdIdleSop now s
  | .fdIdleSkip _ => Sys2Proof.Machine.execFdIdleSkip s
  | .fdSopType => Sys2Proof.Machine.execFdSopType s
  | .fdSopBadtype _ => Sys2Proof.Machine.execFdSopBadtype s
  | .fdLenHi b => Sys2Proof.Machine.execFdLenHi b s
  | .fdLenLo b => Sys2Proof.Machine.execFdLenLo b s
  | .fdHdrByte b => Sys2Proof.Machine.execFdHdrByte b s
  | .fdBodyByte b => Sys2Proof.Machine.execFdBodyByte b s
  | .fdBodyOvf _ => Sys2Proof.Machine.execFdBodyOvf s
  | .fdDiscardDrop _ => Sys2Proof.Machine.execFdDiscardDrop s
  | .fdDiscardSop now => Sys2Proof.Machine.execFdDiscardSop now s
  | .fdCsumOk _ => Sys2Proof.Machine.execFdCsumOk s
  | .fdCsumBad _ => Sys2Proof.Machine.execFdCsumBad s
  | .fdEopOk => Sys2Proof.Machine.execFdEopOk s
  | .fdEopBad _ => Sys2Proof.Machine.execFdEopBad s
  -- debounce channel (42_debounce_sampler.md)
  | .dbInitA ch now _ => Sys2Proof.Machine.execDbInitA ch now s
  | .dbInitD ch now _ => Sys2Proof.Machine.execDbInitD ch now s
  | .dbPaBounce ch _ => Sys2Proof.Machine.execDbPaBounce ch s
  | .dbPaConfirm ch => Sys2Proof.Machine.execDbPaConfirm ch s
  | .dbPaWait ch => Sys2Proof.Machine.execDbPaWait ch s
  | .dbActStay ch _ => Sys2Proof.Machine.execDbActStay ch s
  | .dbActLeave ch now _ => Sys2Proof.Machine.execDbActLeave ch now s
  | .dbPiBounce ch _ => Sys2Proof.Machine.execDbPiBounce ch s
  | .dbPiConfirm ch => Sys2Proof.Machine.execDbPiConfirm ch s
  | .dbPiWait ch => Sys2Proof.Machine.execDbPiWait ch s
  | .dbInaStay ch _ => Sys2Proof.Machine.execDbInaStay ch s
  | .dbInaLeave ch now _ => Sys2Proof.Machine.execDbInaLeave ch now s
  | .dbInvalid ch _ _ _ => Sys2Proof.Machine.execDbInvalid ch s
  -- host operations (43_host_operations.md)
  | .hostResetFd => Sys2Proof.Machine.execHostResetFd s
  | .hostResetDis => Sys2Proof.Machine.execHostResetDis s
  | .fdSetConsumer present => Sys2Proof.Machine.execFdSetConsumer present s
  | .disSetConsumer present => Sys2Proof.Machine.execDisSetConsumer present s
  | .disRead ch => Sys2Proof.Machine.execDisRead ch s
  | .fdReadState => Sys2Proof.Machine.execFdReadState s

end Sys2Proof.Machine
end

