-- ==== Sys2Proof/Machine/Select.lean ====
section
/-! DEFINITION. From the host's next event to the next operation: the selector that the event and the state form, its decoding
(30_encoding.md R110, R111, R120; 40_frame_decoder.md R130; 42_debounce_sampler.md R190, R191), what is left of the event
when the operation is done, and where a table word is placed so that the next step runs it. -/

namespace Sys2Proof.Machine

/-- The selector of the byte `b` at the time `now`: the watchdog is tested first, and only where it does not fire are the
guards of the state's own rows looked at (R130). -/
def rxSelector (s : State) (b : Byte) (now : Nat) : BitVec 16 :=
  if timedOut s.fd now then packRx true 0 s.fd.state b
  else packRx false (guardBits s.params s.fd b) s.fd.state b

/-- The level of channel `ch` in a pass (R53; log 17). -/
def pinLevel (pins ch : Nat) : Bool := pins.testBit ch

/-- The selector of a sample of the channel `c` (R107, R191). -/
def sampleSelector (p : Params) (c : Channel) (level : Bool) (now : Nat) : BitVec 8 :=
  packSample c.state (asserted p level) (expired c now)

/-- What the next step does. -/
inductive Fetch where
  /-- The host has presented nothing: the blocks hold their state (R262). -/
  | idle
  /-- Perform an operation. -/
  | run (i : Instr)
  /-- Stop with a fault. -/
  | fault (f : Fault)
  /-- Refuse. -/
  | refuse (r : Refusal)
  deriving DecidableEq, Repr

/-- The decoder's answer as what the step does. -/
def Fetch.ofDecoded : Decoded → Fetch
  | .instr i => .run i
  | .reject _ => .refuse .noRow

/-- The operation that the event at the head of `inputs` performs next (R130, R190, R191); a host operation is performed
as it is (R120). -/
def fetch (s : State) : Fetch :=
  match s.inputs with
  | [] => .idle
  | .rx b now :: _ =>
    if timeOk s.fdNow now then
      if sessionWithin s.fd now then Fetch.ofDecoded (decode (.rx (rxSelector s b now) now))
      else .refuse (.timeTooFar .fd)
    else .refuse (.timeGoesBack .fd)
  | .pass pins now :: _ =>
    if timeOk s.disNow now then
      match s.dis.channels[s.passCh]? with
      | none => .fault (.noSuchChannel s.passCh)
      | some c =>
        if deadlineWithin s.params c now then
          Fetch.ofDecoded (decode (.sample (sampleSelector s.params c (pinLevel pins s.passCh) now) s.passCh now))
        else .refuse (.timeTooFar .dis)
    else .refuse (.timeGoesBack .dis)
  | .resetFd :: _ => .run .hostResetFd
  | .resetDis :: _ => .run .hostResetDis
  | .setConsumerFd v :: _ => .run (.fdSetConsumer v)
  | .setConsumerDis v :: _ => .run (.disSetConsumer v)
  | .read ch :: _ => .run (.disRead ch)
  | .readState :: _ => .run .fdReadState

/-- What is left of the head event when the operation `i` is done: after `FD_WDOG` the byte stays, to be dispatched in
`idle` (R130, R131); a pass goes on with the next channel in ascending order and is over after the last (R71, R190);
every other event is used up. -/
def retire (i : Instr) (s : State) : State :=
  match s.inputs with
  | [] => s
  | .rx _ now :: rest =>
    match i with
    | .fdWdog _ _ => { s with fdNow := some now }
    | _ => { s with fdNow := some now, inputs := rest }
  | .pass _ now :: rest =>
    if s.passCh + 1 < s.params.nCh then { s with disNow := some now, passCh := s.passCh + 1 }
    else { s with disNow := some now, passCh := 0, inputs := rest }
  | _ :: rest => { s with inputs := rest }

/-- The host presents an event (log 2). -/
def State.present (s : State) (e : InEvent) : State := { s with inputs := s.inputs ++ [e] }

/-- Another agent of the host reads a channel between two operations, also between two samples of one pass: the read is
taken next (20_memory.md R74; log 18). -/
def State.presentRead (s : State) (ch : Nat) : State := { s with inputs := .read ch :: s.inputs }

/-- The state in which the next step takes the RX selector `sel`: the byte stands at the head of `inputs`, and the state
and the guards of the selector hold (log 2). -/
def placeRx (sel : BitVec 16) (s : State) : State :=
  let b := selByte sel
  let g := selGuard sel
  let st := selState sel
  let last := s.fdNow.getD 0
  let now := if selWdog sel then last + Config.wdogTicks + 1 else last
  { s with
    inputs := .rx b now :: s.inputs
    params := if st = .discard ∧ b = Config.sop then { s.params with discardResync := decide (g = 0) } else s.params
    fd := { s.fd with
      state := st
      tStart := last
      cnt := if st = .readLength then g.setWidth 16
        else if st = .readBody then (if g = 0 then 0 else BitVec.ofNat 16 s.params.bodyCap)
        else s.fd.cnt
      csum := if st = .checksum then (if g = 0 then b else ~~~b) else s.fd.csum } }

/-- The state in which the next step takes the SAMPLE selector `sel` on channel 0 (log 2). -/
def placeSample (sel : BitVec 8) (s : State) : State :=
  let now := s.disNow.getD 0
  let c : Channel :=
    { state := DbState.ofCode (sel.extractLsb' 2 3), deadline := if sel.getLsbD 0 then now else now + 1 }
  let level := if sel.getLsbD 1 then s.params.assertedLevel else !s.params.assertedLevel
  { s with
    inputs := .pass (if level then 1 else 0) now :: s.inputs
    passCh := 0
    dis := { s.dis with channels := s.dis.channels.set 0 c } }

/-- The state in which the next step takes a fetched word. -/
def placeFetched (f : Fetched) (s : State) : State :=
  match f with
  | .rx sel _ => placeRx sel s
  | .sample sel _ _ => placeSample sel s

end Sys2Proof.Machine
end

