-- ==== Sys2Proof/Machine/Step.lean ====
section
/-! DEFINITION. One step: the next operation of the table (log 1). -/

namespace Sys2Proof.Machine

/-- One step of the machine: take the operation that the head event selects, perform it, and retire it. With no event
presented the machine holds its state (R262). -/
def step (s : State) : Host.Outcome State Fault Refusal :=
  match fetch s with
  | .idle => .next s
  | .run i => andThen (exec i s) (fun t => .next (retire i t))
  | .fault f => .fault f
  | .refuse r => .refused r

/-- The state in which the next step runs the instruction of the table word `w` (log 2). -/
def State.withFetchWord (s : State) (nbits w : Nat) : State := placeFetched (tableFetched nbits w) s

end Sys2Proof.Machine
end

