-- ==== Sys2Proof/Machine/Events.lean ====
section
/-! DEFINITION. The whole operations on one input event: `RX` (40_frame_decoder.md R130), `SAMPLE` and `PASS`
(42_debounce_sampler.md R190, R191). `step` performs the same operations one at a time. -/

namespace Sys2Proof.Machine

/-- Perform the operation that the decoder answers. -/
def execDecoded (d : Decoded) (s : State) : Outcome :=
  match d with
  | .instr i => exec i s
  | .reject _ => .refused .noRow

/-- Step 2 of `RX`: the one operation whose state, byte pattern and guard hold (R130). -/
def rxDispatch (b : Byte) (now : Nat) (s : State) : Outcome :=
  execDecoded (decode (.rx (rxSelector s b now) now)) s

/-- `RX(b, now)` (R130): the watchdog, then one operation. -/
def rx (b : Byte) (now : Nat) (s : State) : Outcome :=
  if timedOut s.fd now then andThen (exec (.fdWdog s.fd.state b) s) (rxDispatch b now)
  else rxDispatch b now s

/-- The bytes of a stream, each with its time, in arrival order (R70). -/
def feed : List (Byte × Nat) → State → Outcome
  | [], s => .next s
  | x :: xs, s => andThen (rx x.1 x.2 s) (feed xs)

/-- `SAMPLE(ch, level, now)` (R191). -/
def sample (ch : Nat) (level : Bool) (now : Nat) (s : State) : Outcome :=
  match s.dis.channels[ch]? with
  | none => .fault (.noSuchChannel ch)
  | some c => execDecoded (decode (.sample (sampleSelector s.params c level now) ch now)) s

/-- The samples of a pass on `n` channels from channel `ch` on, in ascending order (R71). -/
def passFrom (pins : Nat) (now : Nat) : (n ch : Nat) → State → Outcome
  | 0, _, s => .next s
  | n + 1, ch, s => andThen (sample ch (pinLevel pins ch) now s) (passFrom pins now n (ch + 1))

/-- `PASS(pins, now)` (R190). -/
def pass (pins : Nat) (now : Nat) (s : State) : Outcome := passFrom pins now s.params.nCh 0 s

/-- Samples of one channel, each with its level and time, in order. -/
def samplesOf (ch : Nat) : List (Bool × Nat) → State → Outcome
  | [], s => .next s
  | x :: xs, s => andThen (sample ch x.1 x.2 s) (samplesOf ch xs)

end Sys2Proof.Machine
end

