-- ==== Sys2Proof/Safety.lean ====
section
/-! DEFINITION. The terms in which claims about runs are stated: the invariants of the state (10_state.md R30, R35), the transition
relations (40_frame_decoder.md R147, 42_debounce_sampler.md R205), and what an operation may change. -/

namespace Sys2Proof.Machine

/-! ### Invariants -/

/-- Every byte of a buffer below `n` has been written since the last reset. -/
def State.written (s : State) (sp : Space) (n : Nat) : Prop := ∀ a < n, ((s.fd.buffer sp).read a).isSome = true

/-- The exclusive-or of the type byte and the two length bytes (R22). -/
def leadXor (r : FdRegs) : Byte := r.typ ^^^ r.len.extractLsb' 8 8 ^^^ r.len.extractLsb' 0 8

/-- R30 (a) to (d), with R21 and R22: what the registers and buffers hold in each state. -/
def FdInv (s : State) : Prop :=
  match s.fd.state with
  | .idle | .discard => True
  | .sop => s.fd.csum = 0
  | .readLength =>
    s.fd.typ = Config.typeSig ∧
    ((s.fd.cnt = 0 ∧ s.fd.csum = s.fd.typ) ∨ (s.fd.cnt = 1 ∧ s.fd.csum = s.fd.typ ^^^ s.fd.len.extractLsb' 8 8))
  | .readHeader =>
    s.fd.typ = Config.typeSig ∧ s.fd.cnt.toNat < s.params.hdrSize ∧ s.params.hdrSize < s.fd.len.toNat ∧
    s.written .hdr s.fd.cnt.toNat ∧
    s.fd.csum = leadXor s.fd ^^^ xorBytes (s.readBytes .hdr 0 s.fd.cnt.toNat)
  | .readBody =>
    s.fd.typ = Config.typeSig ∧ s.fd.cnt.toNat < s.fd.bodyLen.toNat ∧ s.fd.cnt.toNat ≤ s.params.bodyCap ∧
    s.fd.len.toNat = s.params.hdrSize + s.fd.bodyLen.toNat + 1 ∧
    s.written .hdr s.params.hdrSize ∧ s.written .body s.fd.cnt.toNat ∧
    s.fd.csum = leadXor s.fd ^^^ xorBytes (s.readBytes .hdr 0 s.params.hdrSize) ^^^
      xorBytes (s.readBytes .body 0 s.fd.cnt.toNat)
  | .checksum | .eop =>
    s.fd.typ = Config.typeSig ∧ s.fd.bodyLen.toNat ≤ s.params.bodyCap ∧
    s.fd.len.toNat = s.params.hdrSize + s.fd.bodyLen.toNat + 1 ∧
    s.written .hdr s.params.hdrSize ∧ s.written .body s.fd.bodyLen.toNat ∧
    s.fd.csum = leadXor s.fd ^^^ xorBytes (s.readBytes .hdr 0 s.params.hdrSize) ^^^
      xorBytes (s.readBytes .body 0 s.fd.bodyLen.toNat)

/-- An open session began at or before the last `RX`, and was no older then than the watchdog's limit (R26, R131). -/
def SessionInv (s : State) : Prop :=
  s.fd.state ≠ .idle → ∃ l, s.fdNow = some l ∧ s.fd.tStart ≤ l ∧ elapsed s.fd.tStart l ≤ Config.wdogTicks

/-- A buffer is in canonical form and holds no address it does not have (R61, R62). -/
def BufferInv (s : State) (sp : Space) : Prop :=
  (s.fd.buffer sp).wf ∧ ∀ c ∈ s.fd.buffer sp, c.1 < spaceSize s.params sp

/-- `N_CH` channels, each in one of the five states (R35, R114), the deadline of a pending one armed at or before the last
`PASS` (R36), and a pass that stands at one of them. -/
def DisInv (s : State) : Prop :=
  s.dis.channels.length = s.params.nCh ∧ (∀ c ∈ s.dis.channels, c.state.isInvalid = false) ∧
  (∀ c ∈ s.dis.channels, isPending c.state = true →
    ∃ l, s.disNow = some l ∧ s.params.holdTicks ≤ c.deadline ∧ armedAt s.params c ≤ l) ∧
  s.passCh < s.params.nCh

/-- The invariant of the machine. -/
structure Inv (s : State) : Prop where
  params : s.params.wf = true
  fd : FdInv s
  session : SessionInv s
  hdr : BufferInv s .hdr
  body : BufferInv s .body
  dis : DisInv s

/-! ### What an operation may change -/

/-- Nothing but the frame decoder's registers, buffers and events. -/
def FdOnly (s t : State) : Prop := t = { s with fd := t.fd, fdOut := t.fdOut }

/-- Nothing but the sampler's registers and events. -/
def DisOnly (s t : State) : Prop := t = { s with dis := t.dis, edges := t.edges }

/-- Every byte of both buffers reads as before. -/
def BuffersSame (s t : State) : Prop := ∀ sp a, t.readByte sp a = s.readByte sp a

/-- Every byte of both buffers but the one at `addr` of `sp` reads as before. -/
def BuffersSameBut (sp : Space) (addr : Nat) (s t : State) : Prop :=
  ∀ sp' a, (sp' = sp ∧ a = addr) ∨ t.readByte sp' a = s.readByte sp' a

/-- The next byte is `b`, at a time `now` that the premise on time admits: not before the last byte's, and less than 2^31
ticks after the `SOP` of the session, if one is open (R14, R50). -/
def Receives (s : State) (b : Byte) (now : Nat) (rest : List InEvent) : Prop :=
  s.inputs = .rx b now :: rest ∧ timeOk s.fdNow now = true ∧ sessionWithin s.fd now = true

/-- No more than 500 ticks have passed since the session's start marker (R131 (c)). -/
def InTime (s : State) (now : Nat) : Prop := now ≤ s.fd.tStart + 500

/-- The next sample is of channel `ch`, in the state `st`, under the condition `{asserted, expired}` = `{a, e}`, at a time
the premise on time admits: not before the last pass's, and less than 2^31 ticks after the arming of a pending channel (R14,
R53, R107). -/
def Samples (s : State) (ch : Nat) (st : DbState) (a e : Bool) (now : Nat) : Prop :=
  s.passCh = ch ∧ timeOk s.disNow now = true ∧
  ∃ pins rest d, s.inputs = .pass pins now :: rest ∧ s.dis.channels[ch]? = some { state := st, deadline := d } ∧
    (pinLevel pins ch = s.params.assertedLevel ↔ a = true) ∧ (d ≤ now ↔ e = true) ∧
    deadlineWithin s.params { state := st, deadline := d } now = true

/-- The state with the channel `ch` holding `c`, and nothing else changed. -/
def State.withChannel (s : State) (ch : Nat) (c : Channel) : State :=
  { s with dis := { s.dis with channels := s.dis.channels.set ch c } }

/-- The instruction is one of the frame decoder's: its sixteen operations and its three host operations. -/
def ofFd : Instr → Bool
  | .fdWdog _ _ | .fdIdleSop _ | .fdIdleSkip _ | .fdSopType | .fdSopBadtype _ | .fdLenHi _ | .fdLenLo _ => true
  | .fdHdrByte _ | .fdBodyByte _ | .fdBodyOvf _ | .fdDiscardDrop _ | .fdDiscardSop _ | .fdCsumOk _ => true
  | .fdCsumBad _ | .fdEopOk | .fdEopBad _ | .hostResetFd | .fdSetConsumer _ | .fdReadState => true
  | .dbInitA _ _ _ | .dbInitD _ _ _ | .dbPaBounce _ _ | .dbPaConfirm _ | .dbPaWait _ | .dbActStay _ _ => false
  | .dbActLeave _ _ _ | .dbPiBounce _ _ | .dbPiConfirm _ | .dbPiWait _ | .dbInaStay _ _ | .dbInaLeave _ _ _ => false
  | .dbInvalid _ _ _ _ | .hostResetDis | .disSetConsumer _ | .disRead _ => false

/-- The instruction is the watchdog's. -/
def isWatchdog : Instr → Bool
  | .fdWdog _ _ => true
  | .fdIdleSop _ | .fdIdleSkip _ | .fdSopType | .fdSopBadtype _ | .fdLenHi _ | .fdLenLo _ => false
  | .fdHdrByte _ | .fdBodyByte _ | .fdBodyOvf _ | .fdDiscardDrop _ | .fdDiscardSop _ | .fdCsumOk _ => false
  | .fdCsumBad _ | .fdEopOk | .fdEopBad _ | .hostResetFd | .fdSetConsumer _ | .fdReadState => false
  | .dbInitA _ _ _ | .dbInitD _ _ _ | .dbPaBounce _ _ | .dbPaConfirm _ | .dbPaWait _ | .dbActStay _ _ => false
  | .dbActLeave _ _ _ | .dbPiBounce _ _ | .dbPiConfirm _ | .dbPiWait _ | .dbInaStay _ _ | .dbInaLeave _ _ _ => false
  | .dbInvalid _ _ _ _ | .hostResetDis | .disSetConsumer _ | .disRead _ => false

/-- The host operation that an event asks for (R118); none for a byte or a pass. -/
def hostOp : InEvent → Option Instr
  | .rx _ _ | .pass _ _ => none
  | .resetFd => some .hostResetFd
  | .resetDis => some .hostResetDis
  | .setConsumerFd v => some (.fdSetConsumer v)
  | .setConsumerDis v => some (.disSetConsumer v)
  | .read ch => some (.disRead ch)
  | .readState => some .fdReadState

/-- The instruction is the sampler's operation on channel `ch`. -/
def onChannel (ch : Nat) : Instr → Bool
  | .dbInitA k _ _ | .dbInitD k _ _ | .dbPaBounce k _ | .dbPaConfirm k | .dbPaWait k | .dbActStay k _ => k == ch
  | .dbActLeave k _ _ | .dbPiBounce k _ | .dbPiConfirm k | .dbPiWait k | .dbInaStay k _ | .dbInaLeave k _ _ => k == ch
  | .dbInvalid k _ _ _ => k == ch
  | .fdWdog _ _ | .fdIdleSop _ | .fdIdleSkip _ | .fdSopType | .fdSopBadtype _ | .fdLenHi _ | .fdLenLo _ => false
  | .fdHdrByte _ | .fdBodyByte _ | .fdBodyOvf _ | .fdDiscardDrop _ | .fdDiscardSop _ | .fdCsumOk _ => false
  | .fdCsumBad _ | .fdEopOk | .fdEopBad _ | .hostResetFd | .hostResetDis | .fdSetConsumer _ => false
  | .disSetConsumer _ | .disRead _ | .fdReadState => false

/-! ### The transition relations -/

/-- The table of R147 (the rows of an `RX`, with the byte and time of that `RX`): `fd_state` may go from the registers `r`
to `nxt` in one operation. -/
def FdRow (p : Params) (r : FdRegs) (b : Byte) (now : Nat) (nxt : FdState) : Prop :=
  if r.state ≠ .idle ∧ r.tStart + 500 < now then nxt = .idle
  else
    match r.state with
    | .idle => nxt = if b = 0x1B then .sop else .idle
    | .sop => nxt = if b = 0x53 then .readLength else .idle
    | .readLength =>
      (r.cnt = 0 ∧ nxt = .readLength) ∨
      (r.cnt = 1 ∧ nxt = if (r.len.extractLsb' 8 8).toNat * 256 + b.toNat > p.hdrSize then .readHeader else .idle)
    | .readHeader =>
      (r.cnt.toNat + 1 < p.hdrSize ∧ nxt = .readHeader) ∨
      (r.cnt.toNat + 1 = p.hdrSize ∧ r.len.toNat - p.hdrSize - 1 > 0 ∧ nxt = .readBody) ∨
      (r.cnt.toNat + 1 = p.hdrSize ∧ r.len.toNat - p.hdrSize - 1 = 0 ∧ nxt = .checksum)
    | .readBody =>
      (r.cnt.toNat < p.bodyCap ∧ r.cnt.toNat + 1 < r.bodyLen.toNat ∧ nxt = .readBody) ∨
      (r.cnt.toNat < p.bodyCap ∧ r.cnt.toNat + 1 = r.bodyLen.toNat ∧ nxt = .checksum) ∨
      (r.cnt.toNat ≥ p.bodyCap ∧ nxt = .discard)
    | .discard => nxt = if b = 0x1B ∧ p.discardResync = true then .sop else .discard
    | .checksum => nxt = if b = r.csum then .eop else .idle
    | .eop => nxt = .idle

/-- The table of R205: what a sample under `{asserted, expired}` = `{a, e}` does in each state of a channel: the next state,
whether the deadline is armed, and the event, if any. -/
def dbRow (st : DbState) (a e : Bool) : DbState × Bool × Option Bool :=
  match st with
  | .init => if a then (.pendingActive, true, none) else (.pendingInactive, true, none)
  | .pendingActive => if a then (if e then (.active, false, some true) else (.pendingActive, false, none)) else (.inactive, false, none)
  | .active => if a then (.active, false, none) else (.pendingInactive, true, none)
  | .pendingInactive => if a then (.active, false, none) else (if e then (.inactive, false, some false) else (.pendingInactive, false, none))
  | .inactive => if a then (.pendingActive, true, none) else (.inactive, false, none)
  | .invalid5 | .invalid6 | .invalid7 => (.init, false, none)

/-! ### The events of one channel -/

/-- The events of channel `ch`, oldest first. -/
def edgesOf (ch : Nat) (s : State) : List Bool := (s.edges.filter (fun e => e.ch == ch)).map (·.isActive)

/-- The state belongs to the side of the last confirmed level `v` (R206): active and tentatively leaving it, or inactive and
tentatively leaving it. -/
def onSide (st : DbState) (v : Bool) : Prop :=
  if v then st = .active ∨ st = .pendingInactive else st = .inactive ∨ st = .pendingActive

/-- The events of channel `ch` alternate, and the channel stands on the side of the last of them (R206). -/
def Alternates (ch : Nat) (s : State) : Prop :=
  (edgesOf ch s).IsChain (· ≠ ·) ∧
  ∀ v, (edgesOf ch s).getLast? = some v → ∃ c, s.dis.channels[ch]? = some c ∧ onSide c.state v

end Sys2Proof.Machine
end

