-- ==== Sys2Proof/Certificates/Slice0/Obligations.lean ====
section
/-! DEFINITION. The statements for the provers. Each docstring names the rule of spec/ it formalises, and the decision, inference
or log entry it rests on where the rule is not the source's plain word. A statement about one operation says when the fetch
selects it and gives the whole next state, so that what it does not name is unchanged. -/

open Sys2Proof Sys2Proof.Machine

/-! ### Reset, fetching and decoding -/

/-- 10_state.md R45 with R280 and R281 (decision D27 for the zeros; `HDR_SIZE` and the options by R6, R9, R10): the registers
of both blocks after reset. -/
def Obligations.ResetValues : Prop :=
  State.reset.fd.state = .idle ∧ State.reset.fd.typ = 0 ∧ State.reset.fd.csum = 0 ∧ State.reset.fd.len = 0 ∧
  State.reset.fd.cnt = 0 ∧ State.reset.fd.bodyLen = 0 ∧ State.reset.fd.tStart = 0 ∧
  State.reset.fd.consumerEn = false ∧ State.reset.dis.consumerEn = false ∧
  State.reset.dis.channels.length = State.reset.params.nCh ∧
  (∀ c ∈ State.reset.dis.channels, c.state = .init ∧ c.deadline = 0) ∧
  State.reset.params.hdrSize = 15 ∧ State.reset.params.assertedLevel = false ∧
  State.reset.params.readPiAsActive = true ∧ State.reset.params.discardResync = true ∧
  State.reset.params.sampleBe = true

/-- 40_frame_decoder.md R130 (decision D5) in the model's steps (log 1): where the byte at the head of the input decodes to an
instruction, that instruction is well-formed and the step is it; afterwards the byte is used up, but for the watchdog's
operation, after which the byte stays to be dispatched in `idle`. -/
def Obligations.StepRunsDecodedByte : Prop :=
  ∀ (s : State) (b : Byte) (now : Nat) (rest : List InEvent) (i : Instr), Receives s b now rest →
    decode (.rx (rxSelector s b now) now) = .instr i →
    fetch s = .run i ∧ i.wellFormed = true ∧
    step s = andThen (exec i s) (fun t =>
      .next { t with fdNow := some now, inputs := if isWatchdog i then .rx b now :: rest else rest })

/-- 42_debounce_sampler.md R190 and R191 in the model's steps (log 1): where a pass stands at a channel that exists, at a time that
the premise of 00_scope.md R14 admits for it (log 12), the sample
decodes to a well-formed instruction and the step is it; afterwards the pass goes on with the next channel, or is over after the
last. -/
def Obligations.StepRunsDecodedSample : Prop :=
  ∀ (s : State) (pins : Nat) (now : Nat) (rest : List InEvent) (c : Channel), s.inputs = .pass pins now :: rest →
    timeOk s.disNow now = true → s.dis.channels[s.passCh]? = some c → deadlineWithin s.params c now = true →
    ∃ i, decode (.sample (sampleSelector s.params c (pinLevel pins s.passCh) now) s.passCh now) = .instr i ∧
      fetch s = .run i ∧ i.wellFormed = true ∧
      step s = andThen (exec i s) (fun t => .next
        (if s.passCh + 1 < s.params.nCh then { t with disNow := some now, passCh := s.passCh + 1 }
         else { t with disNow := some now, passCh := 0, inputs := rest }))

/-- 43_host_operations.md R220 to R225, 60_exceptions.md R262 (log 2): a host operation is performed as it is and used up, and
with nothing presented the machine holds its state. -/
def Obligations.StepRunsHostOperation : Prop :=
  ∀ (s : State),
    (∀ (e : InEvent) (i : Instr) (rest : List InEvent), s.inputs = e :: rest → hostOp e = some i →
      fetch s = .run i ∧ step s = andThen (exec i s) (fun t => .next { t with inputs := rest })) ∧
    (s.inputs = [] → step s = .next s)

/-- 30_encoding.md R110, R111 and R120: words written out from the table's rows decode to their operations, and words that no row
takes are refused. Bits above the table's are the model's (log 9). -/
def Obligations.TableWordsDecode : Prop :=
  decodeTableWord 16 0x001B = some (.fdIdleSop 0) ∧ decodeTableWord 16 0x000A = some (.fdIdleSkip 0x0A) ∧
  decodeTableWord 16 0x0153 = some .fdSopType ∧ decodeTableWord 16 0x0200 = some (.fdLenHi 0x00) ∧
  decodeTableWord 16 0x0318 = some (.fdHdrByte 0x18) ∧ decodeTableWord 16 0x071B = some (.fdDiscardSop 0) ∧
  decodeTableWord 16 0x060A = some .fdEopOk ∧ decodeTableWord 16 0x060B = some (.fdEopBad 0x0B) ∧
  decodeTableWord 8 0b00010 = some (.dbInitA 0 0 false) ∧ decodeTableWord 8 0b00111 = some (.dbPaConfirm 0) ∧
  decodeTableWord 8 0b01101 = some (.dbPiConfirm 0) ∧ decodeTableWord 8 0b11011 = some (.dbInvalid 0 .invalid6 true true) ∧
  decodeTableWord 16 0x8000 = none ∧ decodeTableWord 16 0x0800 = none ∧ decodeTableWord 8 0b100000 = none

/-- 30_encoding.md R110, R111 and R120, with the model's bits (log 9): decoding what the encoder gives for a well-formed
instruction gives the instruction back, and the host operations are the ones with no encoding. -/
def Obligations.DecodeOfEncode : Prop :=
  ∀ i : Instr, i.wellFormed = true →
    (∀ f, encode i = some f → decode f = .instr i) ∧
    (encode i = none ↔ i = .hostResetFd ∨ i = .hostResetDis ∨ (∃ v, i = .fdSetConsumer v) ∨
      (∃ v, i = .disSetConsumer v) ∨ (∃ ch, i = .disRead ch) ∨ i = .fdReadState)

/-- 30_encoding.md R110, R111 and R120, with the model's bits (log 9): what the decoder accepts is a well-formed instruction
whose encoding has the same selector, so that no two selectors are one instruction. -/
def Obligations.EncodeOfDecode : Prop :=
  (∀ (sel : BitVec 16) (now : Nat) (i : Instr), decode (.rx sel now) = .instr i →
    i.wellFormed = true ∧ ∃ now', encode i = some (.rx sel now')) ∧
  (∀ (sel : BitVec 8) (ch : Nat) (now : Nat) (i : Instr), decode (.sample sel ch now) = .instr i →
    i.wellFormed = true ∧ ∃ now', encode i = some (.sample sel ch now'))

/-- The model's placing of a table word (log 2): from reset, the very next step fetches the instruction of the word and goes
on. -/
def Obligations.TableWordRunsFirst : Prop :=
  ∀ (nbits w : Nat) (i : Instr), decodeTableWord nbits w = some i →
    fetch (State.reset.withFetchWord nbits w) = .run i ∧ ∃ t, step (State.reset.withFetchWord nbits w) = .next t

/-! ### The operations of the frame decoder -/

/-- 40_frame_decoder.md R132. -/
def Obligations.IdleSkipsOtherBytes : Prop :=
  ∀ (s : State) (b : Byte) (now : Nat) (rest : List InEvent), s.fdInit = true → Receives s b now rest →
    s.fd.state = .idle → b ≠ 0x1B →
    fetch s = .run (.fdIdleSkip b) ∧ exec (.fdIdleSkip b) s = .next s

/-- 40_frame_decoder.md R133. -/
def Obligations.IdleStartMarkerOpensSession : Prop :=
  ∀ (s : State) (now : Nat) (rest : List InEvent), s.fdInit = true → Receives s 0x1B now rest → s.fd.state = .idle →
    fetch s = .run (.fdIdleSop now) ∧
    exec (.fdIdleSop now) s = .next { s with fd := { s.fd with csum := 0x00, tStart := now, state := .sop } }

/-- 40_frame_decoder.md R134. -/
def Obligations.TypeByteAccepted : Prop :=
  ∀ (s : State) (now : Nat) (rest : List InEvent), s.fdInit = true → Receives s 0x53 now rest → s.fd.state = .sop →
    InTime s now →
    fetch s = .run .fdSopType ∧
    exec .fdSopType s = .next { s with
      fd := { s.fd with typ := 0x53, csum := s.fd.csum ^^^ 0x53, cnt := 0, state := .readLength } } ∧
    (s.fd.csum = 0x00 → s.fd.csum ^^^ 0x53 = (0x53 : Byte))

/-- 40_frame_decoder.md R136. -/
def Obligations.LengthHighByte : Prop :=
  ∀ (s : State) (b : Byte) (now : Nat) (rest : List InEvent), s.fdInit = true → Receives s b now rest →
    s.fd.state = .readLength → s.fd.cnt = 0 → InTime s now →
    fetch s = .run (.fdLenHi b) ∧
    exec (.fdLenHi b) s = .next { s with
      fd := { s.fd with len := BitVec.ofNat 16 (b.toNat * 256 + s.fd.len.toNat % 256), csum := s.fd.csum ^^^ b, cnt := 1 } }

/-- 40_frame_decoder.md R137 (decision D17 for the diagnostic of the abort): the declared length is complete and must exceed the
header size. -/
def Obligations.LengthLowByte : Prop :=
  ∀ (s : State) (b : Byte) (now : Nat) (rest : List InEvent) (len : Nat), s.fdInit = true → Receives s b now rest →
    s.fd.state = .readLength → s.fd.cnt = 1 → InTime s now → len = s.fd.len.toNat / 256 * 256 + b.toNat →
    fetch s = .run (.fdLenLo b) ∧
    (s.params.hdrSize < len → exec (.fdLenLo b) s = .next { s with
      fd := { s.fd with len := BitVec.ofNat 16 len, csum := s.fd.csum ^^^ b, cnt := 0, state := .readHeader } }) ∧
    (len ≤ s.params.hdrSize → exec (.fdLenLo b) s = .next { s with
      fd := { s.fd with len := BitVec.ofNat 16 len, csum := s.fd.csum ^^^ b, state := .idle },
      fdOut := s.fdOut ++ [.diag .lenTooSmall] })

/-- 40_frame_decoder.md R138 (decision D7 for the empty body), in the states of 10_state.md R30 (b): the byte is stored at
`hdr[fd_cnt]` and nowhere else; the last header byte fixes the body length. -/
def Obligations.HeaderByteStored : Prop :=
  ∀ (s : State) (b : Byte) (now : Nat) (rest : List InEvent), s.fdInit = true → Receives s b now rest →
    s.fd.state = .readHeader → InTime s now → s.fd.cnt.toNat < s.params.hdrSize → s.params.hdrSize < s.fd.len.toNat →
    fetch s = .run (.fdHdrByte b) ∧
    ∃ t, exec (.fdHdrByte b) s = .next t ∧
      t.readByte .hdr s.fd.cnt.toNat = b ∧ BuffersSameBut .hdr s.fd.cnt.toNat s t ∧
      (s.fd.cnt.toNat + 1 < s.params.hdrSize → t = { s with
        fd := { s.fd with hdr := t.fd.hdr, csum := s.fd.csum ^^^ b, cnt := s.fd.cnt + 1 } }) ∧
      (s.fd.cnt.toNat + 1 = s.params.hdrSize → t = { s with
        fd := { s.fd with
          hdr := t.fd.hdr, csum := s.fd.csum ^^^ b, cnt := 0,
          bodyLen := BitVec.ofNat 16 (s.fd.len.toNat - s.params.hdrSize - 1),
          state := if s.fd.len.toNat - s.params.hdrSize - 1 = 0 then .checksum else .readBody } })

/-- 40_frame_decoder.md R139: the byte is stored at `body[fd_cnt]` and nowhere else. -/
def Obligations.BodyByteStored : Prop :=
  ∀ (s : State) (b : Byte) (now : Nat) (rest : List InEvent), s.fdInit = true → Receives s b now rest →
    s.fd.state = .readBody → InTime s now → s.fd.cnt.toNat < s.params.bodyCap →
    fetch s = .run (.fdBodyByte b) ∧
    ∃ t, exec (.fdBodyByte b) s = .next t ∧
      t.readByte .body s.fd.cnt.toNat = b ∧ BuffersSameBut .body s.fd.cnt.toNat s t ∧
      t = { s with
        fd := { s.fd with
          body := t.fd.body, csum := s.fd.csum ^^^ b, cnt := s.fd.cnt + 1,
          state := if s.fd.cnt.toNat + 1 = s.fd.bodyLen.toNat then .checksum else .readBody } }

/-- 40_frame_decoder.md R140 (decision D8): the first body byte that has no room is dropped and the frame is lost. -/
def Obligations.BodyOverflowGoesToDiscard : Prop :=
  ∀ (s : State) (b : Byte) (now : Nat) (rest : List InEvent), s.fdInit = true → Receives s b now rest →
    s.fd.state = .readBody → InTime s now → s.params.bodyCap ≤ s.fd.cnt.toNat →
    fetch s = .run (.fdBodyOvf b) ∧
    exec (.fdBodyOvf b) s =
      .next { s with fd := { s.fd with state := .discard }, fdOut := s.fdOut ++ [.diag .bodyOverflow] }

/-- 40_frame_decoder.md R141 and R142 (decision D9, conflict C2): `discard` drops every byte but, where `DISCARD_RESYNC` holds, a
start marker, which opens a session as in `idle`. -/
def Obligations.DiscardDropsUntilStartMarker : Prop :=
  ∀ (s : State) (b : Byte) (now : Nat) (rest : List InEvent), s.fdInit = true → Receives s b now rest →
    s.fd.state = .discard → InTime s now →
    (b ≠ 0x1B ∨ s.params.discardResync = false →
      fetch s = .run (.fdDiscardDrop b) ∧ exec (.fdDiscardDrop b) s = .next s) ∧
    (b = 0x1B ∧ s.params.discardResync = true →
      fetch s = .run (.fdDiscardSop now) ∧
      exec (.fdDiscardSop now) s = .next { s with fd := { s.fd with csum := 0x00, tStart := now, state := .sop } })

/-- 40_frame_decoder.md R143. -/
def Obligations.MatchingChecksumAccepted : Prop :=
  ∀ (s : State) (b : Byte) (now : Nat) (rest : List InEvent), s.fdInit = true → Receives s b now rest →
    s.fd.state = .checksum → InTime s now → b = s.fd.csum →
    fetch s = .run (.fdCsumOk b) ∧ exec (.fdCsumOk b) s = .next { s with fd := { s.fd with state := .eop } }

/-- 40_frame_decoder.md R145 and R152 (decisions D18, D19), in the states of 10_state.md R30 (d): the frame of the buffered bytes is
delivered where a consumer is registered, dropped where none is; the state returns to `idle`. -/
def Obligations.EndMarkerDelivers : Prop :=
  ∀ (s : State) (now : Nat) (rest : List InEvent) (h body : List Byte), s.fdInit = true → Receives s 0x0A now rest →
    s.fd.state = .eop → InTime s now → s.fd.bodyLen.toNat ≤ s.params.bodyCap →
    h.length = s.params.hdrSize → (∀ k < h.length, h[k]? = some (s.readByte .hdr k)) →
    body.length = s.fd.bodyLen.toNat → (∀ k < body.length, body[k]? = some (s.readByte .body k)) →
    fetch s = .run .fdEopOk ∧
    exec .fdEopOk s = .next { s with
      fd := { s.fd with state := .idle },
      fdOut := s.fdOut ++ (if s.fd.consumerEn then
        [.frame { typ := s.fd.typ, len := s.fd.len, hdrBytes := h, bodyBytes := body, bodyLen := s.fd.bodyLen,
                  info := unpack s.params h body s.fd.bodyLen }] else []) }

/-- 40_frame_decoder.md R135, R144 and R146 (decisions D5, D6, D17; conflict C5): the byte that is no type, no matching checksum, no
end marker is used up by the rejection. -/
def Obligations.WrongByteRejects : Prop :=
  ∀ (s : State) (b : Byte) (now : Nat) (rest : List InEvent), s.fdInit = true → Receives s b now rest → InTime s now →
    (s.fd.state = .sop → b ≠ 0x53 → fetch s = .run (.fdSopBadtype b) ∧
      exec (.fdSopBadtype b) s =
        .next { s with fd := { s.fd with state := .idle }, fdOut := s.fdOut ++ [.diag .badType] }) ∧
    (s.fd.state = .checksum → b ≠ s.fd.csum → fetch s = .run (.fdCsumBad b) ∧
      exec (.fdCsumBad b) s =
        .next { s with fd := { s.fd with state := .idle }, fdOut := s.fdOut ++ [.diag .csumMismatch] }) ∧
    (s.fd.state = .eop → b ≠ 0x0A → fetch s = .run (.fdEopBad b) ∧
      exec (.fdEopBad b) s =
        .next { s with fd := { s.fd with state := .idle }, fdOut := s.fdOut ++ [.diag .badEop] })

/-- 40_frame_decoder.md R131 and 60_exceptions.md R247 (decisions D3, D4, D17; log 1): the watchdog's operation is the next one
exactly where a session is open and more than 500 ticks have passed since its start marker; it abandons the session and leaves the
byte to be dispatched in `idle`. -/
def Obligations.WatchdogAbandonsSession : Prop :=
  ∀ (s : State) (b : Byte) (now : Nat) (rest : List InEvent), s.fdInit = true → Receives s b now rest →
    ((∃ st b', fetch s = .run (.fdWdog st b')) ↔ s.fd.state ≠ .idle ∧ s.fd.tStart + 500 < now) ∧
    (s.fd.state ≠ .idle → s.fd.tStart + 500 < now →
      fetch s = .run (.fdWdog s.fd.state b) ∧
      exec (.fdWdog s.fd.state b) s =
        .next { s with fd := { s.fd with state := .idle }, fdOut := s.fdOut ++ [.diag .watchdog] } ∧
      step s = .next { s with
        fd := { s.fd with state := .idle }, fdOut := s.fdOut ++ [.diag .watchdog], fdNow := some now })

/-! ### The operations of a debounce channel -/

/-- 42_debounce_sampler.md R192, R193, R198 and R203: the four operations that arm the deadline one hold time ahead. -/
def Obligations.LeavingSampleArms : Prop :=
  ∀ (s : State) (ch : Nat) (now : Nat) (a e : Bool) (st : DbState), s.disInit = true → Samples s ch st a e now →
    (st = .init → a = true → fetch s = .run (.dbInitA ch now e) ∧
      exec (.dbInitA ch now e) s = .next (s.withChannel ch
        { state := .pendingActive, deadline := now + s.params.holdTicks })) ∧
    (st = .init → a = false → fetch s = .run (.dbInitD ch now e) ∧
      exec (.dbInitD ch now e) s = .next (s.withChannel ch
        { state := .pendingInactive, deadline := now + s.params.holdTicks })) ∧
    (st = .active → a = false → fetch s = .run (.dbActLeave ch now e) ∧
      exec (.dbActLeave ch now e) s = .next (s.withChannel ch
        { state := .pendingInactive, deadline := now + s.params.holdTicks })) ∧
    (st = .inactive → a = true → fetch s = .run (.dbInaLeave ch now e) ∧
      exec (.dbInaLeave ch now e) s = .next (s.withChannel ch
        { state := .pendingActive, deadline := now + s.params.holdTicks }))

/-- 42_debounce_sampler.md R197 and R202: a confirmed channel whose level stays is left alone. -/
def Obligations.ConfirmedLevelStays : Prop :=
  ∀ (s : State) (ch : Nat) (now : Nat) (a e : Bool) (st : DbState), s.disInit = true → Samples s ch st a e now →
    (st = .active → a = true → fetch s = .run (.dbActStay ch e) ∧ exec (.dbActStay ch e) s = .next s) ∧
    (st = .inactive → a = false → fetch s = .run (.dbInaStay ch e) ∧ exec (.dbInaStay ch e) s = .next s)

/-- 42_debounce_sampler.md R196 and R201 (derived in the spec; decision D21 for `expired`): a pending channel waits while its level
holds and its deadline is not reached. -/
def Obligations.PendingLevelWaits : Prop :=
  ∀ (s : State) (ch : Nat) (now : Nat) (a e : Bool) (st : DbState), s.disInit = true → Samples s ch st a e now → e = false →
    (st = .pendingActive → a = true → fetch s = .run (.dbPaWait ch) ∧ exec (.dbPaWait ch) s = .next s) ∧
    (st = .pendingInactive → a = false → fetch s = .run (.dbPiWait ch) ∧ exec (.dbPiWait ch) s = .next s)

/-- 42_debounce_sampler.md R194 and R199 (decisions D21, D22: the level is looked at before the deadline): a pending channel whose
level reverts goes back, with no event and whether or not its deadline is reached. -/
def Obligations.RevertedLevelIsBounce : Prop :=
  ∀ (s : State) (ch : Nat) (now : Nat) (a e : Bool) (st : DbState) (d : Nat), s.disInit = true →
    Samples s ch st a e now → s.dis.channels[ch]? = some { state := st, deadline := d } →
    (st = .pendingActive → a = false → fetch s = .run (.dbPaBounce ch e) ∧
      exec (.dbPaBounce ch e) s = .next (s.withChannel ch { state := .inactive, deadline := d })) ∧
    (st = .pendingInactive → a = true → fetch s = .run (.dbPiBounce ch e) ∧
      exec (.dbPiBounce ch e) s = .next (s.withChannel ch { state := .active, deadline := d }))

/-- 42_debounce_sampler.md R195 and R200, with R207 (decisions D21, D26): a pending channel whose level holds until its deadline is
confirmed, and its event goes to the consumer, if one is registered. -/
def Obligations.HeldLevelIsConfirmed : Prop :=
  ∀ (s : State) (ch : Nat) (now : Nat) (a e : Bool) (st : DbState) (d : Nat), s.disInit = true →
    Samples s ch st a e now → s.dis.channels[ch]? = some { state := st, deadline := d } → e = true →
    (st = .pendingActive → a = true → fetch s = .run (.dbPaConfirm ch) ∧
      exec (.dbPaConfirm ch) s = .next { s.withChannel ch { state := .active, deadline := d } with
        edges := s.edges ++ (if s.dis.consumerEn then [{ ch := ch, isActive := true }] else []) }) ∧
    (st = .pendingInactive → a = false → fetch s = .run (.dbPiConfirm ch) ∧
      exec (.dbPiConfirm ch) s = .next { s.withChannel ch { state := .inactive, deadline := d } with
        edges := s.edges ++ (if s.dis.consumerEn then [{ ch := ch, isActive := false }] else []) })

/-- 42_debounce_sampler.md R204 and 30_encoding.md R114 (decision D22): a channel found with one of the codes 5, 6, 7 is put back to
`init`; the sample is used up. -/
def Obligations.InvalidCodeIsRepaired : Prop :=
  ∀ (s : State) (ch : Nat) (now : Nat) (a e : Bool) (st : DbState) (d : Nat), s.disInit = true →
    Samples s ch st a e now → s.dis.channels[ch]? = some { state := st, deadline := d } → 5 ≤ st.code.toNat →
    fetch s = .run (.dbInvalid ch st a e) ∧
    exec (.dbInvalid ch st a e) s = .next (s.withChannel ch { state := .init, deadline := d })

/-! ### The host operations -/

/-- 43_host_operations.md R220 and 70_reset_and_hazards.md R282 (decision D27): resetting the frame decoder; the sampler and the
events are left alone. The contents of the buffers are not said (log 7). -/
def Obligations.ResetFrameDecoder : Prop :=
  ∀ s : State, ∃ t, exec .hostResetFd s = .next t ∧
    t.fd.state = .idle ∧ t.fd.typ = 0 ∧ t.fd.csum = 0 ∧ t.fd.len = 0 ∧ t.fd.cnt = 0 ∧ t.fd.bodyLen = 0 ∧
    t.fd.tStart = 0 ∧ t.fd.consumerEn = false ∧ t = { s with fd := t.fd, fdInit := true, bufEpoch := t.bufEpoch }

/-- 43_host_operations.md R221 and 70_reset_and_hazards.md R282 (decision D27): resetting the sampler; the frame decoder is left
alone and no event is emitted. -/
def Obligations.ResetSampler : Prop :=
  ∀ s : State, ∃ t, exec .hostResetDis s = .next t ∧ t.dis.channels.length = s.params.nCh ∧
    (∀ c ∈ t.dis.channels, c.state = .init ∧ c.deadline = 0) ∧ t.dis.consumerEn = false ∧
    t = { s with dis := t.dis, disInit := true }

/-- 43_host_operations.md R222 and R223. -/
def Obligations.SetConsumers : Prop :=
  ∀ (s : State) (present : Bool),
    (s.fdInit = true →
      exec (.fdSetConsumer present) s = .next { s with fd := { s.fd with consumerEn := present } }) ∧
    (s.disInit = true →
      exec (.disSetConsumer present) s = .next { s with dis := { s.dis with consumerEn := present } })

/-- 43_host_operations.md R224 with 42_debounce_sampler.md R209 (decisions D25, U10): the snapshot read changes no register. -/
def Obligations.SnapshotRead : Prop :=
  ∀ (s : State) (ch : Nat), s.disInit = true →
    (s.params.nCh ≤ ch →
      exec (.disRead ch) s = .next { s with results := s.results ++ [.channel true false] }) ∧
    (∀ c, ch < s.params.nCh → s.dis.channels[ch]? = some c →
      ∃ v, exec (.disRead ch) s = .next { s with results := s.results ++ [.channel false v] } ∧
        (v = true ↔ c.state = .active ∨ (c.state = .pendingInactive ∧ s.params.readPiAsActive = true)))

/-- 43_host_operations.md R225 (decision D1), with the codes of 30_encoding.md R108 (decision D20). -/
def Obligations.ReadDecoderState : Prop :=
  ∀ (s : State), s.fdInit = true →
    ∃ c, exec .fdReadState s = .next { s with results := s.results ++ [.fdState c] } ∧
      c.toNat = (match s.fd.state with
        | .idle => 0 | .sop => 1 | .readLength => 2 | .readHeader => 3
        | .readBody => 4 | .checksum => 5 | .eop => 6 | .discard => 7)

/-! ### Where the machine stops -/

/-- 43_host_operations.md R226 and 70_reset_and_hazards.md R286 (decision D29; log 14): before a block's first reset every operation
of the block but its reset is refused. -/
def Obligations.RefusedBeforeReset : Prop :=
  ∀ (i : Instr) (s : State),
    (s.fdInit = false → ofFd i = true → i ≠ .hostResetFd → exec i s = .refused (.beforeReset .fd)) ∧
    (s.disInit = false → ofFd i = false → i ≠ .hostResetDis → exec i s = .refused (.beforeReset .dis))

/-- 00_scope.md R14 with 70_reset_and_hazards.md R290 and 93_implementation_defined.md U7 (decisions D3, D32; log 12): a time is
refused exactly where it goes back against the last one of the same block, or where it is 2^31 ticks or more after the instant that a
rule compares it with, the start marker of an open session or the arming of a pending channel. Any later time is taken in `idle` and
by a channel that is not pending. -/
def Obligations.DecreasingTimeRefused : Prop :=
  ∀ (s : State) (now : Nat) (rest : List InEvent),
    (∀ b, s.inputs = .rx b now :: rest →
      (step s = .refused (.timeGoesBack .fd) ↔ ∃ last, s.fdNow = some last ∧ now < last) ∧
      (step s = .refused (.timeTooFar .fd) ↔ (∀ last, s.fdNow = some last → last ≤ now) ∧
        s.fd.state ≠ .idle ∧ s.fd.tStart + 2147483648 ≤ now)) ∧
    (∀ pins c, s.inputs = .pass pins now :: rest → s.dis.channels[s.passCh]? = some c →
      (step s = .refused (.timeGoesBack .dis) ↔ ∃ last, s.disNow = some last ∧ now < last) ∧
      (step s = .refused (.timeTooFar .dis) ↔ (∀ last, s.disNow = some last → last ≤ now) ∧
        (c.state = .pendingActive ∨ c.state = .pendingInactive) ∧
        c.deadline - s.params.holdTicks + 2147483648 ≤ now))

/-- The model's stops in states that 10_state.md R30 and R35 exclude (log 10, 11): an address or a channel that does not exist, and
a length counter that no row takes. -/
def Obligations.ExcludedStatesStop : Prop :=
  ∀ (s : State),
    (∀ b, s.fdInit = true → s.params.hdrSize ≤ s.fd.cnt.toNat →
      exec (.fdHdrByte b) s = .fault (.noSuchAddress .hdr s.fd.cnt.toNat)) ∧
    (∀ b, s.fdInit = true → s.params.bodyCap ≤ s.fd.cnt.toNat →
      exec (.fdBodyByte b) s = .fault (.noSuchAddress .body s.fd.cnt.toNat)) ∧
    (s.fdInit = true → s.params.bodyCap < s.fd.bodyLen.toNat →
      exec .fdEopOk s = .fault (.noSuchAddress .body s.params.bodyCap)) ∧
    (∀ i ch, s.disInit = true → onChannel ch i = true → s.dis.channels.length ≤ ch →
      exec i s = .fault (.noSuchChannel ch)) ∧
    (∀ b now rest, Receives s b now rest → s.fd.state = .readLength → InTime s now → 2 ≤ s.fd.cnt.toNat →
      step s = .refused .noRow)

/-! ### The invariant and what it gives -/

/-- 10_state.md R30 and R35: the invariant after reset. -/
def Obligations.InvariantAtReset : Prop := Inv State.reset

/-- 10_state.md R30 (derived in the spec), R35 and 20_memory.md R61, R62: every step keeps the invariant, from every state that
meets it. -/
def Obligations.InvariantKept : Prop := ∀ s t : State, Inv s → step s = .next t → Inv t

/-- 40_frame_decoder.md R130 (the operation is total) and R151, 10_state.md R50, 20_memory.md R61 and R62 (derived in the spec); for
passes 30_encoding.md R111, 42_debounce_sampler.md R190, R191 and 10_state.md R35, for host operations 43_host_operations.md: where
the invariant holds and the host keeps its promise of 00_scope.md R14, no step stops: no time goes back, and none is 2^31 ticks or more
after the start marker of an open session or the arming of a pending channel. -/
def Obligations.NoInputStopsTheMachine : Prop :=
  ∀ s : State, Inv s → s.fdInit = true → s.disInit = true →
    (∀ b now rest, s.inputs = .rx b now :: rest →
      (∀ last, s.fdNow = some last → last ≤ now) ∧ (s.fd.state ≠ .idle → now < s.fd.tStart + 2147483648)) →
    (∀ pins now rest c, s.inputs = .pass pins now :: rest → s.dis.channels[s.passCh]? = some c →
      (∀ last, s.disNow = some last → last ≤ now) ∧
      (c.state = .pendingActive ∨ c.state = .pendingInactive → now < c.deadline - s.params.holdTicks + 2147483648)) →
    ∃ t, step s = .next t

/-! ### The transition relations and the events -/

/-- 40_frame_decoder.md R147 (its rows rest on decisions D4 to D9): a step on a byte takes `fd_state` along a row of the table, from
every state that meets the invariant. -/
def Obligations.DecoderTransitionTable : Prop :=
  ∀ (s t : State) (b : Byte) (now : Nat) (rest : List InEvent), Inv s → s.inputs = .rx b now :: rest →
    step s = .next t → FdRow s.params s.fd b now t.fd.state

/-- 42_debounce_sampler.md R205 (decisions D21, D22): a sample takes the channel along the table, arms its deadline where the table
says so and keeps it elsewhere, and emits the table's event where a consumer is registered. -/
def Obligations.ChannelTransitionTable : Prop :=
  ∀ (s : State) (ch : Nat) (level : Bool) (now : Nat) (c : Channel) (a e : Bool), s.disInit = true →
    s.dis.channels[ch]? = some c → (level = s.params.assertedLevel ↔ a = true) →
    (c.deadline ≤ now ↔ e = true) →
    ∃ c', c'.state = (dbRow c.state a e).1 ∧
      c'.deadline = (if (dbRow c.state a e).2.1 then now + s.params.holdTicks else c.deadline) ∧
      sample ch level now s = .next { s.withChannel ch c' with
        edges := s.edges ++ (match (dbRow c.state a e).2.2 with
          | none => []
          | some v => if s.dis.consumerEn then [{ ch := ch, isActive := v }] else []) }

/-- 60_exceptions.md R240 and R246, with R137 (decision D17; the code of each cause): a diagnostic carries the code of the table, is emitted by its own operation
only, `fd_state` goes where the table of causes says, and nothing but the length and checksum registers of the length byte is
changed with it. -/
def Obligations.RejectionTable : Prop :=
  ∀ (i : Instr) (s t : State) (c : Cause), exec i s = .next t → t.fdOut = s.fdOut ++ [.diag c] →
    (match c with
      | .badType => c.code = 1 ∧ ∃ b, i = .fdSopBadtype b
      | .lenTooSmall => c.code = 2 ∧ ∃ b, i = .fdLenLo b
      | .bodyOverflow => c.code = 3 ∧ ∃ b, i = .fdBodyOvf b
      | .csumMismatch => c.code = 4 ∧ ∃ b, i = .fdCsumBad b
      | .badEop => c.code = 5 ∧ ∃ b, i = .fdEopBad b
      | .watchdog => c.code = 6 ∧ ∃ st b, i = .fdWdog st b) ∧
    t.fd.state = (if c.code.toNat = 3 then .discard else .idle) ∧
    t = { s with fd := { s.fd with state := t.fd.state, len := t.fd.len, csum := t.fd.csum }, fdOut := t.fdOut } ∧
    (c.code.toNat ≠ 2 → t.fd.len = s.fd.len ∧ t.fd.csum = s.fd.csum)

/-- 40_frame_decoder.md R147 and 60_exceptions.md R249: no operation but `FD_EOP_OK` emits a frame, and it does so only where a
consumer is registered; the state `eop` is entered through `FD_CSUM_OK` only. -/
def Obligations.FramesOnlyFromEndMarker : Prop :=
  ∀ (i : Instr) (s t : State), exec i s = .next t →
    (∀ f, t.fdOut = s.fdOut ++ [.frame f] → i = .fdEopOk ∧ s.fd.consumerEn = true) ∧
    (s.fd.state ≠ .eop → t.fd.state = .eop → ∃ b, i = .fdCsumOk b) ∧
    (t.fdOut = s.fdOut ∨ ∃ e, t.fdOut = s.fdOut ++ [e])

/-- 42_debounce_sampler.md R206 and R207, 60_exceptions.md R250 (decision D26): an edge event comes from a confirmation only, with
its own channel and value, and only where a consumer is registered. -/
def Obligations.EdgesOnlyFromConfirmations : Prop :=
  ∀ (i : Instr) (s t : State), exec i s = .next t → t.edges ≠ s.edges →
    s.dis.consumerEn = true ∧ ∃ ch, (i = .dbPaConfirm ch ∧ t.edges = s.edges ++ [{ ch := ch, isActive := true }]) ∨
      (i = .dbPiConfirm ch ∧ t.edges = s.edges ++ [{ ch := ch, isActive := false }])

/-- 42_debounce_sampler.md R206 (derived in the spec): while a consumer stays registered and no reset of the sampler intervenes, the
events of each channel alternate, and every step keeps it so. -/
def Obligations.EdgesAlternate : Prop :=
  ∀ (ch : Nat) (s t : State), Alternates ch s → s.dis.consumerEn = true → s.inputs.head? ≠ some .resetDis →
    step s = .next t → Alternates ch t

/-! ### Isolation -/

/-- 10_state.md R39: an operation on channel `ch` writes no other channel, and what it does to `ch`, emits or returns does not
depend on any other channel. The operations on a channel are the samples and the snapshot read. -/
def Obligations.ChannelsAreIndependent : Prop :=
  ∀ (ch : Nat) (s t : State),
    (∀ (level : Bool) (now : Nat), sample ch level now s = .next t →
      (∀ k, k ≠ ch → t.dis.channels[k]? = s.dis.channels[k]?) ∧
      ∀ others : List Channel, others[ch]? = s.dis.channels[ch]? →
        ∃ t', sample ch level now { s with dis := { s.dis with channels := others } } = .next t' ∧
          t'.dis.channels[ch]? = t.dis.channels[ch]? ∧ t'.edges = t.edges) ∧
    (exec (.disRead ch) s = .next t →
      t.dis = s.dis ∧
      ∀ others : List Channel, others[ch]? = s.dis.channels[ch]? →
        ∃ t', exec (.disRead ch) { s with dis := { s.dis with channels := others } } = .next t' ∧ t'.results = t.results)

/-- 00_scope.md R2, 70_reset_and_hazards.md R282 (derived in the spec): an operation of one block changes nothing of the other. -/
def Obligations.BlocksShareNothing : Prop :=
  ∀ (i : Instr) (s t : State), exec i s = .next t →
    (ofFd i = true → t.dis = s.dis ∧ t.edges = s.edges ∧ t.disInit = s.disInit) ∧
    (ofFd i = false → t.fd = s.fd ∧ t.fdOut = s.fdOut ∧ t.fdInit = s.fdInit ∧ t.bufEpoch = s.bufEpoch)

/-- 20_memory.md R72 (derived in the spec): a byte and a pass give both blocks the same state and the same events in either
order. -/
def Obligations.BlocksCommute : Prop :=
  ∀ (s t : State) (b : Byte) (now : Nat) (pins : Nat) (now' : Nat),
    andThen (rx b now s) (pass pins now') = .next t ↔ andThen (pass pins now' s) (rx b now) = .next t

/-- 20_memory.md R60 to R62 and R67: a byte of a buffer is changed only by the operation that stores it, at the address `fd_cnt`, or by
the reset of the block. -/
def Obligations.BuffersWrittenOnlyByTheirOperation : Prop :=
  ∀ (i : Instr) (s t : State) (sp : Space) (a : Nat), exec i s = .next t → i ≠ .hostResetFd →
    t.readByte sp a ≠ s.readByte sp a →
    a = s.fd.cnt.toNat ∧ a < spaceSize s.params sp ∧
    ((sp = .hdr ∧ ∃ b, i = .fdHdrByte b ∧ t.readByte sp a = b) ∨ (sp = .body ∧ ∃ b, i = .fdBodyByte b ∧ t.readByte sp a = b))

/-- 10_state.md R38 and 43_host_operations.md R227 (decision D24; log 4): no step changes a parameter, and none changes the number of
channels where it is the parameter `N_CH`. -/
def Obligations.ParametersAreFixed : Prop :=
  ∀ (s t : State), step s = .next t → t.params = s.params ∧
    (s.dis.channels.length = s.params.nCh → t.dis.channels.length = t.params.nCh)

/-! ### Whole operations and whole frames -/

/-- 40_frame_decoder.md R130 (decision D5): one or two steps of the machine are the whole `RX`. -/
def Obligations.StepsAreRx : Prop :=
  ∀ (s : State) (b : Byte) (now : Nat) (rest : List InEvent), Receives s b now rest →
    Host.Core.run Sys2Proof.core (if s.fd.state ≠ .idle ∧ s.fd.tStart + 500 < now then 2 else 1) s =
      andThen (rx b now s) (fun t => .next { t with inputs := rest, fdNow := some now })

/-- 42_debounce_sampler.md R190 with 20_memory.md R71 (decision D23): `N_CH` steps of the machine are the whole `PASS`, which samples
the channels in ascending order at one time. -/
def Obligations.StepsArePass : Prop :=
  ∀ (s : State) (pins : Nat) (now : Nat) (rest : List InEvent), s.inputs = .pass pins now :: rest →
    timeOk s.disNow now = true → (∀ c ∈ s.dis.channels, deadlineWithin s.params c now = true) → s.passCh = 0 →
    0 < s.params.nCh → s.dis.channels.length = s.params.nCh →
    Host.Core.run Sys2Proof.core s.params.nCh s =
      andThen (pass pins now s) (fun t => .next { t with inputs := rest, disNow := some now, passCh := 0 })

/-- 40_frame_decoder.md R149 with 30_encoding.md R90, R93 and R119 (derived in the spec): a well-formed frame received in `idle` within the
watchdog's limit (the empty body by decision D7, the contents of the event by D18) is delivered exactly once, whole, and nothing else is emitted. -/
def Obligations.WellFormedFrameDelivered : Prop :=
  ∀ (s : State) (header body : List Byte) (times : List Nat) (t0 : Nat), s.fdInit = true → s.fd.state = .idle →
    s.fd.consumerEn = true → 0 < s.params.hdrSize → header.length = s.params.hdrSize →
    body.length ≤ s.params.bodyCap → header.length + body.length + 1 < 65536 →
    times.length = (frameBytes 0x53 header body).length → times.head? = some t0 →
    (∀ x ∈ times, x ≤ t0 + 500) →
    ∃ t, feed ((frameBytes 0x53 header body).zip times) s = .next t ∧ FdOnly s t ∧ t.fd.state = .idle ∧
      t.fd.consumerEn = true ∧
      t.fdOut = s.fdOut ++ [.frame
        { typ := 0x53, len := BitVec.ofNat 16 (header.length + body.length + 1), hdrBytes := header, bodyBytes := body,
          bodyLen := BitVec.ofNat 16 body.length,
          info := unpack s.params header body (BitVec.ofNat 16 body.length) }]

/-- 40_frame_decoder.md R150 (derived in the spec): with exactly one byte of the header, body or checksum changed the frame is rejected for
its checksum, with the end marker changed for that; nothing is delivered, and the decoder is back in `idle`. -/
def Obligations.CorruptedFrameRejected : Prop :=
  ∀ (s : State) (header body : List Byte) (times : List Nat) (t0 : Nat) (k : Nat) (x y : Byte), s.fdInit = true →
    s.fd.state = .idle → 0 < s.params.hdrSize → header.length = s.params.hdrSize →
    body.length ≤ s.params.bodyCap → header.length + body.length + 1 < 65536 →
    times.length = (frameBytes 0x53 header body).length → times.head? = some t0 →
    (∀ x ∈ times, x ≤ t0 + 500) →
    4 ≤ k → (frameBytes 0x53 header body)[k]? = some x → y ≠ x →
    ∃ t, feed (((frameBytes 0x53 header body).set k y).zip times) s = .next t ∧ FdOnly s t ∧ t.fd.state = .idle ∧
      t.fd.consumerEn = s.fd.consumerEn ∧
      t.fdOut = s.fdOut ++
        [.diag (if k + 1 = (frameBytes 0x53 header body).length then .badEop else .csumMismatch)]

/-- 40_frame_decoder.md R151 and 70_reset_and_hazards.md R292 (derived in the spec): from every open session, a well-formed frame whose
start marker comes more than 500 ticks after the session's is delivered; the watchdog's diagnostic comes before it. -/
def Obligations.DecoderRecoversAfterTimeout : Prop :=
  ∀ (s : State) (header body : List Byte) (times : List Nat) (t0 : Nat), s.fdInit = true → s.fd.state ≠ .idle →
    s.fd.tStart + 500 < t0 →
    s.fd.consumerEn = true → 0 < s.params.hdrSize → header.length = s.params.hdrSize →
    body.length ≤ s.params.bodyCap → header.length + body.length + 1 < 65536 →
    times.length = (frameBytes 0x53 header body).length → times.head? = some t0 →
    (∀ x ∈ times, x ≤ t0 + 500) →
    ∃ t f, feed ((frameBytes 0x53 header body).zip times) s = .next t ∧ t.fd.state = .idle ∧
      f.hdrBytes = header ∧ f.bodyBytes = body ∧ t.fdOut = s.fdOut ++ [.diag .watchdog, .frame f]

/-- 42_debounce_sampler.md R208 (a) (derived in the spec; decision D21): a channel held asserted from `init` emits exactly one event,
`edge(ch, 1)`, once the hold time has passed, and none before. -/
def Obligations.HeldAssertedEmitsOnce : Prop :=
  ∀ (s : State) (ch : Nat) (c : Channel) (t0 : Nat) (offsets : List Nat), s.disInit = true → s.dis.consumerEn = true →
    s.dis.channels[ch]? = some c → c.state = .init →
    ∃ t, samplesOf ch ((s.params.assertedLevel, t0) ::
        offsets.map (fun d => (s.params.assertedLevel, t0 + d))) s = .next t ∧ DisOnly s t ∧
      ((∃ d ∈ offsets, s.params.holdTicks ≤ d) →
        t.edges = s.edges ++ [{ ch := ch, isActive := true }] ∧ (t.dis.channels[ch]?).map (·.state) = some .active) ∧
      ((∀ d ∈ offsets, d < s.params.holdTicks) →
        t.edges = s.edges ∧ (t.dis.channels[ch]?).map (·.state) = some .pendingActive)

/-- 42_debounce_sampler.md R208 (b) (derived in the spec): asserted from `init` for less than the hold time, then deasserted: no
event, and the channel is `inactive`. The deasserted samples may come at or after the deadline, which rests on decision D21. -/
def Obligations.ShortBounceEmitsNothing : Prop :=
  ∀ (s : State) (ch : Nat) (c : Channel) (t0 : Nat) (offsets : List Nat) (later : List Nat), s.disInit = true →
    s.dis.channels[ch]? = some c → c.state = .init →
    (∀ d ∈ offsets, d < s.params.holdTicks) → later ≠ [] →
    ∃ t, samplesOf ch ((s.params.assertedLevel, t0) ::
        (offsets.map (fun d => (s.params.assertedLevel, t0 + d)) ++
         later.map (fun x => (!s.params.assertedLevel, x)))) s = .next t ∧ DisOnly s t ∧
      t.edges = s.edges ∧ (t.dis.channels[ch]?).map (·.state) = some .inactive

/-! ### The payload stage -/

/-- 41_header_unpack.md R174 (c), (d) and R177 with 20_memory.md R63 (decision D11, conflict C1): the fields of a header of 15 bytes, `none`
where the spec gives no value (log 8). -/
def Obligations.UnpackFifteenBytes : Prop :=
  ∀ (p : Params) (b0 b1 b2 b3 b4 b5 b6 b7 b8 b9 b10 b11 b12 b13 b14 : Byte) (body : List Byte) (bodyLen : Half) (m : Meta),
    m = unpack p [b0, b1, b2, b3, b4, b5, b6, b7, b8, b9, b10, b11, b12, b13, b14] body bodyLen →
    m.reason = some b0 ∧
    m.cycleCount = some (BitVec.ofNat 32 (b1.toNat * 16777216 + b2.toNat * 65536 + b3.toNat * 256 + b4.toNat)) ∧
    m.relayCycleCount = some (BitVec.ofNat 32 (b5.toNat * 16777216 + b6.toNat * 65536 + b7.toNat * 256 + b8.toNat)) ∧
    (b0 = p.reasonOff →
      m.cycleDuration = some (BitVec.ofNat 32 (b9.toNat * 16777216 + b10.toNat * 65536 + b11.toNat * 256 + b12.toNat)) ∧
      m.avgCurrent = some (BitVec.ofNat 16 (b13.toNat * 256 + b14.toNat)) ∧
      m.avgVoltage = none ∧ m.avgPowerFactor = none ∧ m.temperature = none) ∧
    (b0 ≠ p.reasonOff →
      m.cycleDuration = some 0 ∧ m.avgCurrent = some 0 ∧ m.avgVoltage = some 0 ∧ m.avgPowerFactor = some 0 ∧
      m.temperature = some 0) ∧
    m.totalPoweredTime = none ∧ m.totalRunningTime = none ∧ m.waterLevel = none ∧ m.sampleResolution = none ∧
    m.metaOk = false ∧ m.sampleCount = bodyLen.toNat / 4 ∧ m.inrush = inrush p (some b0) body

/-- 41_header_unpack.md R174 (e) and R177 with 20_memory.md R63 and 30_encoding.md R115 (decision D11, conflict C1): the fields of a header of
30 bytes or more. -/
def Obligations.UnpackThirtyBytes : Prop :=
  ∀ (p : Params) (b0 b1 b2 b3 b4 b5 b6 b7 b8 b9 b10 b11 b12 b13 b14 b15 b16 b17 b18 b19 b20 b21 b22 b23 b24 b25 b26 b27 b28
      b29 : Byte) (more body : List Byte) (bodyLen : Half) (m : Meta),
    m = unpack p ([b0, b1, b2, b3, b4, b5, b6, b7, b8, b9, b10, b11, b12, b13, b14, b15, b16, b17, b18, b19, b20, b21, b22,
      b23, b24, b25, b26, b27, b28, b29] ++ more) body bodyLen →
    m.reason = some b0 ∧
    m.cycleCount = some (BitVec.ofNat 32 (b1.toNat * 16777216 + b2.toNat * 65536 + b3.toNat * 256 + b4.toNat)) ∧
    m.relayCycleCount = some (BitVec.ofNat 32 (b5.toNat * 16777216 + b6.toNat * 65536 + b7.toNat * 256 + b8.toNat)) ∧
    (b0 = p.reasonOff →
      m.cycleDuration = some (BitVec.ofNat 32 (b9.toNat * 16777216 + b10.toNat * 65536 + b11.toNat * 256 + b12.toNat)) ∧
      m.avgCurrent = some (BitVec.ofNat 16 (b13.toNat * 256 + b14.toNat)) ∧
      m.avgVoltage = some (BitVec.ofNat 16 (b15.toNat * 256 + b16.toNat)) ∧
      m.avgPowerFactor = some b17 ∧ m.temperature = some b18) ∧
    (b0 ≠ p.reasonOff →
      m.cycleDuration = some 0 ∧ m.avgCurrent = some 0 ∧ m.avgVoltage = some 0 ∧ m.avgPowerFactor = some 0 ∧
      m.temperature = some 0) ∧
    m.totalPoweredTime = some (BitVec.ofNat 32 (b19.toNat * 16777216 + b20.toNat * 65536 + b21.toNat * 256 + b22.toNat)) ∧
    m.totalRunningTime = some (BitVec.ofNat 32 (b23.toNat * 16777216 + b24.toNat * 65536 + b25.toNat * 256 + b26.toNat)) ∧
    m.waterLevel = some b27 ∧ m.sampleResolution = some b29 ∧ m.metaOk = true ∧ m.sampleCount = bodyLen.toNat / 4 ∧
    m.inrush = inrush p (some b0) body

/-- 20_memory.md R68, 30_encoding.md R104 and 41_header_unpack.md R175, R176: how many samples a body has, and where the bytes of
each lie. The byte order is the parameter `SAMPLE_BE`. -/
def Obligations.SamplesOfBody : Prop :=
  ∀ (bigEndian : Bool) (body : List Byte),
    (samples bigEndian body).length = body.length / 4 ∧
    ∀ (k : Nat) (b0 b1 b2 b3 : Byte), body[4 * k]? = some b0 → body[4 * k + 1]? = some b1 → body[4 * k + 2]? = some b2 →
      body[4 * k + 3]? = some b3 →
      ∃ x, (samples bigEndian body)[k]? = some x ∧
        x.v = (let raw := if bigEndian then b0.toNat * 256 + b1.toNat else b1.toNat * 256 + b0.toNat
               if raw < 32768 then (raw : Int) else (raw : Int) - 65536) ∧
        x.i = (let raw := if bigEndian then b2.toNat * 256 + b3.toNat else b3.toNat * 256 + b2.toNat
               if raw < 32768 then (raw : Int) else (raw : Int) - 65536)

/-- 41_header_unpack.md R177, R178 and R179, with R174 (decision D15; log 15): the in-rush value of the delivered record is 0 where the
header's first byte, the reason, is not power-on or the body has no sample, and else lies within the tolerance of the exact value for
the extrema of the current values of that body. -/
def Obligations.InrushWithinTolerance : Prop :=
  ∀ (p : Params) (h body : List Byte) (bodyLen : Half) (m : Meta), m = unpack p h body bodyLen →
    (h.head? ≠ some 0x01 → m.inrush = 0) ∧
    (samples p.sampleBe body = [] → m.inrush = 0) ∧
    ∀ hi ∈ samples p.sampleBe body, ∀ lo ∈ samples p.sampleBe body, 0 ≤ p.inrushTol → h.head? = some 0x01 →
      (∀ x ∈ samples p.sampleBe body, lo.i ≤ x.i ∧ x.i ≤ hi.i) →
      |m.inrush - |p.iScale| * ((hi.i - lo.i : Int) : Rat) / 2 * (7071 / 10000) * 1000| ≤ p.inrushTol
end

