-- ==== Sys2Proof/Laws/Decode.lean ====
section
/-! SUPPORT. The parts of a selector, read back from the packed word. -/

namespace Sys2Proof

@[simp] theorem fdState_ofCode_code (st : FdState) : FdState.ofCode st.code = st := by cases st <;> rfl
@[simp] theorem dbState_ofCode_code (st : DbState) : DbState.ofCode st.code = st := by cases st <;> rfl
theorem fdState_code_ofCode (c : BitVec 3) : (FdState.ofCode c).code = c := by revert c; decide
theorem dbState_code_ofCode (c : BitVec 3) : (DbState.ofCode c).code = c := by revert c; decide

/-- Every bit of a packed RX selector. -/
theorem getLsbD_packRx (w : Bool) (g : BitVec 2) (st : FdState) (b : Byte) (i : Nat) :
    (packRx w g st b).getLsbD i =
      if i < 8 then b.getLsbD i else if i - 8 < 3 then st.code.getLsbD (i - 8)
      else if i - 8 - 3 < 2 then g.getLsbD (i - 8 - 3)
      else if i - 8 - 3 - 2 < 1 then (BitVec.ofBool w).getLsbD (i - 8 - 3 - 2) else false := by
  show BitVec.getLsbD (w := 2 + 1 + 2 + 3 + 8) (0#2 ++ BitVec.ofBool w ++ g ++ st.code ++ b) i = _
  simp only [BitVec.getLsbD_append, BitVec.getLsbD_zero]

@[simp] theorem selByte_packRx (w : Bool) (g : BitVec 2) (st : FdState) (b : Byte) :
    selByte (packRx w g st b) = b := by
  apply BitVec.eq_of_getLsbD_eq
  intro i hi
  rw [selByte, BitVec.getLsbD_extractLsb', getLsbD_packRx]
  simp [hi]

@[simp] theorem selState_packRx (w : Bool) (g : BitVec 2) (st : FdState) (b : Byte) :
    selState (packRx w g st b) = st := by
  have : (packRx w g st b).extractLsb' 8 3 = st.code := by
    apply BitVec.eq_of_getLsbD_eq
    intro i hi
    rw [BitVec.getLsbD_extractLsb', getLsbD_packRx]
    simp [hi]
  simp [selState, this]

@[simp] theorem selGuard_packRx (w : Bool) (g : BitVec 2) (st : FdState) (b : Byte) :
    selGuard (packRx w g st b) = g := by
  apply BitVec.eq_of_getLsbD_eq
  intro i hi
  rw [selGuard, BitVec.getLsbD_extractLsb', getLsbD_packRx, if_neg (by omega), if_neg (by omega),
    if_pos (by omega), show 11 + i - 8 - 3 = i by omega]
  simp [hi]

@[simp] theorem selWdog_packRx (w : Bool) (g : BitVec 2) (st : FdState) (b : Byte) :
    selWdog (packRx w g st b) = w := by
  rw [selWdog, getLsbD_packRx]
  cases w <;> rfl

@[simp] theorem reserved_packRx (w : Bool) (g : BitVec 2) (st : FdState) (b : Byte) :
    (packRx w g st b).extractLsb' 14 2 = 0 := by
  apply BitVec.eq_of_getLsbD_eq
  intro i hi
  rw [BitVec.getLsbD_extractLsb', getLsbD_packRx, if_neg (by omega), if_neg (by omega), if_neg (by omega),
    if_neg (by omega)]
  simp

/-- The decoder on a packed RX selector without the watchdog bit: the row of the state. -/
@[simp] theorem decodeRx_packRx (g : BitVec 2) (st : FdState) (b : Byte) (now : Nat) :
    decodeRx (packRx false g st b) now = decodeRow st g b now := by
  simp [decodeRx]

/-- The decoder on a packed RX selector with the watchdog bit: the watchdog's row, outside `idle`. -/
theorem decodeRx_packRx_wdog (st : FdState) (b : Byte) (now : Nat) (h : st ≠ .idle) :
    decodeRx (packRx true 0 st b) now = .instr (.fdWdog st b) := by
  simp [decodeRx, h]

/-- The decoder on a packed SAMPLE selector: the row of the state and condition. -/
@[simp] theorem decodeSample_packSample (st : DbState) (a e : Bool) (ch : Nat) (now : Nat) :
    decodeSample (packSample st a e) ch now = .instr (decodeCond st a e ch now) := by
  have h1 : (packSample st a e).extractLsb' 5 3 = 0 := by cases st <;> cases a <;> cases e <;> decide
  have h2 : DbState.ofCode ((packSample st a e).extractLsb' 2 3) = st := by
    cases st <;> cases a <;> cases e <;> decide
  have h3 : (packSample st a e).getLsbD 1 = a := by cases st <;> cases a <;> cases e <;> decide
  have h4 : (packSample st a e).getLsbD 0 = e := by cases st <;> cases a <;> cases e <;> decide
  unfold decodeSample
  rw [h1, h2, h3, h4]
  rfl

end Sys2Proof
end

