-- ==== Sys2Proof/Laws/State.lean ====
section
/-! SUPPORT. One lemma per field per update, so that no proof unfolds a record update. -/

namespace Sys2Proof.Machine

/-! ### Registers of the frame decoder -/

@[simp] theorem setFd_params (s : State) (r : FdRegs) : (s.setFd r).params = s.params := rfl
@[simp] theorem setFd_fd (s : State) (r : FdRegs) : (s.setFd r).fd = r := rfl
@[simp] theorem setFd_dis (s : State) (r : FdRegs) : (s.setFd r).dis = s.dis := rfl
@[simp] theorem setFd_fdInit (s : State) (r : FdRegs) : (s.setFd r).fdInit = s.fdInit := rfl
@[simp] theorem setFd_disInit (s : State) (r : FdRegs) : (s.setFd r).disInit = s.disInit := rfl
@[simp] theorem setFd_inputs (s : State) (r : FdRegs) : (s.setFd r).inputs = s.inputs := rfl
@[simp] theorem setFd_passCh (s : State) (r : FdRegs) : (s.setFd r).passCh = s.passCh := rfl
@[simp] theorem setFd_fdNow (s : State) (r : FdRegs) : (s.setFd r).fdNow = s.fdNow := rfl
@[simp] theorem setFd_disNow (s : State) (r : FdRegs) : (s.setFd r).disNow = s.disNow := rfl
@[simp] theorem setFd_fdOut (s : State) (r : FdRegs) : (s.setFd r).fdOut = s.fdOut := rfl
@[simp] theorem setFd_edges (s : State) (r : FdRegs) : (s.setFd r).edges = s.edges := rfl
@[simp] theorem setFd_results (s : State) (r : FdRegs) : (s.setFd r).results = s.results := rfl
@[simp] theorem setFd_bufEpoch (s : State) (r : FdRegs) : (s.setFd r).bufEpoch = s.bufEpoch := rfl

/-! ### Registers of the sampler -/

@[simp] theorem setDis_params (s : State) (r : DisRegs) : (s.setDis r).params = s.params := rfl
@[simp] theorem setDis_fd (s : State) (r : DisRegs) : (s.setDis r).fd = s.fd := rfl
@[simp] theorem setDis_dis (s : State) (r : DisRegs) : (s.setDis r).dis = r := rfl
@[simp] theorem setDis_fdInit (s : State) (r : DisRegs) : (s.setDis r).fdInit = s.fdInit := rfl
@[simp] theorem setDis_disInit (s : State) (r : DisRegs) : (s.setDis r).disInit = s.disInit := rfl
@[simp] theorem setDis_inputs (s : State) (r : DisRegs) : (s.setDis r).inputs = s.inputs := rfl
@[simp] theorem setDis_passCh (s : State) (r : DisRegs) : (s.setDis r).passCh = s.passCh := rfl
@[simp] theorem setDis_fdNow (s : State) (r : DisRegs) : (s.setDis r).fdNow = s.fdNow := rfl
@[simp] theorem setDis_disNow (s : State) (r : DisRegs) : (s.setDis r).disNow = s.disNow := rfl
@[simp] theorem setDis_fdOut (s : State) (r : DisRegs) : (s.setDis r).fdOut = s.fdOut := rfl
@[simp] theorem setDis_edges (s : State) (r : DisRegs) : (s.setDis r).edges = s.edges := rfl
@[simp] theorem setDis_results (s : State) (r : DisRegs) : (s.setDis r).results = s.results := rfl
@[simp] theorem setDis_bufEpoch (s : State) (r : DisRegs) : (s.setDis r).bufEpoch = s.bufEpoch := rfl

/-! ### One channel -/

@[simp] theorem setChannel_params (s : State) (ch : Nat) (c : Channel) : (s.setChannel ch c).params = s.params := rfl
@[simp] theorem setChannel_fd (s : State) (ch : Nat) (c : Channel) : (s.setChannel ch c).fd = s.fd := rfl
@[simp] theorem setChannel_fdInit (s : State) (ch : Nat) (c : Channel) : (s.setChannel ch c).fdInit = s.fdInit := rfl
@[simp] theorem setChannel_disInit (s : State) (ch : Nat) (c : Channel) : (s.setChannel ch c).disInit = s.disInit := rfl
@[simp] theorem setChannel_inputs (s : State) (ch : Nat) (c : Channel) : (s.setChannel ch c).inputs = s.inputs := rfl
@[simp] theorem setChannel_passCh (s : State) (ch : Nat) (c : Channel) : (s.setChannel ch c).passCh = s.passCh := rfl
@[simp] theorem setChannel_fdNow (s : State) (ch : Nat) (c : Channel) : (s.setChannel ch c).fdNow = s.fdNow := rfl
@[simp] theorem setChannel_disNow (s : State) (ch : Nat) (c : Channel) : (s.setChannel ch c).disNow = s.disNow := rfl
@[simp] theorem setChannel_fdOut (s : State) (ch : Nat) (c : Channel) : (s.setChannel ch c).fdOut = s.fdOut := rfl
@[simp] theorem setChannel_edges (s : State) (ch : Nat) (c : Channel) : (s.setChannel ch c).edges = s.edges := rfl
@[simp] theorem setChannel_results (s : State) (ch : Nat) (c : Channel) : (s.setChannel ch c).results = s.results := rfl
@[simp] theorem setChannel_bufEpoch (s : State) (ch : Nat) (c : Channel) : (s.setChannel ch c).bufEpoch = s.bufEpoch := rfl
@[simp] theorem setChannel_consumerEn (s : State) (ch : Nat) (c : Channel) :
    (s.setChannel ch c).dis.consumerEn = s.dis.consumerEn := rfl
@[simp] theorem setChannel_channels (s : State) (ch : Nat) (c : Channel) :
    (s.setChannel ch c).dis.channels = s.dis.channels.set ch c := rfl

/-! ### An event of the frame decoder -/

@[simp] theorem emitFd_params (s : State) (e : FdEvent) : (s.emitFd e).params = s.params := rfl
@[simp] theorem emitFd_fd (s : State) (e : FdEvent) : (s.emitFd e).fd = s.fd := rfl
@[simp] theorem emitFd_dis (s : State) (e : FdEvent) : (s.emitFd e).dis = s.dis := rfl
@[simp] theorem emitFd_fdInit (s : State) (e : FdEvent) : (s.emitFd e).fdInit = s.fdInit := rfl
@[simp] theorem emitFd_disInit (s : State) (e : FdEvent) : (s.emitFd e).disInit = s.disInit := rfl
@[simp] theorem emitFd_inputs (s : State) (e : FdEvent) : (s.emitFd e).inputs = s.inputs := rfl
@[simp] theorem emitFd_passCh (s : State) (e : FdEvent) : (s.emitFd e).passCh = s.passCh := rfl
@[simp] theorem emitFd_fdNow (s : State) (e : FdEvent) : (s.emitFd e).fdNow = s.fdNow := rfl
@[simp] theorem emitFd_disNow (s : State) (e : FdEvent) : (s.emitFd e).disNow = s.disNow := rfl
@[simp] theorem emitFd_fdOut (s : State) (e : FdEvent) : (s.emitFd e).fdOut = s.fdOut ++ [e] := rfl
@[simp] theorem emitFd_edges (s : State) (e : FdEvent) : (s.emitFd e).edges = s.edges := rfl
@[simp] theorem emitFd_results (s : State) (e : FdEvent) : (s.emitFd e).results = s.results := rfl
@[simp] theorem emitFd_bufEpoch (s : State) (e : FdEvent) : (s.emitFd e).bufEpoch = s.bufEpoch := rfl

/-! ### An edge event -/

@[simp] theorem emitEdge_params (s : State) (ch : Nat) (v : Bool) : (s.emitEdge ch v).params = s.params := by unfold State.emitEdge; split <;> rfl
@[simp] theorem emitEdge_fd (s : State) (ch : Nat) (v : Bool) : (s.emitEdge ch v).fd = s.fd := by unfold State.emitEdge; split <;> rfl
@[simp] theorem emitEdge_dis (s : State) (ch : Nat) (v : Bool) : (s.emitEdge ch v).dis = s.dis := by unfold State.emitEdge; split <;> rfl
@[simp] theorem emitEdge_fdInit (s : State) (ch : Nat) (v : Bool) : (s.emitEdge ch v).fdInit = s.fdInit := by unfold State.emitEdge; split <;> rfl
@[simp] theorem emitEdge_disInit (s : State) (ch : Nat) (v : Bool) : (s.emitEdge ch v).disInit = s.disInit := by unfold State.emitEdge; split <;> rfl
@[simp] theorem emitEdge_inputs (s : State) (ch : Nat) (v : Bool) : (s.emitEdge ch v).inputs = s.inputs := by unfold State.emitEdge; split <;> rfl
@[simp] theorem emitEdge_passCh (s : State) (ch : Nat) (v : Bool) : (s.emitEdge ch v).passCh = s.passCh := by unfold State.emitEdge; split <;> rfl
@[simp] theorem emitEdge_fdNow (s : State) (ch : Nat) (v : Bool) : (s.emitEdge ch v).fdNow = s.fdNow := by unfold State.emitEdge; split <;> rfl
@[simp] theorem emitEdge_disNow (s : State) (ch : Nat) (v : Bool) : (s.emitEdge ch v).disNow = s.disNow := by unfold State.emitEdge; split <;> rfl
@[simp] theorem emitEdge_fdOut (s : State) (ch : Nat) (v : Bool) : (s.emitEdge ch v).fdOut = s.fdOut := by unfold State.emitEdge; split <;> rfl
@[simp] theorem emitEdge_results (s : State) (ch : Nat) (v : Bool) : (s.emitEdge ch v).results = s.results := by unfold State.emitEdge; split <;> rfl
@[simp] theorem emitEdge_bufEpoch (s : State) (ch : Nat) (v : Bool) : (s.emitEdge ch v).bufEpoch = s.bufEpoch := by unfold State.emitEdge; split <;> rfl
@[simp] theorem emitEdge_edges (s : State) (ch : Nat) (v : Bool) :
    (s.emitEdge ch v).edges = if s.dis.consumerEn then s.edges ++ [{ ch := ch, isActive := v }] else s.edges := by
  unfold State.emitEdge; split <;> rfl

/-! ### A result for the host -/

@[simp] theorem giveResult_params (s : State) (r : ReadResult) : (s.giveResult r).params = s.params := rfl
@[simp] theorem giveResult_fd (s : State) (r : ReadResult) : (s.giveResult r).fd = s.fd := rfl
@[simp] theorem giveResult_dis (s : State) (r : ReadResult) : (s.giveResult r).dis = s.dis := rfl
@[simp] theorem giveResult_fdInit (s : State) (r : ReadResult) : (s.giveResult r).fdInit = s.fdInit := rfl
@[simp] theorem giveResult_disInit (s : State) (r : ReadResult) : (s.giveResult r).disInit = s.disInit := rfl
@[simp] theorem giveResult_inputs (s : State) (r : ReadResult) : (s.giveResult r).inputs = s.inputs := rfl
@[simp] theorem giveResult_passCh (s : State) (r : ReadResult) : (s.giveResult r).passCh = s.passCh := rfl
@[simp] theorem giveResult_fdNow (s : State) (r : ReadResult) : (s.giveResult r).fdNow = s.fdNow := rfl
@[simp] theorem giveResult_disNow (s : State) (r : ReadResult) : (s.giveResult r).disNow = s.disNow := rfl
@[simp] theorem giveResult_fdOut (s : State) (r : ReadResult) : (s.giveResult r).fdOut = s.fdOut := rfl
@[simp] theorem giveResult_edges (s : State) (r : ReadResult) : (s.giveResult r).edges = s.edges := rfl
@[simp] theorem giveResult_results (s : State) (r : ReadResult) : (s.giveResult r).results = s.results ++ [r] := rfl
@[simp] theorem giveResult_bufEpoch (s : State) (r : ReadResult) : (s.giveResult r).bufEpoch = s.bufEpoch := rfl

/-! ### A rejection -/

@[simp] theorem reject_params (s : State) (c : Cause) : (reject c s).params = s.params := rfl
@[simp] theorem reject_fd (s : State) (c : Cause) : (reject c s).fd = { s.fd with state := c.target } := rfl
@[simp] theorem reject_dis (s : State) (c : Cause) : (reject c s).dis = s.dis := rfl
@[simp] theorem reject_fdInit (s : State) (c : Cause) : (reject c s).fdInit = s.fdInit := rfl
@[simp] theorem reject_disInit (s : State) (c : Cause) : (reject c s).disInit = s.disInit := rfl
@[simp] theorem reject_inputs (s : State) (c : Cause) : (reject c s).inputs = s.inputs := rfl
@[simp] theorem reject_passCh (s : State) (c : Cause) : (reject c s).passCh = s.passCh := rfl
@[simp] theorem reject_fdNow (s : State) (c : Cause) : (reject c s).fdNow = s.fdNow := rfl
@[simp] theorem reject_disNow (s : State) (c : Cause) : (reject c s).disNow = s.disNow := rfl
@[simp] theorem reject_fdOut (s : State) (c : Cause) : (reject c s).fdOut = s.fdOut ++ [.diag c] := rfl
@[simp] theorem reject_edges (s : State) (c : Cause) : (reject c s).edges = s.edges := rfl
@[simp] theorem reject_results (s : State) (c : Cause) : (reject c s).results = s.results := rfl
@[simp] theorem reject_bufEpoch (s : State) (c : Cause) : (reject c s).bufEpoch = s.bufEpoch := rfl

/-! ### A start marker -/

@[simp] theorem openSession_params (s : State) (now : Nat) : (openSession now s).params = s.params := rfl
@[simp] theorem openSession_fd (s : State) (now : Nat) : (openSession now s).fd = { s.fd with csum := 0, tStart := now, state := .sop } := rfl
@[simp] theorem openSession_dis (s : State) (now : Nat) : (openSession now s).dis = s.dis := rfl
@[simp] theorem openSession_fdInit (s : State) (now : Nat) : (openSession now s).fdInit = s.fdInit := rfl
@[simp] theorem openSession_disInit (s : State) (now : Nat) : (openSession now s).disInit = s.disInit := rfl
@[simp] theorem openSession_inputs (s : State) (now : Nat) : (openSession now s).inputs = s.inputs := rfl
@[simp] theorem openSession_passCh (s : State) (now : Nat) : (openSession now s).passCh = s.passCh := rfl
@[simp] theorem openSession_fdNow (s : State) (now : Nat) : (openSession now s).fdNow = s.fdNow := rfl
@[simp] theorem openSession_disNow (s : State) (now : Nat) : (openSession now s).disNow = s.disNow := rfl
@[simp] theorem openSession_fdOut (s : State) (now : Nat) : (openSession now s).fdOut = s.fdOut := rfl
@[simp] theorem openSession_edges (s : State) (now : Nat) : (openSession now s).edges = s.edges := rfl
@[simp] theorem openSession_results (s : State) (now : Nat) : (openSession now s).results = s.results := rfl
@[simp] theorem openSession_bufEpoch (s : State) (now : Nat) : (openSession now s).bufEpoch = s.bufEpoch := rfl

/-! ### A delivery -/

@[simp] theorem deliver_params (s : State) : (deliver s).params = s.params := by unfold deliver; split <;> rfl
@[simp] theorem deliver_fd (s : State) : (deliver s).fd = s.fd := by unfold deliver; split <;> rfl
@[simp] theorem deliver_dis (s : State) : (deliver s).dis = s.dis := by unfold deliver; split <;> rfl
@[simp] theorem deliver_fdInit (s : State) : (deliver s).fdInit = s.fdInit := by unfold deliver; split <;> rfl
@[simp] theorem deliver_disInit (s : State) : (deliver s).disInit = s.disInit := by unfold deliver; split <;> rfl
@[simp] theorem deliver_inputs (s : State) : (deliver s).inputs = s.inputs := by unfold deliver; split <;> rfl
@[simp] theorem deliver_passCh (s : State) : (deliver s).passCh = s.passCh := by unfold deliver; split <;> rfl
@[simp] theorem deliver_fdNow (s : State) : (deliver s).fdNow = s.fdNow := by unfold deliver; split <;> rfl
@[simp] theorem deliver_disNow (s : State) : (deliver s).disNow = s.disNow := by unfold deliver; split <;> rfl
@[simp] theorem deliver_edges (s : State) : (deliver s).edges = s.edges := by unfold deliver; split <;> rfl
@[simp] theorem deliver_results (s : State) : (deliver s).results = s.results := by unfold deliver; split <;> rfl
@[simp] theorem deliver_bufEpoch (s : State) : (deliver s).bufEpoch = s.bufEpoch := by unfold deliver; split <;> rfl
@[simp] theorem deliver_fdOut (s : State) :
    (deliver s).fdOut = if s.fd.consumerEn then s.fdOut ++ [.frame (frameOf s)] else s.fdOut := by
  unfold deliver; split <;> rfl

/-! ### Retiring an event touches what the host presented, and the times, only -/

@[simp] theorem retire_params (i : Instr) (s : State) : (retire i s).params = s.params := by
  unfold retire; repeat' split
  all_goals rfl
@[simp] theorem retire_fd (i : Instr) (s : State) : (retire i s).fd = s.fd := by
  unfold retire; repeat' split
  all_goals rfl
@[simp] theorem retire_dis (i : Instr) (s : State) : (retire i s).dis = s.dis := by
  unfold retire; repeat' split
  all_goals rfl
@[simp] theorem retire_fdInit (i : Instr) (s : State) : (retire i s).fdInit = s.fdInit := by
  unfold retire; repeat' split
  all_goals rfl
@[simp] theorem retire_disInit (i : Instr) (s : State) : (retire i s).disInit = s.disInit := by
  unfold retire; repeat' split
  all_goals rfl
@[simp] theorem retire_fdOut (i : Instr) (s : State) : (retire i s).fdOut = s.fdOut := by
  unfold retire; repeat' split
  all_goals rfl
@[simp] theorem retire_edges (i : Instr) (s : State) : (retire i s).edges = s.edges := by
  unfold retire; repeat' split
  all_goals rfl
@[simp] theorem retire_results (i : Instr) (s : State) : (retire i s).results = s.results := by
  unfold retire; repeat' split
  all_goals rfl
@[simp] theorem retire_bufEpoch (i : Instr) (s : State) : (retire i s).bufEpoch = s.bufEpoch := by
  unfold retire; repeat' split
  all_goals rfl

/-! ### Buffers of the registers -/

@[simp] theorem buffer_setBuffer_same (r : FdRegs) (sp : Space) (m : Memory) : (r.setBuffer sp m).buffer sp = m := by
  cases sp <;> rfl

theorem buffer_setBuffer_other (r : FdRegs) (sp sp' : Space) (m : Memory) (h : sp' ≠ sp) :
    (r.setBuffer sp m).buffer sp' = r.buffer sp' := by
  cases sp <;> cases sp' <;> simp_all [FdRegs.setBuffer, FdRegs.buffer]

@[simp] theorem setBuffer_state (r : FdRegs) (sp : Space) (m : Memory) : (r.setBuffer sp m).state = r.state := by
  cases sp <;> rfl
@[simp] theorem setBuffer_typ (r : FdRegs) (sp : Space) (m : Memory) : (r.setBuffer sp m).typ = r.typ := by
  cases sp <;> rfl
@[simp] theorem setBuffer_csum (r : FdRegs) (sp : Space) (m : Memory) : (r.setBuffer sp m).csum = r.csum := by
  cases sp <;> rfl
@[simp] theorem setBuffer_len (r : FdRegs) (sp : Space) (m : Memory) : (r.setBuffer sp m).len = r.len := by
  cases sp <;> rfl
@[simp] theorem setBuffer_cnt (r : FdRegs) (sp : Space) (m : Memory) : (r.setBuffer sp m).cnt = r.cnt := by
  cases sp <;> rfl
@[simp] theorem setBuffer_bodyLen (r : FdRegs) (sp : Space) (m : Memory) : (r.setBuffer sp m).bodyLen = r.bodyLen := by
  cases sp <;> rfl
@[simp] theorem setBuffer_tStart (r : FdRegs) (sp : Space) (m : Memory) : (r.setBuffer sp m).tStart = r.tStart := by
  cases sp <;> rfl
@[simp] theorem setBuffer_consumerEn (r : FdRegs) (sp : Space) (m : Memory) : (r.setBuffer sp m).consumerEn = r.consumerEn := by
  cases sp <;> rfl

end Sys2Proof.Machine
end

