-- ==== Sys2Proof/Laws/Memory.lean ====
section
/-! SUPPORT. A buffer: reading after writing, and every operation keeps the canonical form. -/

namespace Sys2Proof.Machine

theorem Memory.read_eq_none_of_lt (m : Memory) (a : Nat) (h : ∀ c ∈ m, a < c.1) : m.read a = none := by
  induction m with
  | nil => rfl
  | cons c m ih =>
    have hc : a < c.1 := h c (by simp)
    have : c.1 ≠ a := by omega
    simp [Memory.read, this, ih (fun d hd => h d (by simp [hd]))]

/-- A read at the written address gives the written byte. -/
@[simp] theorem Memory.read_write_same (m : Memory) (a : Nat) (b : Byte) : (m.write a b).read a = some b := by
  induction m with
  | nil => simp [Memory.write, Memory.read]
  | cons c m ih =>
    obtain ⟨k, v⟩ := c
    unfold Memory.write
    split
    · simp [Memory.read]
    · split
      · simp [Memory.read]
      · simp_all [Memory.read]

/-- A read at another address gives what it gave before. -/
theorem Memory.read_write_other (m : Memory) (a a' : Nat) (b : Byte) (h : a' ≠ a) :
    (m.write a b).read a' = m.read a' := by
  induction m with
  | nil => simp [Memory.write, Memory.read, h.symm]
  | cons c m ih =>
    obtain ⟨k, v⟩ := c
    unfold Memory.write
    split
    · simp [Memory.read, h.symm]
    · split
      · subst_vars; simp [Memory.read, h.symm]
      · simp [Memory.read, ih]

/-- The addresses of a written buffer are the old ones and the written one. -/
theorem Memory.mem_write {m : Memory} {a : Nat} {b : Byte} {c : Host.Cell} (h : c ∈ m.write a b) :
    c.1 = a ∨ c ∈ m := by
  induction m with
  | nil => simp [Memory.write] at h; simp [h]
  | cons d m ih =>
    obtain ⟨k, v⟩ := d
    unfold Memory.write at h
    split at h
    · rcases List.mem_cons.1 h with rfl | h
      · simp
      · exact .inr h
    · split at h
      · rcases List.mem_cons.1 h with rfl | h
        · simp
        · exact .inr (by simp [h])
      · rcases List.mem_cons.1 h with rfl | h
        · simp
        · rcases ih h with h | h
          · exact .inl h
          · exact .inr (by simp [h])

/-- Writing keeps the canonical form. -/
theorem Memory.wf_write (m : Memory) (a : Nat) (b : Byte) (h : m.wf) : (m.write a b).wf := by
  induction m with
  | nil => simp [Memory.write, Memory.wf]
  | cons d m ih =>
    obtain ⟨k, v⟩ := d
    obtain ⟨h1, h2⟩ := List.pairwise_cons.1 h
    unfold Memory.write
    split
    · rename_i hlt
      refine List.pairwise_cons.2 ⟨fun c hc => ?_, h⟩
      rcases List.mem_cons.1 hc with rfl | hc
      · exact hlt
      · exact Nat.lt_trans hlt (h1 c hc)
    · split
      · subst_vars
        exact List.pairwise_cons.2 ⟨h1, h2⟩
      · refine List.pairwise_cons.2 ⟨fun c hc => ?_, ih h2⟩
        rcases Memory.mem_write hc with hc | hc
        · omega
        · exact h1 c hc

/-- The empty buffer is in canonical form. -/
theorem Memory.wf_nil : Memory.wf [] := List.Pairwise.nil

/-- The buffers after reset are in canonical form. -/
theorem reset_buffers_wf (sp : Space) : (State.reset.fd.buffer sp).wf := by
  cases sp <;> exact Memory.wf_nil

/-- What a write to a buffer can do: the written byte reads back, and every other byte of both buffers, every other
register and everything outside the block are as before. -/
theorem memWrite_next {sp : Space} {a : Nat} {b : Byte} {s t : State} (h : memWrite sp a b s = .next t) :
    a < spaceSize s.params sp ∧ t = s.setFd (s.fd.setBuffer sp ((s.fd.buffer sp).write a b)) := by
  unfold memWrite at h
  split at h
  · exact ⟨‹_›, by cases h; rfl⟩
  · cases h

theorem memWrite_of_lt {sp : Space} {a : Nat} (b : Byte) {s : State} (h : a < spaceSize s.params sp) :
    memWrite sp a b s = .next (s.setFd (s.fd.setBuffer sp ((s.fd.buffer sp).write a b))) := by
  simp [memWrite, h, State.setFd]

/-- Reading a byte after a write to a buffer. -/
theorem readByte_setBuffer_write (s : State) (sp sp' : Space) (a a' : Nat) (b : Byte) (r : FdRegs)
    (hr : ∀ q, r.buffer q = (s.fd.setBuffer sp ((s.fd.buffer sp).write a b)).buffer q) :
    (s.setFd r).readByte sp' a' = if sp' = sp ∧ a' = a then b else s.readByte sp' a' := by
  simp only [State.readByte, setFd_fd, setFd_bufEpoch, hr]
  by_cases h : sp' = sp
  · subst h
    by_cases h' : a' = a
    · subst h'; simp
    · simp [h', Memory.read_write_other _ _ _ _ h']
  · simp [h, buffer_setBuffer_other _ _ _ _ h]

end Sys2Proof.Machine
end

