-- ==== Sys2Proof/Laws/Ops.lean ====
section
/-! SUPPORT. What each shared operation can do, said once. -/

namespace Sys2Proof.Machine

/-! ### Outcomes -/

@[simp] theorem andThen_next (s : State) (k : State → Outcome) : andThen (.next s) k = k s := rfl
@[simp] theorem andThen_fault (r : Fault) (k : State → Outcome) : andThen (.fault r) k = .fault r := rfl
@[simp] theorem andThen_refused (r : Refusal) (k : State → Outcome) : andThen (.refused r) k = .refused r := rfl

/-- A next state of two outcomes in a row comes through a next state of the first. -/
theorem andThen_eq_next {o : Outcome} {k : State → Outcome} {t : State} (h : andThen o k = .next t) :
    ∃ u, o = .next u ∧ k u = .next t := by
  cases o with
  | next u => exact ⟨u, rfl, h⟩
  | fault r => cases h
  | refused r => cases h

theorem andThen_assoc (o : Outcome) (k l : State → Outcome) :
    andThen (andThen o k) l = andThen o (fun s => andThen (k s) l) := by
  cases o <;> rfl

theorem andThen_right_next (o : Outcome) : andThen o .next = o := by cases o <;> rfl

/-! ### The block has been reset -/

@[simp] theorem requireFd_of_init {s : State} (h : s.fdInit = true) (o : Outcome) : requireFd s o = o := by
  simp [requireFd, h]

@[simp] theorem requireDis_of_init {s : State} (h : s.disInit = true) (o : Outcome) : requireDis s o = o := by
  simp [requireDis, h]

theorem requireFd_of_not {s : State} (h : s.fdInit = false) (o : Outcome) :
    requireFd s o = .refused (.beforeReset .fd) := by simp [requireFd, h]

theorem requireDis_of_not {s : State} (h : s.disInit = false) (o : Outcome) :
    requireDis s o = .refused (.beforeReset .dis) := by simp [requireDis, h]

theorem requireFd_eq_next {s t : State} {o : Outcome} (h : requireFd s o = .next t) : s.fdInit = true ∧ o = .next t := by
  unfold requireFd at h
  split at h
  · exact ⟨‹_›, h⟩
  · cases h

theorem requireDis_eq_next {s t : State} {o : Outcome} (h : requireDis s o = .next t) :
    s.disInit = true ∧ o = .next t := by
  unfold requireDis at h
  split at h
  · exact ⟨‹_›, h⟩
  · cases h

/-! ### Channels -/

/-- A change of a channel that exists. -/
theorem changeChannel_of_some {s : State} {ch : Nat} {c : Channel} (h : s.dis.channels[ch]? = some c)
    (f : Channel → Channel) :
    changeChannel ch f s = .next (s.setChannel ch (f c)) := by
  simp [changeChannel, h]

/-- A change of a channel goes on only where the channel exists. -/
theorem changeChannel_eq_next {s t : State} {ch : Nat} {f : Channel → Channel} (h : changeChannel ch f s = .next t) :
    ∃ c, s.dis.channels[ch]? = some c ∧
      t = s.setChannel ch (f c) := by
  unfold changeChannel at h
  split at h
  · cases h
  · exact ⟨_, ‹_›, by cases h; rfl⟩

/-- Keeping a channel that exists changes nothing. -/
theorem stay_of_some {s : State} {ch : Nat} {c : Channel} (h : s.dis.channels[ch]? = some c) :
    stay ch s = .next s := by
  obtain ⟨hlt, hc⟩ := List.getElem?_eq_some_iff.1 h
  rw [stay, changeChannel_of_some h]
  simp [State.setChannel, State.setDis, ← hc]

theorem stay_eq_next {s t : State} {ch : Nat} (h : stay ch s = .next t) :
    (∃ c, s.dis.channels[ch]? = some c) ∧ t = s := by
  obtain ⟨c, hc, -⟩ := changeChannel_eq_next h
  rw [stay_of_some hc] at h
  exact ⟨⟨c, hc⟩, by cases h; rfl⟩

theorem armInto_of_some {s : State} {ch : Nat} {c : Channel} (h : s.dis.channels[ch]? = some c) (st : DbState)
    (now : Nat) :
    armInto st ch now s = .next (s.setChannel ch { state := st, deadline := now + s.params.holdTicks }) :=
  changeChannel_of_some h _

theorem moveTo_of_some {s : State} {ch : Nat} {c : Channel} (h : s.dis.channels[ch]? = some c) (st : DbState) :
    moveTo st ch s = .next (s.setChannel ch { c with state := st }) :=
  changeChannel_of_some h _

theorem confirm_of_some {s : State} {ch : Nat} {c : Channel} (h : s.dis.channels[ch]? = some c) (st : DbState)
    (v : Bool) :
    confirm st v ch s = .next ((s.setChannel ch { c with state := st }).emitEdge ch v) := by
  simp [confirm, moveTo_of_some h]

theorem armInto_eq_next {s t : State} {ch : Nat} {st : DbState} {now : Nat} (h : armInto st ch now s = .next t) :
    ∃ c, s.dis.channels[ch]? = some c ∧ t = s.setChannel ch { state := st, deadline := now + s.params.holdTicks } :=
  changeChannel_eq_next h

theorem moveTo_eq_next {s t : State} {ch : Nat} {st : DbState} (h : moveTo st ch s = .next t) :
    ∃ c, s.dis.channels[ch]? = some c ∧
      t = s.setChannel ch { c with state := st } :=
  changeChannel_eq_next h

theorem confirm_eq_next {s t : State} {ch : Nat} {st : DbState} {v : Bool} (h : confirm st v ch s = .next t) :
    ∃ c, s.dis.channels[ch]? = some c ∧ t = (s.setChannel ch { c with state := st }).emitEdge ch v := by
  obtain ⟨u, hu, ht⟩ := andThen_eq_next h
  obtain ⟨c, hc, rfl⟩ := moveTo_eq_next hu
  exact ⟨c, hc, by cases ht; rfl⟩

/-! ### Exclusive-or and byte lists -/

theorem xorBytes_append_singleton (l : List Byte) (b : Byte) : xorBytes (l ++ [b]) = xorBytes l ^^^ b := by
  simp [xorBytes]

theorem readBytes_succ (s : State) (sp : Space) (addr n : Nat) :
    s.readBytes sp addr (n + 1) = s.readBytes sp addr n ++ [s.readByte sp (addr + n)] := by
  simp [State.readBytes, List.range_succ]

@[simp] theorem readBytes_length (s : State) (sp : Space) (addr n : Nat) : (s.readBytes sp addr n).length = n := by
  simp [State.readBytes]

@[simp] theorem readBytes_zero (s : State) (sp : Space) (addr : Nat) : s.readBytes sp addr 0 = [] := rfl

theorem readBytes_congr {s t : State} {sp : Space} {addr n : Nat}
    (h : ∀ k < n, t.readByte sp (addr + k) = s.readByte sp (addr + k)) :
    t.readBytes sp addr n = s.readBytes sp addr n := by
  refine List.map_congr_left fun k hk => h k (List.mem_range.1 hk)

end Sys2Proof.Machine
end

