-- ==== Sys2Proof/Laws/Flags.lean ====
section
/-! SUPPORT. The comparisons of times, the assembly of values from bytes and the events, as plain arithmetic. -/

namespace Sys2Proof.Machine

theorem reached_iff (d now : Nat) : reached d now = true ↔ d ≤ now := decide_eq_true_iff

theorem timedOut_iff (r : FdRegs) (now : Nat) :
    timedOut r now = true ↔ r.state ≠ .idle ∧ r.tStart + 500 < now := by
  simp [timedOut, elapsed, Config.wdogTicks, Config.wdogMs, Config.ticksPerMs]
  omega

theorem timedOut_idle {r : FdRegs} (now : Nat) (h : r.state = .idle) : timedOut r now = false := by simp [timedOut, h]

theorem timedOut_of_le {r : FdRegs} {now : Nat} (h : now ≤ r.tStart + 500) : timedOut r now = false := by
  rw [Bool.eq_false_iff, Ne, timedOut_iff]; omega

theorem asserted_iff (p : Params) (level : Bool) : asserted p level = true ↔ level = p.assertedLevel := by
  simp [asserted]

theorem expired_iff (c : Channel) (now : Nat) : expired c now = true ↔ c.deadline ≤ now :=
  reached_iff _ _

theorem timeOk_iff (last : Option Nat) (now : Nat) : timeOk last now = true ↔ ∀ l, last = some l → l ≤ now := by
  cases last <;> simp [timeOk]

theorem within_iff (start now : Nat) : within start now = true ↔ now < start + 2147483648 := by
  have h : within start now = true ↔ now < 2147483648 ∨ now - start < 2147483648 := by
    rw [within, Bool.or_eq_true, decide_eq_true_iff, decide_eq_true_iff]; rfl
  rw [h]; omega

theorem sessionWithin_iff (r : FdRegs) (now : Nat) :
    sessionWithin r now = true ↔ (r.state ≠ .idle → now < r.tStart + 2147483648) := by
  rw [sessionWithin, Bool.or_eq_true, within_iff, decide_eq_true_iff]
  exact Decidable.or_iff_not_imp_left

theorem sessionWithin_idle {r : FdRegs} (now : Nat) (h : r.state = .idle) : sessionWithin r now = true := by
  simp [sessionWithin, h]

theorem sessionWithin_of_le {r : FdRegs} {now : Nat} (h : now ≤ r.tStart + 500) : sessionWithin r now = true := by
  rw [sessionWithin_iff]; omega

theorem isPending_iff (st : DbState) : isPending st = true ↔ st = .pendingActive ∨ st = .pendingInactive := by
  cases st <;> decide

theorem deadlineWithin_iff (p : Params) (c : Channel) (now : Nat) :
    deadlineWithin p c now = true ↔
      (c.state = .pendingActive ∨ c.state = .pendingInactive → now < c.deadline - p.holdTicks + 2147483648) := by
  rw [deadlineWithin, Bool.or_eq_true, within_iff, ← isPending_iff, armedAt]
  cases isPending c.state <;> simp

/-! What an implementation computes on `TIME_W` = 32 bits is the comparison of the natural numbers, where the compared
instants are less than 2^31 ticks apart (R14). -/

theorem elapsed_eq_mod {tStart now : Nat} (h : tStart ≤ now) (hw : within tStart now = true) :
    elapsed tStart now = (BitVec.ofNat Config.timeW now - BitVec.ofNat Config.timeW tStart).toNat := by
  rw [within_iff] at hw
  show now - tStart = (BitVec.ofNat 32 now - BitVec.ofNat 32 tStart).toNat
  simp only [BitVec.toNat_sub, BitVec.toNat_ofNat]
  omega

theorem reached_eq_mod {armed now : Nat} {hold : Nat} (h : armed ≤ now) (hw : within armed now = true)
    (hh : hold < Config.timeBound) :
    reached (armed + hold) now =
      decide ((BitVec.ofNat Config.timeW now - BitVec.ofNat Config.timeW (armed + hold)).toNat < Config.timeBound) := by
  have hb : hold < 2147483648 := hh
  rw [within_iff] at hw
  rw [reached, decide_eq_decide]
  show armed + hold ≤ now ↔ (BitVec.ofNat 32 now - BitVec.ofNat 32 (armed + hold)).toNat < 2147483648
  simp only [BitVec.toNat_sub, BitVec.toNat_ofNat]
  omega

theorem withHi_eq (len : Half) (b : Byte) : withHi len b = BitVec.ofNat 16 (b.toNat * 256 + len.toNat % 256) := by
  apply BitVec.eq_of_toNat_eq
  have := b.isLt
  rw [withHi, BitVec.toNat_append, ← Nat.shiftLeft_add_eq_or_of_lt (BitVec.isLt _)]
  simp [BitVec.extractLsb'_toNat, Nat.shiftLeft_eq]
  omega

theorem withLo_eq (len : Half) (b : Byte) : withLo len b = BitVec.ofNat 16 (len.toNat / 256 * 256 + b.toNat) := by
  apply BitVec.eq_of_toNat_eq
  have := b.isLt
  rw [withLo, BitVec.toNat_append, ← Nat.shiftLeft_add_eq_or_of_lt (BitVec.isLt _)]
  simp [BitVec.extractLsb'_toNat, Nat.shiftRight_eq_div_pow, Nat.shiftLeft_eq]
  omega

theorem bodyLength_eq {len : Half} {n : Nat} (h : n < len.toNat) :
    bodyLength len n = BitVec.ofNat 16 (len.toNat - n - 1) := by
  apply BitVec.eq_of_toNat_eq
  have := len.isLt
  simp [bodyLength, BitVec.toNat_sub]; omega

/-- An event emitted where a consumer is registered, as one record update. -/
theorem emitEdge_eq (s : State) (ch : Nat) (v : Bool) :
    s.emitEdge ch v =
      { s with edges := s.edges ++ (if s.dis.consumerEn then [{ ch := ch, isActive := v }] else []) } := by
  unfold State.emitEdge; split <;> simp_all

end Sys2Proof.Machine
end

