-- ==== Sys2Proof/Laws/Step.lean ====
section
/-! SUPPORT. What the fetch selects, what an operation leaves alone whichever it is, and what a step can do. -/

namespace Sys2Proof.Machine

/-- The byte's operation where the watchdog fires. -/
theorem fetch_rx_timedOut {s : State} {b : Byte} {now : Nat} {rest : List InEvent}
    (hi : s.inputs = .rx b now :: rest) (ht : timeOk s.fdNow now = true)
    (hb : sessionWithin s.fd now = true) (hw : timedOut s.fd now = true) :
    fetch s = .run (.fdWdog s.fd.state b) := by
  have hne : s.fd.state ≠ .idle := by
    intro h; simp [timedOut, h] at hw
  simp only [fetch, hi, ht, hb, rxSelector, hw, decode, if_true, decodeRx_packRx_wdog _ _ _ hne, Fetch.ofDecoded]

/-- The byte's operation where the watchdog does not fire: the row of the state under its guard. -/
theorem fetch_rx {s : State} {b : Byte} {now : Nat} {rest : List InEvent}
    (hi : s.inputs = .rx b now :: rest) (ht : timeOk s.fdNow now = true)
    (hb : sessionWithin s.fd now = true) (hw : timedOut s.fd now = false) :
    fetch s = Fetch.ofDecoded (decodeRow s.fd.state (guardBits s.params s.fd b) b now) := by
  simp [fetch, hi, ht, hb, rxSelector, hw, decode]

/-- The sample's operation: the row of the channel's state under its condition. -/
theorem fetch_pass {s : State} {pins : Nat} {now : Nat} {rest : List InEvent} {c : Channel}
    (hi : s.inputs = .pass pins now :: rest) (ht : timeOk s.disNow now = true)
    (hc : s.dis.channels[s.passCh]? = some c) (hb : deadlineWithin s.params c now = true) :
    fetch s = .run (decodeCond c.state (asserted s.params (pinLevel pins s.passCh)) (expired c now) s.passCh now) := by
  simp [fetch, hi, ht, hc, hb, decode, sampleSelector, Fetch.ofDecoded]

/-- What no operation touches: the parameters, what the host has presented, the position of the pass, the times. -/
structure SameHost (s t : State) : Prop where
  params : t.params = s.params
  inputs : t.inputs = s.inputs
  passCh : t.passCh = s.passCh
  fdNow : t.fdNow = s.fdNow
  disNow : t.disNow = s.disNow

theorem SameHost.refl (s : State) : SameHost s s := ⟨rfl, rfl, rfl, rfl, rfl⟩

theorem sameHost_setFd (s : State) (r : FdRegs) : SameHost s (s.setFd r) := ⟨rfl, rfl, rfl, rfl, rfl⟩
theorem sameHost_reject (c : Cause) (s : State) : SameHost s (reject c s) := ⟨rfl, rfl, rfl, rfl, rfl⟩
theorem sameHost_setChannel (s : State) (ch : Nat) (c : Channel) : SameHost s (s.setChannel ch c) :=
  ⟨rfl, rfl, rfl, rfl, rfl⟩

theorem sameHost_changeChannel {ch : Nat} {f : Channel → Channel} {s t : State} (h : changeChannel ch f s = .next t) :
    SameHost s t := by
  obtain ⟨c, -, rfl⟩ := changeChannel_eq_next h
  exact sameHost_setChannel _ _ _

theorem sameHost_confirm {st : DbState} {v : Bool} {ch : Nat} {s t : State} (h : confirm st v ch s = .next t) :
    SameHost s t := by
  obtain ⟨c, -, rfl⟩ := confirm_eq_next h
  exact ⟨by simp, by simp, by simp, by simp, by simp⟩

/-- No operation touches what the host presented. -/
theorem exec_sameHost {i : Instr} {s t : State} (h : exec i s = .next t) : SameHost s t := by
  cases i with
  | hostResetFd => cases h; exact ⟨rfl, rfl, rfl, rfl, rfl⟩
  | hostResetDis => cases h; exact ⟨rfl, rfl, rfl, rfl, rfl⟩
  | fdHdrByte b =>
    obtain ⟨-, h⟩ := requireFd_eq_next h
    obtain ⟨u, hu, h⟩ := andThen_eq_next h
    obtain ⟨-, rfl⟩ := memWrite_next hu
    dsimp only at h
    split at h <;> cases h <;> exact ⟨rfl, rfl, rfl, rfl, rfl⟩
  | fdBodyByte b =>
    obtain ⟨-, h⟩ := requireFd_eq_next h
    obtain ⟨u, hu, h⟩ := andThen_eq_next h
    obtain ⟨-, rfl⟩ := memWrite_next hu
    cases h; exact ⟨rfl, rfl, rfl, rfl, rfl⟩
  | fdLenLo b =>
    obtain ⟨-, h⟩ := requireFd_eq_next h
    simp only [Host.Outcome.next.injEq] at h
    subst h
    split <;> exact ⟨rfl, rfl, rfl, rfl, rfl⟩
  | fdEopOk =>
    obtain ⟨-, h⟩ := requireFd_eq_next h
    split at h
    · cases h; exact ⟨by simp, by simp, by simp, by simp, by simp⟩
    · cases h
  | dbInitA _ _ _ | dbInitD _ _ _ | dbActLeave _ _ _ | dbInaLeave _ _ _ | dbPaBounce _ _ | dbPiBounce _ _
  | dbInvalid _ _ _ _ | dbPaWait _ | dbActStay _ _ | dbPiWait _ | dbInaStay _ _ =>
    obtain ⟨-, h⟩ := requireDis_eq_next h
    exact sameHost_changeChannel h
  | dbPaConfirm _ | dbPiConfirm _ =>
    obtain ⟨-, h⟩ := requireDis_eq_next h
    exact sameHost_confirm h
  | disSetConsumer _ | disRead _ =>
    obtain ⟨-, h⟩ := requireDis_eq_next h
    cases h; exact ⟨rfl, rfl, rfl, rfl, rfl⟩
  | fdWdog _ _ | fdIdleSop _ | fdIdleSkip _ | fdSopType | fdSopBadtype _ | fdLenHi _ | fdBodyOvf _ | fdDiscardDrop _
  | fdDiscardSop _ | fdCsumOk _ | fdCsumBad _ | fdEopBad _ | fdSetConsumer _ | fdReadState =>
    obtain ⟨-, h⟩ := requireFd_eq_next h
    cases h; exact ⟨rfl, rfl, rfl, rfl, rfl⟩

/-- What a step that goes on did: nothing where nothing was presented, else the fetched operation, then the retirement of
its event. -/
theorem step_eq_next {s t : State} (h : step s = .next t) :
    (fetch s = .idle ∧ t = s) ∨ ∃ i u, fetch s = .run i ∧ exec i s = .next u ∧ t = retire i u := by
  unfold step at h
  split at h
  · exact .inl ⟨‹_›, by cases h; rfl⟩
  · obtain ⟨u, hu, ht⟩ := andThen_eq_next h
    exact .inr ⟨_, u, ‹_›, hu, by cases ht; rfl⟩
  · cases h
  · cases h

/-- The step of a fetched operation that goes on. -/
theorem step_of_run {s u : State} {i : Instr} (hf : fetch s = .run i) (he : exec i s = .next u) :
    step s = .next (retire i u) := by simp [step, hf, he]

end Sys2Proof.Machine
end

