-- ==== Sys2Proof/Laws/Events.lean ====
section
/-! SUPPORT. What the whole operations on one input event do, said once: a byte, a sample, a stretch of stored bytes. -/

namespace Sys2Proof.Machine

/-! ### Runs of the machine -/

/-- One more step of a run. -/
theorem run_succ (n : Nat) (s : State) :
    Host.Core.run Sys2Proof.core (n + 1) s = andThen (step s) (Host.Core.run Sys2Proof.core n) := by
  have h : ∀ o : Outcome, step s = o →
      Host.Core.run Sys2Proof.core (n + 1) s = andThen o (Host.Core.run Sys2Proof.core n) := by
    intro o ho
    have ho' : Sys2Proof.core.step s = o := ho
    cases o <;> simp only [Host.Core.run, ho'] <;> rfl
  exact h _ rfl

/-- Where the fetch of a byte runs an operation, it is the watchdog's, or the row of the state. -/
theorem fetch_run_rx {s : State} {b : Byte} {now : Nat} {rest : List InEvent} {i : Instr}
    (hi : s.inputs = .rx b now :: rest) (hf : fetch s = .run i) :
    timeOk s.fdNow now = true ∧ sessionWithin s.fd now = true ∧ ((timedOut s.fd now = true ∧ i = .fdWdog s.fd.state b) ∨
      (timedOut s.fd now = false ∧ decodeRow s.fd.state (guardBits s.params s.fd b) b now = .instr i)) := by
  have ht : timeOk s.fdNow now = true := by
    by_contra h
    simp only [fetch, hi] at hf
    rw [if_neg h] at hf
    cases hf
  have hb : sessionWithin s.fd now = true := by
    by_contra h
    simp only [fetch, hi, ht, if_true] at hf
    rw [if_neg h] at hf
    cases hf
  refine ⟨ht, hb, ?_⟩
  cases hw : timedOut s.fd now with
  | true =>
    rw [fetch_rx_timedOut hi ht hb hw] at hf
    cases hf
    exact .inl ⟨rfl, rfl⟩
  | false =>
    rw [fetch_rx hi ht hb hw] at hf
    refine .inr ⟨rfl, ?_⟩
    cases hd : decodeRow s.fd.state (guardBits s.params s.fd b) b now with
    | instr j => rw [hd] at hf; cases hf; rfl
    | reject e => rw [hd] at hf; cases hf

/-! ### Bytes -/

/-- A byte in an open session that is in time, or in `idle`: the operation of its row. -/
theorem rx_row {s : State} {b : Byte} {now : Nat} {i : Instr} (hw : timedOut s.fd now = false)
    (hd : decodeRow s.fd.state (guardBits s.params s.fd b) b now = .instr i) : rx b now s = exec i s := by
  simp only [rx, hw, rxDispatch, rxSelector, decode]
  simp [hd, execDecoded]

theorem feed_append (l l' : List (Byte × Nat)) (s : State) : feed (l ++ l') s = andThen (feed l s) (feed l') := by
  induction l generalizing s with
  | nil => rfl
  | cons x l ih =>
    simp only [List.cons_append, feed, andThen_assoc]
    exact congrArg (andThen (rx x.1 x.2 s)) (funext ih)

theorem xorBytes_cons (b : Byte) (l : List Byte) : xorBytes (b :: l) = b ^^^ xorBytes l := by
  have h : ∀ (l : List Byte) (a : Byte), l.foldl (· ^^^ ·) a = a ^^^ l.foldl (· ^^^ ·) 0 := by
    intro l
    induction l with
    | nil => simp
    | cons x l ih =>
      intro a
      simp only [List.foldl_cons]
      rw [ih, ih (0 ^^^ x)]
      simp [BitVec.xor_assoc]
  simp only [xorBytes, List.foldl_cons]
  rw [h]
  simp

theorem xorBytes_append (a b : List Byte) : xorBytes (a ++ b) = xorBytes a ^^^ xorBytes b := by
  induction a with
  | nil => simp [xorBytes]
  | cons x a ih => rw [List.cons_append, xorBytes_cons, xorBytes_cons, ih, BitVec.xor_assoc]

/-- The bytes from 0 up to one that has just been stored there. -/
theorem readBytes_write (s : State) (r : FdRegs) (sp : Space) (n : Nat) (b : Byte)
    (hr : r.buffer sp = (s.fd.buffer sp).write n b) :
    (s.setFd r).readBytes sp 0 (n + 1) = s.readBytes sp 0 n ++ [b] := by
  rw [readBytes_succ]
  congr 1
  · simp only [State.readBytes]
    apply List.map_congr_left
    intro k hk
    have : k < n := by simpa using hk
    simp only [State.readByte, setFd_fd, hr, setFd_bufEpoch, Nat.zero_add]
    rw [Memory.read_write_other _ _ _ _ (by omega)]
  · simp [State.readByte, hr]

/-- A stretch of header bytes up to the last one: they stand in the buffer after the `done` ones, and the header is left. -/
theorem feed_header (rest done : List Byte) (times : List Nat) (s : State) (hi : s.fdInit = true)
    (hs : s.fd.state = .readHeader) (hc : s.fd.cnt.toNat = done.length) (hr : s.readBytes .hdr 0 done.length = done)
    (hl : done.length + rest.length = s.params.hdrSize) (hne : rest ≠ []) (hlen : s.params.hdrSize < s.fd.len.toNat)
    (htl : times.length = rest.length) (ht : ∀ x ∈ times, x ≤ s.fd.tStart + 500) :
    ∃ m, feed (rest.zip times) s = .next (s.setFd
        { s.fd with hdr := m, csum := s.fd.csum ^^^ xorBytes rest, cnt := 0,
                    bodyLen := bodyLength s.fd.len s.params.hdrSize,
                    state := if bodyLength s.fd.len s.params.hdrSize = 0 then .checksum else .readBody }) ∧
      (s.setFd { s.fd with hdr := m }).readBytes .hdr 0 s.params.hdrSize = done ++ rest := by
  induction rest generalizing done times s with
  | nil => exact absurd rfl hne
  | cons b rest ih =>
    obtain ⟨now, times, rfl⟩ : ∃ n ts, times = n :: ts := by
      cases times with
      | nil => simp at htl
      | cons n ts => exact ⟨n, ts, rfl⟩
    simp only [List.length_cons] at hl htl
    have hlt : s.fd.cnt.toNat < s.params.hdrSize := by omega
    have hlb := s.fd.len.isLt
    have hrb : ∀ r : FdRegs, r.hdr = s.fd.hdr.write s.fd.cnt.toNat b →
        (s.setFd r).readBytes .hdr 0 (done.length + 1) = done ++ [b] := by
      intro r hr'
      have hr' : r.buffer .hdr = (s.fd.buffer .hdr).write s.fd.cnt.toNat b := hr'
      rw [hc] at hr'
      rw [readBytes_write s r .hdr _ b hr', hr]
    rw [List.zip_cons_cons, feed]
    dsimp only
    rw [rx_row (i := .fdHdrByte b) (timedOut_of_le (ht now (by simp))) (by rw [hs]; simp [decodeRow, guardBits, hs])]
    simp only [exec, execFdHdrByte, requireFd_of_init hi, memWrite_of_lt b (sp := .hdr) hlt, andThen_next]
    by_cases hlast : rest = []
    · subst hlast
      simp only [List.length_nil] at hl
      rw [if_neg (by omega)]
      refine ⟨s.fd.hdr.write s.fd.cnt.toNat b, ?_, ?_⟩
      · simp only [andThen_next, List.zip_nil_left, feed]
        simp [FdRegs.setBuffer, FdRegs.buffer, xorBytes, State.setFd]
      · rw [← hl]; exact hrb _ rfl
    · have hpos : 0 < rest.length := List.length_pos_iff.2 hlast
      rw [if_pos (by omega), andThen_next]
      set u := (s.setFd (s.fd.setBuffer .hdr ((s.fd.buffer .hdr).write s.fd.cnt.toNat b))).setFd
        { (s.setFd (s.fd.setBuffer .hdr ((s.fd.buffer .hdr).write s.fd.cnt.toNat b))).fd with
          csum := s.fd.csum ^^^ b, cnt := s.fd.cnt + 1 }
      have hcnt : (s.fd.cnt + 1).toNat = done.length + 1 := by simp [BitVec.toNat_add]; omega
      obtain ⟨m, h, h'⟩ := ih (done ++ [b]) times u hi hs
        (by show (s.fd.cnt + 1).toNat = _; rw [hcnt]; simp)
        (by rw [List.length_append, List.length_singleton]; exact hrb _ rfl)
        (by simp; show _ = s.params.hdrSize; omega) hlast hlen (by omega) (fun x hx => ht x (by simp [hx]))
      refine ⟨m, ?_, ?_⟩
      · rw [h, xorBytes_cons, ← BitVec.xor_assoc]; rfl
      · rw [List.append_cons]; exact h'

/-- A stretch of body bytes up to the last one: they stand in the buffer after the `done` ones, and the body is left. -/
theorem feed_body (rest done : List Byte) (times : List Nat) (s : State) (hi : s.fdInit = true)
    (hs : s.fd.state = .readBody) (hc : s.fd.cnt.toNat = done.length) (hr : s.readBytes .body 0 done.length = done)
    (hl : done.length + rest.length = s.fd.bodyLen.toNat) (hne : rest ≠ [])
    (hcap : s.fd.bodyLen.toNat ≤ s.params.bodyCap) (htl : times.length = rest.length)
    (ht : ∀ x ∈ times, x ≤ s.fd.tStart + 500) :
    ∃ m k, feed (rest.zip times) s = .next (s.setFd
        { s.fd with body := m, csum := s.fd.csum ^^^ xorBytes rest, cnt := k, state := .checksum }) ∧
      (s.setFd { s.fd with body := m }).readBytes .body 0 s.fd.bodyLen.toNat = done ++ rest := by
  induction rest generalizing done times s with
  | nil => exact absurd rfl hne
  | cons b rest ih =>
    obtain ⟨now, times, rfl⟩ : ∃ n ts, times = n :: ts := by
      cases times with
      | nil => simp at htl
      | cons n ts => exact ⟨n, ts, rfl⟩
    simp only [List.length_cons] at hl htl
    have hlt : s.fd.cnt.toNat < s.params.bodyCap := by omega
    have hlb := s.fd.bodyLen.isLt
    have hrb : ∀ r : FdRegs, r.body = s.fd.body.write s.fd.cnt.toNat b →
        (s.setFd r).readBytes .body 0 (done.length + 1) = done ++ [b] := by
      intro r hr'
      have hr' : r.buffer .body = (s.fd.buffer .body).write s.fd.cnt.toNat b := hr'
      rw [hc] at hr'
      rw [readBytes_write s r .body _ b hr', hr]
    rw [List.zip_cons_cons, feed]
    dsimp only
    rw [rx_row (i := .fdBodyByte b) (timedOut_of_le (ht now (by simp)))
      (by rw [hs]; simp [decodeRow, guardBits, hs, show ¬ s.params.bodyCap ≤ s.fd.cnt.toNat by omega])]
    simp only [exec, execFdBodyByte, requireFd_of_init hi, memWrite_of_lt b (sp := .body) hlt, andThen_next]
    by_cases hlast : rest = []
    · subst hlast
      simp only [List.length_nil] at hl
      rw [if_pos (by omega)]
      refine ⟨s.fd.body.write s.fd.cnt.toNat b, s.fd.cnt + 1, ?_, ?_⟩
      · simp only [List.zip_nil_left, feed]
        simp [FdRegs.setBuffer, FdRegs.buffer, xorBytes, State.setFd]
      · rw [← hl]; exact hrb _ rfl
    · have hpos : 0 < rest.length := List.length_pos_iff.2 hlast
      rw [if_neg (by omega)]
      set u := (s.setFd (s.fd.setBuffer .body ((s.fd.buffer .body).write s.fd.cnt.toNat b))).setFd
        { (s.setFd (s.fd.setBuffer .body ((s.fd.buffer .body).write s.fd.cnt.toNat b))).fd with
          csum := s.fd.csum ^^^ b, cnt := s.fd.cnt + 1, state := s.fd.state }
      have hcnt : (s.fd.cnt + 1).toNat = done.length + 1 := by simp [BitVec.toNat_add]; omega
      obtain ⟨m, k, h, h'⟩ := ih (done ++ [b]) times u hi hs
        (by show (s.fd.cnt + 1).toNat = _; rw [hcnt]; simp)
        (by rw [List.length_append, List.length_singleton]; exact hrb _ rfl)
        (by simp; show _ = s.fd.bodyLen.toNat; omega) hlast hcap (by omega) (fun x hx => ht x (by simp [hx]))
      refine ⟨m, k, ?_, ?_⟩
      · rw [h, xorBytes_cons, ← BitVec.xor_assoc]; rfl
      · rw [List.append_cons]; exact h'

/-! ### Samples -/

/-- A sample of a channel that exists: the operation of its row. -/
theorem sample_of {ch : Nat} {level : Bool} {now : Nat} {s : State} {c : Channel} (hc : s.dis.channels[ch]? = some c) :
    sample ch level now s = exec (decodeCond c.state (asserted s.params level) (expired c now) ch now) s := by
  simp [sample, hc, decode, sampleSelector, execDecoded]

/-- A sample that goes on is one of a channel that exists. -/
theorem sample_eq_next {ch : Nat} {level : Bool} {now : Nat} {s t : State} (h : sample ch level now s = .next t) :
    ∃ c, s.dis.channels[ch]? = some c ∧
      exec (decodeCond c.state (asserted s.params level) (expired c now) ch now) s = .next t := by
  cases hc : s.dis.channels[ch]? with
  | none => simp [sample, hc] at h
  | some c => exact ⟨c, rfl, (sample_of hc).symm.trans h⟩

/-- What an operation of a channel does: one new value for the channel and at most events added, the same from every state
in which the channel, the parameters and the consumer bit are the same. -/
theorem exec_decodeCond (s : State) (c : Channel) (ch : Nat) (a e : Bool) (now : Nat) (hi : s.disInit = true)
    (hc : s.dis.channels[ch]? = some c) :
    ∃ c' v, exec (decodeCond c.state a e ch now) s = .next { s.setChannel ch c' with edges := s.edges ++ v } ∧
      ∀ s' : State, s'.disInit = true → s'.params = s.params → s'.dis.consumerEn = s.dis.consumerEn →
        s'.dis.channels[ch]? = some c →
        exec (decodeCond c.state a e ch now) s' = .next { s'.setChannel ch c' with edges := s'.edges ++ v } := by
  obtain ⟨st, d⟩ := c
  have stays : ∀ s : State, s.disInit = true → s.dis.channels[ch]? = some { state := st, deadline := d } →
      requireDis s (stay ch s) =
        .next { s.setChannel ch { state := st, deadline := d } with edges := s.edges ++ [] } := by
    intro s hi hc
    obtain ⟨hlt, h⟩ := List.getElem?_eq_some_iff.1 hc
    rw [requireDis_of_init hi, stay_of_some hc]
    simp [State.setChannel, State.setDis, ← h]
  have arms : ∀ (s s' : State) st', s'.params = s.params → s'.disInit = true →
      s'.dis.channels[ch]? = some { state := st, deadline := d } →
      requireDis s' (armInto st' ch now s') =
        .next { s'.setChannel ch { state := st', deadline := now + s.params.holdTicks } with
          edges := s'.edges ++ [] } := by
    intro s s' st' hp hi hc
    rw [requireDis_of_init hi, armInto_of_some hc, hp]
    simp [State.setChannel, State.setDis]
  have moves : ∀ (s : State) st', s.disInit = true → s.dis.channels[ch]? = some { state := st, deadline := d } →
      requireDis s (moveTo st' ch s) =
        .next { s.setChannel ch { state := st', deadline := d } with edges := s.edges ++ [] } := by
    intro s st' hi hc
    rw [requireDis_of_init hi, moveTo_of_some hc]
    simp [State.setChannel, State.setDis]
  have confirms : ∀ (s s' : State) st' v, s'.dis.consumerEn = s.dis.consumerEn → s'.disInit = true →
      s'.dis.channels[ch]? = some { state := st, deadline := d } →
      requireDis s' (confirm st' v ch s') =
        .next { s'.setChannel ch { state := st', deadline := d } with
          edges := s'.edges ++ (if s.dis.consumerEn then [{ ch := ch, isActive := v }] else []) } := by
    intro s s' st' v hp hi hc
    rw [requireDis_of_init hi, confirm_of_some hc, emitEdge_eq, ← hp]
    rfl
  cases st <;> cases a <;> cases e <;> simp only [decodeCond, if_true, if_false, Bool.false_eq_true] <;>
    first
    | exact ⟨_, _, stays s hi hc, fun s' hd _ _ hc' => stays s' hd hc'⟩
    | exact ⟨_, _, arms s s _ rfl hi hc, fun s' hd hp _ hc' => arms s s' _ hp hd hc'⟩
    | exact ⟨_, _, moves s _ hi hc, fun s' hd _ _ hc' => moves s' _ hd hc'⟩
    | exact ⟨_, _, confirms s s _ _ rfl hi hc, fun s' hd _ hn hc' => confirms s s' _ _ hn hd hc'⟩

/-- A sample goes on only after the sampler's first reset. -/
theorem disInit_of_sample {ch : Nat} {level : Bool} {now : Nat} {s t : State} (h : sample ch level now s = .next t) :
    s.disInit = true := by
  obtain ⟨c, -, he⟩ := sample_eq_next h
  revert he
  generalize asserted _ _ = a
  generalize expired _ _ = e
  cases c.state <;> cases a <;> cases e <;> exact fun he => (requireDis_eq_next he).1

theorem samplesOf_append (ch : Nat) (l l' : List (Bool × Nat)) (s : State) :
    samplesOf ch (l ++ l') s = andThen (samplesOf ch l s) (samplesOf ch l') := by
  induction l generalizing s with
  | nil => rfl
  | cons x l ih =>
    simp only [List.cons_append, samplesOf, andThen_assoc]
    exact congrArg (andThen (sample ch x.1 x.2 s)) (funext ih)

end Sys2Proof.Machine
end

