-- ==== Sys2Proof/Laws/PerInstr.lean ====
section
/-! SUPPORT. Per instruction: the encoder's selector lies in the row that spec/opcode_table.json gives the operation
(`sel & mask = match`, 30_encoding.md R120), and an operation without a row of bits has no encoding. -/

namespace Sys2Proof.Laws.TableRow

/-- The `match` and `mask` of an operation's row in spec/opcode_table.json; none for a host operation. -/
def row : Instr → Option (Nat × Nat)
  | .fdWdog _ _ => some (0x000, 0x000)
  | .fdIdleSop _ => some (0x01B, 0x7FF)
  | .fdIdleSkip _ => some (0x000, 0x700)
  | .fdSopType => some (0x153, 0x7FF)
  | .fdSopBadtype _ => some (0x100, 0x700)
  | .fdLenHi _ => some (0x200, 0x700)
  | .fdLenLo _ => some (0x200, 0x700)
  | .fdHdrByte _ => some (0x300, 0x700)
  | .fdBodyByte _ => some (0x400, 0x700)
  | .fdBodyOvf _ => some (0x400, 0x700)
  | .fdDiscardDrop _ => some (0x700, 0x700)
  | .fdDiscardSop _ => some (0x71B, 0x7FF)
  | .fdCsumOk _ => some (0x500, 0x700)
  | .fdCsumBad _ => some (0x500, 0x700)
  | .fdEopOk => some (0x60A, 0x7FF)
  | .fdEopBad _ => some (0x600, 0x700)
  | .dbInitA _ _ _ => some (0b00010, 0b11110)
  | .dbInitD _ _ _ => some (0b00000, 0b11110)
  | .dbPaBounce _ _ => some (0b00100, 0b11110)
  | .dbPaConfirm _ => some (0b00111, 0b11111)
  | .dbPaWait _ => some (0b00110, 0b11111)
  | .dbActStay _ _ => some (0b01010, 0b11110)
  | .dbActLeave _ _ _ => some (0b01000, 0b11110)
  | .dbPiBounce _ _ => some (0b01110, 0b11110)
  | .dbPiConfirm _ => some (0b01101, 0b11111)
  | .dbPiWait _ => some (0b01100, 0b11111)
  | .dbInaStay _ _ => some (0b10000, 0b11110)
  | .dbInaLeave _ _ _ => some (0b10010, 0b11110)
  | .dbInvalid _ _ _ _ => some (0b10000, 0b10000)
  | .hostResetFd | .hostResetDis | .fdSetConsumer _ | .disSetConsumer _ | .disRead _ | .fdReadState => none

/-- The selector bits of a fetched word. -/
def selector : Fetched → Nat
  | .rx sel _ => sel.toNat
  | .sample sel _ _ => sel.toNat

/-- The selector of an instruction matches its row, and it has one exactly where the table gives it bits. -/
def fits (i : Instr) : Bool :=
  match row i, encode i with
  | some (m, k), some f => decide (selector f &&& k = m)
  | none, none => true
  | _, _ => false

/-- A well-formed instruction fits its row. -/
def Statement (i : Instr) : Prop := i.wellFormed = true → fits i = true

/-- An RX selector matches a row that fixes the state only. -/
theorem selector_state (w : Bool) (g : BitVec 2) (st : FdState) (b : Byte) :
    (packRx w g st b).toNat &&& 0x700 = st.code.toNat * 256 := by
  have h : (packRx w g st b &&& 0x700#16) = st.code.setWidth 16 <<< 8 := by
    apply BitVec.eq_of_getLsbD_eq
    intro i hi
    rw [BitVec.getLsbD_and, getLsbD_packRx]
    have : i = 0 ∨ i = 1 ∨ i = 2 ∨ i = 3 ∨ i = 4 ∨ i = 5 ∨ i = 6 ∨ i = 7 ∨ i = 8 ∨ i = 9 ∨ i = 10 ∨ i = 11 ∨ i = 12 ∨
        i = 13 ∨ i = 14 ∨ i = 15 := by omega
    rcases this with rfl | rfl | rfl | rfl | rfl | rfl | rfl | rfl | rfl | rfl | rfl | rfl | rfl | rfl | rfl | rfl <;>
      cases st <;> simp [FdState.code]
  have h2 := congrArg BitVec.toNat h
  rw [BitVec.toNat_and] at h2
  rw [show (0x700 : Nat) = (0x700#16).toNat from rfl, h2]
  cases st <;> rfl

/-- A closed fact about a packed selector is a fact about the fetched word. -/
theorem selector_rx {sel : BitVec 16} {now : Nat} {k m : Nat} (h : sel.toNat &&& k = m) :
    decide (selector (.rx sel now) &&& k = m) = true := decide_eq_true h

/-- A closed fact about a packed selector is a fact about the fetched word. -/
theorem selector_sample {sel : BitVec 8} {ch : Nat} {now : Nat} {k m : Nat} (h : sel.toNat &&& k = m) :
    decide (selector (.sample sel ch now) &&& k = m) = true := decide_eq_true h

theorem fdWdog (st : FdState) (b : Byte) : Statement (.fdWdog st b) := fun _ => decide_eq_true (Nat.and_zero _)
theorem fdIdleSop (now : Nat) : Statement (.fdIdleSop now) := fun _ => by
  exact selector_rx (by decide)
theorem fdIdleSkip (b : Byte) : Statement (.fdIdleSkip b) := fun _ => decide_eq_true (selector_state _ _ _ _)
theorem fdSopType : Statement .fdSopType := fun _ => rfl
theorem fdSopBadtype (b : Byte) : Statement (.fdSopBadtype b) := fun _ => decide_eq_true (selector_state _ _ _ _)
theorem fdLenHi (b : Byte) : Statement (.fdLenHi b) := fun _ => decide_eq_true (selector_state _ _ _ _)
theorem fdLenLo (b : Byte) : Statement (.fdLenLo b) := fun _ => decide_eq_true (selector_state _ _ _ _)
theorem fdHdrByte (b : Byte) : Statement (.fdHdrByte b) := fun _ => decide_eq_true (selector_state _ _ _ _)
theorem fdBodyByte (b : Byte) : Statement (.fdBodyByte b) := fun _ => decide_eq_true (selector_state _ _ _ _)
theorem fdBodyOvf (b : Byte) : Statement (.fdBodyOvf b) := fun _ => decide_eq_true (selector_state _ _ _ _)
theorem fdDiscardDrop (b : Byte) : Statement (.fdDiscardDrop b) := fun _ => decide_eq_true (selector_state _ _ _ _)
theorem fdDiscardSop (now : Nat) : Statement (.fdDiscardSop now) := fun _ => by
  exact selector_rx (by decide)
theorem fdCsumOk (b : Byte) : Statement (.fdCsumOk b) := fun _ => decide_eq_true (selector_state _ _ _ _)
theorem fdCsumBad (b : Byte) : Statement (.fdCsumBad b) := fun _ => decide_eq_true (selector_state _ _ _ _)
theorem fdEopOk : Statement .fdEopOk := fun _ => rfl
theorem fdEopBad (b : Byte) : Statement (.fdEopBad b) := fun _ => decide_eq_true (selector_state _ _ _ _)
theorem dbInitA (ch : Nat) (now : Nat) (e : Bool) : Statement (.dbInitA ch now e) := fun _ => by
  cases e <;> exact selector_sample (by decide)
theorem dbInitD (ch : Nat) (now : Nat) (e : Bool) : Statement (.dbInitD ch now e) := fun _ => by
  cases e <;> exact selector_sample (by decide)
theorem dbPaBounce (ch : Nat) (e : Bool) : Statement (.dbPaBounce ch e) := fun _ => by
  cases e <;> exact selector_sample (by decide)
theorem dbPaConfirm (ch : Nat) : Statement (.dbPaConfirm ch) := fun _ => by
  exact selector_sample (by decide)
theorem dbPaWait (ch : Nat) : Statement (.dbPaWait ch) := fun _ => by
  exact selector_sample (by decide)
theorem dbActStay (ch : Nat) (e : Bool) : Statement (.dbActStay ch e) := fun _ => by
  cases e <;> exact selector_sample (by decide)
theorem dbActLeave (ch : Nat) (now : Nat) (e : Bool) : Statement (.dbActLeave ch now e) := fun _ => by
  cases e <;> exact selector_sample (by decide)
theorem dbPiBounce (ch : Nat) (e : Bool) : Statement (.dbPiBounce ch e) := fun _ => by
  cases e <;> exact selector_sample (by decide)
theorem dbPiConfirm (ch : Nat) : Statement (.dbPiConfirm ch) := fun _ => by
  exact selector_sample (by decide)
theorem dbPiWait (ch : Nat) : Statement (.dbPiWait ch) := fun _ => by
  exact selector_sample (by decide)
theorem dbInaStay (ch : Nat) (e : Bool) : Statement (.dbInaStay ch e) := fun _ => by
  cases e <;> exact selector_sample (by decide)
theorem dbInaLeave (ch : Nat) (now : Nat) (e : Bool) : Statement (.dbInaLeave ch now e) := fun _ => by
  cases e <;> exact selector_sample (by decide)
theorem dbInvalid (ch : Nat) (st : DbState) (a e : Bool) : Statement (.dbInvalid ch st a e) := by
  intro h
  cases st <;> first | exact absurd h Bool.false_ne_true | (cases a <;> cases e <;> exact selector_sample (by decide))
theorem hostResetFd : Statement .hostResetFd := fun _ => rfl
theorem hostResetDis : Statement .hostResetDis := fun _ => rfl
theorem fdSetConsumer (p : Bool) : Statement (.fdSetConsumer p) := fun _ => rfl
theorem disSetConsumer (p : Bool) : Statement (.disSetConsumer p) := fun _ => rfl
theorem disRead (ch : Nat) : Statement (.disRead ch) := fun _ => rfl
theorem fdReadState : Statement .fdReadState := fun _ => rfl

end Sys2Proof.Laws.TableRow
end

