-- ==== Sys2Proof/Tests/Slice0.lean ====
section
/-! SUPPORT. The model's own tests: ill-formed terms refused, words written out from the table, single operations with the
results of 95_test_vectors.md, and for every obligation with hypotheses a state that meets them. -/

open Sys2Proof Sys2Proof.Machine

namespace Sys2Proof.Tests

/-! ### States for the tests -/

/-- Parameters with the illustrations of 95_test_vectors.md (`HOLD_TICKS` 30, `REASON_OFF` 0x02), a header of 2 bytes and room
for 4 body bytes, 2 channels. -/
def small : Params where
  hdrSize := 2
  bodyCap := 4
  holdTicks := 30
  samplePeriod := 10
  nCh := 2
  pinId := [0, 1]
  assertedLevel := false
  readPiAsActive := true
  discardResync := true
  sampleBe := true
  reasonOff := 0x02
  reasonDemand := 0x03
  iScale := 1
  vScale := 1
  inrushTol := 0

/-- The decoder in the state `st`, consumer registered, with the byte `b` at the time `now` presented. -/
def fdAt (st : FdState) (b : Byte) (now : Nat) : State :=
  { State.resetWith small with
    fd := { FdRegs.reset with state := st, consumerEn := true }, inputs := [.rx b now] }

/-- Channel 0 in the state `st` with the deadline `d`, consumer registered, with a pass at the time `now` presented in which
channel 0 is asserted where `a`. -/
def disAt (st : DbState) (d : Nat) (a : Bool) (now : Nat) : State :=
  { State.resetWith small with
    dis := { channels := [{ state := st, deadline := d }, Channel.reset], consumerEn := true },
    inputs := [.pass (if a then 2 else 3) now] }

/-- The next state of an outcome; the machine before any reset where there is none. -/
def nextOf (o : Outcome) : State :=
  match o with
  | .next t => t
  | .fault _ | .refused _ => State.powerOn

/-- The registers and events of the frame decoder after one step; none where it stops. -/
def fdAfter (s : State) : Option (FdRegs × List FdEvent) :=
  match step s with
  | .next t => some (t.fd, t.fdOut)
  | .fault _ | .refused _ => none

/-- The channels and events of the sampler after one step; none where it stops. -/
def disAfter (s : State) : Option (List Channel × List Edge) :=
  match step s with
  | .next t => some (t.dis.channels, t.edges)
  | .fault _ | .refused _ => none

/-! ### WellFormed refuses an ill-formed term of each check -/

theorem test_wf_wdog_in_idle : (Instr.fdWdog .idle 0x41).wellFormed = false := by decide
theorem test_wf_skip_of_marker : (Instr.fdIdleSkip 0x1B).wellFormed = false := by decide
theorem test_wf_badtype_of_type : (Instr.fdSopBadtype 0x53).wellFormed = false := by decide
theorem test_wf_bad_end_of_end : (Instr.fdEopBad 0x0A).wellFormed = false := by decide
theorem test_wf_invalid_of_state : (Instr.dbInvalid 0 .active true true).wellFormed = false := by decide
theorem test_wf_accepts : (Instr.fdWdog .eop 0x0A).wellFormed = true ∧ (Instr.fdIdleSkip 0x0A).wellFormed = true ∧
    (Instr.dbInvalid 0 .invalid6 true true).wellFormed = true := by decide

/-! ### Words of the table (30_encoding.md R110, R111: `fd_state` in bits 10:8 and the byte in 7:0; `db_state` in bits 4:2,
`asserted` in 1, `expired` in 0), and the guard bits of the model (log 9) -/

theorem test_word_idle_sop : decodeTableWord 16 0b000_00011011 = some (.fdIdleSop 0) := by decide
theorem test_word_idle_skip : decodeTableWord 16 0b000_01010011 = some (.fdIdleSkip 0x53) := by decide
theorem test_word_sop_type : decodeTableWord 16 0b001_01010011 = some .fdSopType := by decide
theorem test_word_sop_badtype : decodeTableWord 16 0b001_00011011 = some (.fdSopBadtype 0x1B) := by decide
theorem test_word_len_hi : decodeTableWord 16 0b010_00000000 = some (.fdLenHi 0x00) := by decide
theorem test_word_len_lo : decodeTableWord 16 0b01_010_00011000 = some (.fdLenLo 0x18) := by decide
theorem test_word_hdr_byte : decodeTableWord 16 0b011_00000101 = some (.fdHdrByte 0x05) := by decide
theorem test_word_body_byte : decodeTableWord 16 0b100_11111111 = some (.fdBodyByte 0xFF) := by decide
theorem test_word_body_ovf : decodeTableWord 16 0b01_100_00000000 = some (.fdBodyOvf 0x00) := by decide
theorem test_word_discard_drop : decodeTableWord 16 0b111_00001010 = some (.fdDiscardDrop 0x0A) := by decide
theorem test_word_discard_drop_marker : decodeTableWord 16 0b01_111_00011011 = some (.fdDiscardDrop 0x1B) := by decide
theorem test_word_discard_sop : decodeTableWord 16 0b111_00011011 = some (.fdDiscardSop 0) := by decide
theorem test_word_csum_ok : decodeTableWord 16 0b101_10010111 = some (.fdCsumOk 0x97) := by decide
theorem test_word_csum_bad : decodeTableWord 16 0b01_101_10010110 = some (.fdCsumBad 0x96) := by decide
theorem test_word_eop_ok : decodeTableWord 16 0b110_00001010 = some .fdEopOk := by decide
theorem test_word_eop_bad : decodeTableWord 16 0b110_00001011 = some (.fdEopBad 0x0B) := by decide
theorem test_word_wdog : decodeTableWord 16 0b1_00_011_00000000 = some (.fdWdog .readHeader 0x00) := by decide

theorem test_word_init_a : decodeTableWord 8 0b000_1_1 = some (.dbInitA 0 0 true) := by decide
theorem test_word_init_d : decodeTableWord 8 0b000_0_1 = some (.dbInitD 0 0 true) := by decide
theorem test_word_pa_bounce : decodeTableWord 8 0b001_0_1 = some (.dbPaBounce 0 true) := by decide
theorem test_word_pa_confirm : decodeTableWord 8 0b001_1_1 = some (.dbPaConfirm 0) := by decide
theorem test_word_pa_wait : decodeTableWord 8 0b001_1_0 = some (.dbPaWait 0) := by decide
theorem test_word_act_stay : decodeTableWord 8 0b010_1_0 = some (.dbActStay 0 false) := by decide
theorem test_word_act_leave : decodeTableWord 8 0b010_0_0 = some (.dbActLeave 0 0 false) := by decide
theorem test_word_pi_bounce : decodeTableWord 8 0b011_1_1 = some (.dbPiBounce 0 true) := by decide
theorem test_word_pi_confirm : decodeTableWord 8 0b011_0_1 = some (.dbPiConfirm 0) := by decide
theorem test_word_pi_wait : decodeTableWord 8 0b011_0_0 = some (.dbPiWait 0) := by decide
theorem test_word_ina_stay : decodeTableWord 8 0b100_0_1 = some (.dbInaStay 0 true) := by decide
theorem test_word_ina_leave : decodeTableWord 8 0b100_1_0 = some (.dbInaLeave 0 0 false) := by decide
theorem test_word_invalid : decodeTableWord 8 0b101_0_1 = some (.dbInvalid 0 .invalid5 false true) := by decide

theorem test_word_reserved : decodeTableWord 16 0x4000 = none ∧ decodeTableWord 16 0x8000 = none ∧
    decodeTableWord 8 0b00100000 = none := by decide
theorem test_word_guard_of_no_row : decodeTableWord 16 0b01_000_00000000 = none ∧
    decodeTableWord 16 0b10_010_00000000 = none ∧ decodeTableWord 16 0b10_100_00000000 = none ∧
    decodeTableWord 16 0b01_111_00001010 = none ∧ decodeTableWord 16 0b1_00_000_00000000 = none := by decide

/-- The kernel evaluates the placing of a pending channel's word, whatever the OPEN `HOLD_TICKS` is (log 2). -/
theorem test_pending_word_runs : fetch (State.reset.withFetchWord 8 0b00111) = .run (.dbPaConfirm 0) := by decide

/-! ### One step each, with the results of 95_test_vectors.md -/

/-- T1, byte 0. -/
theorem test_idle_sop : fdAfter (fdAt .idle 0x1B 7) =
    some ({ FdRegs.reset with state := .sop, tStart := 7, consumerEn := true }, []) := by decide
/-- T5, a byte before any marker. -/
theorem test_idle_skip : fdAfter (fdAt .idle 0x0A 0) = some ({ FdRegs.reset with consumerEn := true }, []) := by decide
/-- T1, byte 1. -/
theorem test_sop_type : fdAfter (fdAt .sop 0x53 1) =
    some ({ FdRegs.reset with state := .readLength, typ := 0x53, csum := 0x53, consumerEn := true }, []) := by decide
/-- T5, `1B 1B`: the second marker is no start. -/
theorem test_sop_badtype : fdAfter (fdAt .sop 0x1B 0) =
    some ({ FdRegs.reset with consumerEn := true }, [.diag .badType]) := by decide
/-- T5, the length byte FF: bits 15:8 only, 53 ^ FF = AC. -/
theorem test_len_hi : fdAfter { fdAt .readLength 0xFF 0 with
      fd := { FdRegs.reset with state := .readLength, typ := 0x53, csum := 0x53, len := 0x1234 } } =
    some ({ FdRegs.reset with state := .readLength, typ := 0x53, csum := 0xAC, len := 0xFF34, cnt := 1 }, []) := by decide
/-- T5, the second length byte FF: AC ^ FF = 53, the length FFFF is accepted. -/
theorem test_len_lo_accepts : fdAfter { fdAt .readLength 0xFF 0 with
      fd := { FdRegs.reset with state := .readLength, typ := 0x53, csum := 0xAC, len := 0xFF00, cnt := 1 } } =
    some ({ FdRegs.reset with state := .readHeader, typ := 0x53, csum := 0x53, len := 0xFFFF, cnt := 0 }, []) := by decide
/-- T5, a length equal to `HDR_SIZE` is too small; the registers are written before the check. -/
theorem test_len_lo_rejects : fdAfter { fdAt .readLength 0x02 0 with
      fd := { FdRegs.reset with state := .readLength, typ := 0x53, csum := 0x53, cnt := 1 } } =
    some ({ FdRegs.reset with state := .idle, typ := 0x53, csum := 0x51, len := 2, cnt := 1 }, [.diag .lenTooSmall]) := by
  decide
/-- T1, byte 18: the last header byte fixes the body length. -/
theorem test_hdr_byte_last : fdAfter { fdAt .readHeader 0x05 0 with
      fd := { FdRegs.reset with state := .readHeader, csum := 0x4A, len := 11, cnt := 1, hdr := [(0, 0x01)] } } =
    some ({ FdRegs.reset with
      state := .readBody, csum := 0x4F, len := 11, bodyLen := 8, hdr := [(0, 0x01), (1, 0x05)] }, []) := by decide
/-- T4: an empty body goes straight to `checksum`. -/
theorem test_hdr_byte_empty_body : fdAfter { fdAt .readHeader 0x05 0 with
      fd := { FdRegs.reset with state := .readHeader, len := 3, cnt := 1 } } =
    some ({ FdRegs.reset with state := .checksum, csum := 0x05, len := 3, hdr := [(1, 0x05)] }, []) := by decide
/-- T1, byte 21: 5D ^ FF = A2. -/
theorem test_body_byte : fdAfter { fdAt .readBody 0xFF 0 with
      fd := { FdRegs.reset with state := .readBody, csum := 0x5D, cnt := 2, bodyLen := 8 } } =
    some ({ FdRegs.reset with state := .readBody, csum := 0xA2, cnt := 3, bodyLen := 8, body := [(2, 0xFF)] }, []) := by
  decide
/-- T1, byte 26: BB ^ 2C = 97, the last body byte leaves for `checksum`. -/
theorem test_body_byte_last : fdAfter { fdAt .readBody 0x2C 0 with
      fd := { FdRegs.reset with state := .readBody, csum := 0xBB, cnt := 3, bodyLen := 4 } } =
    some ({ FdRegs.reset with state := .checksum, csum := 0x97, cnt := 4, bodyLen := 4, body := [(3, 0x2C)] }, []) := by
  decide
/-- T6 (a), byte 23, with `BODY_CAP` 4: nothing stored, the checksum stays 9A. -/
theorem test_body_ovf : fdAfter { fdAt .readBody 0x00 23 with
      fd := { FdRegs.reset with state := .readBody, csum := 0x9A, cnt := 4, bodyLen := 8 } } =
    some ({ FdRegs.reset with state := .discard, csum := 0x9A, cnt := 4, bodyLen := 8 }, [.diag .bodyOverflow]) := by
  decide
/-- T6 (a), byte 24. -/
theorem test_discard_drop : fdAfter (fdAt .discard 0x20 24) =
    some ({ FdRegs.reset with state := .discard, consumerEn := true }, []) := by decide
/-- T6 (b): without `DISCARD_RESYNC` a marker is dropped too. -/
theorem test_discard_drop_marker : fdAfter { fdAt .discard 0x1B 29 with params := { small with discardResync := false } } =
    some ({ FdRegs.reset with state := .discard, consumerEn := true }, []) := by decide
/-- T6 (a), byte 29. -/
theorem test_discard_sop : fdAfter (fdAt .discard 0x1B 29) =
    some ({ FdRegs.reset with state := .sop, tStart := 29, consumerEn := true }, []) := by decide
/-- T1, byte 27: the checksum byte is not folded in. -/
theorem test_csum_ok : fdAfter { fdAt .checksum 0x97 0 with
      fd := { FdRegs.reset with state := .checksum, csum := 0x97 } } =
    some ({ FdRegs.reset with state := .eop, csum := 0x97 }, []) := by decide
/-- T3, byte 27. -/
theorem test_csum_bad : fdAfter { fdAt .checksum 0x97 0 with
      fd := { FdRegs.reset with state := .checksum, csum := 0x96 } } =
    some ({ FdRegs.reset with csum := 0x96 }, [.diag .csumMismatch]) := by decide
/-- T8 (b): without a consumer the end marker delivers nothing. -/
theorem test_eop_ok_no_consumer : fdAfter { fdAt .eop 0x0A 0 with fd := { FdRegs.reset with state := .eop } } =
    some (FdRegs.reset, []) := by decide
/-- T1, byte 28: one frame with the buffered bytes. -/
theorem test_eop_ok : (fdAfter { fdAt .eop 0x0A 0 with
      fd := { FdRegs.reset with
        state := .eop, typ := 0x53, len := 5, bodyLen := 2, hdr := [(0, 3), (1, 9)], body := [(0, 7), (1, 8)],
        consumerEn := true } }).map (fun x => x.2.map (fun e => match e with
        | .frame f => (f.typ, f.len, f.hdrBytes, f.bodyBytes, f.bodyLen)
        | .diag _ => (0, 0, [], [], 0))) = some [(0x53, 5, [3, 9], [7, 8], 2)] := rfl
/-- T5, the wrong end marker 1B opens nothing. -/
theorem test_eop_bad : fdAfter (fdAt .eop 0x1B 0) =
    some ({ FdRegs.reset with consumerEn := true }, [.diag .badEop]) := by decide
/-- T7: 500 ticks are in time. -/
theorem test_wdog_not_yet : fdAfter { fdAt .eop 0x0B 1500 with
      fd := { FdRegs.reset with state := .eop, tStart := 1000 } } =
    some ({ FdRegs.reset with tStart := 1000 }, [.diag .badEop]) := by decide
/-- T7: 501 ticks are not, and the byte stays to be dispatched in `idle`. -/
theorem test_wdog : fdAfter { fdAt .eop 0x0A 1501 with fd := { FdRegs.reset with state := .eop, tStart := 1000 } } =
      some ({ FdRegs.reset with tStart := 1000 }, [.diag .watchdog]) ∧
    (nextOf (step { fdAt .eop 0x0A 1501 with
      fd := { FdRegs.reset with state := .eop, tStart := 1000 } })).inputs = [.rx 0x0A 1501] := by decide

/-- R14, R50: in `idle` no rule compares the time with an earlier one, so a gap of 2^31 ticks and more is no premise. -/
theorem test_idle_after_long_gap : fdAfter { fdAt .idle 0x1B 5000000000 with fdNow := some 0 } =
    some ({ FdRegs.reset with state := .sop, tStart := 5000000000, consumerEn := true }, []) := by decide
/-- U7: 2^31 ticks after the start marker the compared instants are too far apart; one tick before, the watchdog fires. -/
theorem test_session_too_far : step (fdAt .eop 0x0A 2147483648) = .refused (.timeTooFar .fd) ∧
    fdAfter (fdAt .eop 0x0A 2147483647) = some ({ FdRegs.reset with consumerEn := true }, [.diag .watchdog]) :=
  ⟨rfl, by decide⟩

/-- T20, t = 0. -/
theorem test_init_a : disAfter (disAt .init 0 true 0) = some ([⟨.pendingActive, 30⟩, ⟨.init, 0⟩], []) := by decide
/-- T22, t = 0. -/
theorem test_init_d : disAfter (disAt .init 0 false 0) = some ([⟨.pendingInactive, 30⟩, ⟨.init, 0⟩], []) := by decide
/-- T24 (c): the level is tested before the deadline. -/
theorem test_pa_bounce : disAfter (disAt .pendingActive 30 false 45) = some ([⟨.inactive, 30⟩, ⟨.init, 0⟩], []) := by
  decide
/-- T20, t = 30: the deadline itself confirms. -/
theorem test_pa_confirm : disAfter (disAt .pendingActive 30 true 30) =
    some ([⟨.active, 30⟩, ⟨.init, 0⟩], [⟨0, true⟩]) := by decide
/-- T27: without a consumer no event. -/
theorem test_pa_confirm_no_consumer : disAfter { disAt .pendingActive 30 true 30 with
      dis := { channels := [⟨.pendingActive, 30⟩], consumerEn := false } } = some ([⟨.active, 30⟩], []) := by decide
/-- T20, t = 20. -/
theorem test_pa_wait : disAfter (disAt .pendingActive 30 true 20) = some ([⟨.pendingActive, 30⟩, ⟨.init, 0⟩], []) := by
  decide
/-- T20, t = 40. -/
theorem test_act_stay : disAfter (disAt .active 30 true 40) = some ([⟨.active, 30⟩, ⟨.init, 0⟩], []) := by decide
/-- T23, t = 30. -/
theorem test_act_leave : disAfter (disAt .active 30 false 30) = some ([⟨.pendingInactive, 60⟩, ⟨.init, 0⟩], []) := by
  decide
/-- T23, t = 10: no event. -/
theorem test_pi_bounce : disAfter (disAt .pendingInactive 30 true 10) = some ([⟨.active, 30⟩, ⟨.init, 0⟩], []) := by decide
/-- T22, t = 30. -/
theorem test_pi_confirm : disAfter (disAt .pendingInactive 30 false 30) =
    some ([⟨.inactive, 30⟩, ⟨.init, 0⟩], [⟨0, false⟩]) := by decide
/-- T22, t = 20. -/
theorem test_pi_wait : disAfter (disAt .pendingInactive 30 false 20) =
    some ([⟨.pendingInactive, 30⟩, ⟨.init, 0⟩], []) := by decide
/-- T21, t = 30. -/
theorem test_ina_stay : disAfter (disAt .inactive 30 false 30) = some ([⟨.inactive, 30⟩, ⟨.init, 0⟩], []) := by decide
/-- R203: the deadline is armed from the sample; the time of a model may be a natural number and does not wrap (R14). -/
theorem test_ina_leave : disAfter (disAt .inactive 30 true 0xFFFFFFF0) =
    some ([⟨.pendingActive, 4294967310⟩, ⟨.init, 0⟩], []) := by decide
/-- U7: 2^31 ticks after the arming the compared instants are too far apart; a channel that is not pending compares none. -/
theorem test_pending_too_far : step (disAt .pendingActive 30 true 2147483648) = .refused (.timeTooFar .dis) ∧
    disAfter (disAt .pendingActive 30 true 2147483647) = some ([⟨.active, 30⟩, ⟨.init, 0⟩], [⟨0, true⟩]) ∧
    disAfter (disAt .active 30 true 5000000000) = some ([⟨.active, 30⟩, ⟨.init, 0⟩], []) :=
  ⟨rfl, by decide, by decide⟩
/-- T25, t = 0: the level is not looked at. -/
theorem test_invalid : disAfter (disAt .invalid6 30 true 40) = some ([⟨.init, 30⟩, ⟨.init, 0⟩], []) := by decide

/-- T42. -/
theorem test_reset_fd : fdAfter { fdAt .readBody 0 0 with inputs := [.resetFd] } = some (FdRegs.reset, []) := by decide
/-- T41: no event. -/
theorem test_reset_dis : disAfter { disAt .active 30 true 40 with inputs := [.resetDis] } =
      some ([⟨.init, 0⟩, ⟨.init, 0⟩], []) ∧
    (nextOf (step { disAt .active 30 true 40 with inputs := [.resetDis] })).dis.consumerEn = false := by decide
theorem test_set_consumer_fd : fdAfter { fdAt .idle 0 0 with inputs := [.setConsumerFd false] } =
    some (FdRegs.reset, []) := by decide
theorem test_set_consumer_dis : (nextOf (step { disAt .active 30 true 40 with
    inputs := [.setConsumerDis false] })).dis.consumerEn = false := by decide
/-- T40: the first index that is no channel. -/
theorem test_read_bad_index : (nextOf (step { disAt .active 30 true 40 with inputs := [.read 2] })).results =
    [.channel true false] := by decide
/-- R209 and T22: `pendingInactive` reads active. -/
theorem test_read_pending_inactive : (nextOf (step { disAt .pendingInactive 30 true 10 with
    inputs := [.read 0] })).results = [.channel false true] := by decide
/-- T42: `readBody` is code 4. -/
theorem test_read_state : (nextOf (step { fdAt .readBody 0 0 with inputs := [.readState] })).results = [.fdState 4] := by
  decide

/-! ### The payload stage, with the results of T9, T11 -/

/-- T9 (b): what is extracted from 15 bytes with the reason power-off. -/
theorem test_unpack_off :
    let m := unpack small [2, 0, 0, 0, 5, 0, 0, 0, 2, 0xAA, 0xBB, 0xCC, 0xDD, 0x11, 0x22] [] 0
    (m.reason, m.cycleCount, m.relayCycleCount, m.cycleDuration, m.avgCurrent, m.avgVoltage, m.temperature, m.metaOk) =
      (some 2, some 5, some 2, some 0xAABBCCDD, some 0x1122, none, none, false) := rfl
/-- T11, the second row: extrema, and a byte left over. -/
theorem test_samples : samples true [0, 0, 0x80, 0, 0, 0, 0x7F, 0xFF, 0, 0, 0, 0, 0xAB] =
    [⟨0, -32768⟩, ⟨0, 32767⟩, ⟨0, 0⟩] := by decide
/-- T11, the last row: the other byte order. -/
theorem test_samples_little : samples false [0x10, 0, 0x38, 0xFF, 0x20, 0, 0x2C, 1] = [⟨16, -200⟩, ⟨32, 300⟩] := by decide
/-- T11, the first row: 176775 × |`I_SCALE`|. -/
theorem test_inrush_exact : inrushExact (1 / 1000) 300 (-200) = 176775 / 1000 := by
  norm_num [inrushExact, Config.rmsFactor]

/-- T11, the first row, in the delivered record: with no tolerance the value is the exact one. -/
theorem test_unpack_inrush : (unpack { small with iScale := 1 / 1000 } [1, 0] [0, 0x10, 0xFF, 0x38, 0, 0x20, 1, 0x2C] 8).inrush =
    176775 / 1000 := by
  show inrushRepr 0 (inrushExact (1 / 1000) 300 (-200)) = _
  rw [test_inrush_exact]; simp [inrushRepr]

/-! ### For every obligation with hypotheses, states and operands that meet them -/

/-- A session in which the header byte 0x41 and the body byte 0x42 are stored, waiting for the end marker. -/
def complete (b : Byte) (now : Nat) : State :=
  { fdAt .eop b now with
    fd := { FdRegs.reset with
      state := .eop, typ := 0x53, csum := 0x54, len := 4, cnt := 1, bodyLen := 1, hdr := [(0, 0x41), (1, 0x41)],
      body := [(0, 0x03)], consumerEn := true },
    fdNow := some 0 }

theorem small_wf : small.wf = true := by decide

theorem small_channels : ∀ c ∈ (DisRegs.reset 2).channels, c.state.isInvalid = false := by decide

theorem small_not_pending : ∀ c ∈ (DisRegs.reset 2).channels, isPending c.state = false := by decide

/-- The state after reset with the small parameters and any event presented meets the invariant. -/
theorem ready_inv (e : InEvent) : Inv { State.resetWith small with inputs := [e] } where
  params := small_wf
  fd := trivial
  session := fun h => absurd rfl h
  hdr := ⟨List.Pairwise.nil, fun _ h => nomatch h⟩
  body := ⟨List.Pairwise.nil, fun _ h => nomatch h⟩
  dis := ⟨rfl, small_channels, fun c hc hp => absurd hp (by rw [small_not_pending c hc]; decide), Nat.zero_lt_two⟩

theorem witness_StepRunsDecodedByte :
    (let s := fdAt .idle 0x1B 7; Receives s 0x1B 7 [] ∧ decode (.rx (rxSelector s 0x1B 7) 7) = .instr (.fdIdleSop 7)) ∧
    (let s := fdAt .eop 0x0A 501
     Receives s 0x0A 501 [] ∧ decode (.rx (rxSelector s 0x0A 501) 501) = .instr (.fdWdog .eop 0x0A)) :=
  ⟨⟨⟨rfl, rfl, rfl⟩, by decide⟩, ⟨rfl, rfl, rfl⟩, by decide⟩

theorem witness_StepRunsDecodedSample :
    let s := disAt .init 0 true 0
    s.inputs = .pass 2 0 :: [] ∧ timeOk s.disNow 0 = true ∧ s.dis.channels[s.passCh]? = some ⟨.init, 0⟩ ∧
      deadlineWithin s.params ⟨.init, 0⟩ 0 = true ∧ s.dis.channels[s.passCh + 1]? = some ⟨.init, 0⟩ :=
  ⟨rfl, rfl, rfl, rfl, rfl⟩

theorem witness_StepRunsHostOperation :
    (let s := { fdAt .idle 0 0 with inputs := [.resetFd] }; s.inputs = .resetFd :: [] ∧ hostOp .resetFd = some .hostResetFd) ∧
    (State.resetWith small).inputs = [] := ⟨⟨rfl, rfl⟩, rfl⟩

theorem witness_DecodeOfEncode :
    (Instr.fdDiscardDrop 0x1B).wellFormed = true ∧
    encode (.fdDiscardDrop 0x1B) = some (.rx (packRx false 1 .discard 0x1B) 0) ∧
    Instr.hostResetFd.wellFormed = true ∧ encode .hostResetFd = none := by decide

theorem witness_EncodeOfDecode :
    decode (.rx 0x071B 9) = .instr (.fdDiscardSop 9) ∧ decode (.sample 0b00010 3 9) = .instr (.dbInitA 3 9 false) := by
  decide

theorem witness_TableWordRunsFirst :
    decodeTableWord 16 0x001B = some (.fdIdleSop 0) ∧ decodeTableWord 8 0b01111 = some (.dbPiBounce 0 true) := by decide

theorem witness_IdleSkipsOtherBytes :
    let s := fdAt .idle 0x53 0
    s.fdInit = true ∧ Receives s 0x53 0 [] ∧ s.fd.state = .idle ∧ (0x53 : Byte) ≠ 0x1B :=
  ⟨rfl, ⟨rfl, rfl, rfl⟩, rfl, by decide⟩

theorem witness_IdleStartMarkerOpensSession :
    let s := fdAt .idle 0x1B 0; s.fdInit = true ∧ Receives s 0x1B 0 [] ∧ s.fd.state = .idle :=
  ⟨rfl, ⟨rfl, rfl, rfl⟩, rfl⟩

theorem witness_TypeByteAccepted :
    let s := fdAt .sop 0x53 500
    s.fdInit = true ∧ Receives s 0x53 500 [] ∧ s.fd.state = .sop ∧ InTime s 500 ∧ s.fd.csum = 0x00 :=
  ⟨rfl, ⟨rfl, rfl, rfl⟩, rfl, by unfold InTime; decide, rfl⟩

theorem witness_LengthHighByte :
    let s := fdAt .readLength 0xFF 0
    s.fdInit = true ∧ Receives s 0xFF 0 [] ∧ s.fd.state = .readLength ∧ s.fd.cnt = 0 ∧ InTime s 0 :=
  ⟨rfl, ⟨rfl, rfl, rfl⟩, rfl, rfl, by unfold InTime; decide⟩

/-- Second length byte `b`, the first one 0, `HDR_SIZE` 2. -/
def lenLoAt (b : Byte) : State :=
  { fdAt .readLength b 0 with fd := { FdRegs.reset with state := .readLength, cnt := 1 } }

/-- The smallest length accepted, 3, and the largest one rejected, 2. -/
theorem witness_LengthLowByte :
    (let s := lenLoAt 3
     s.fdInit = true ∧ Receives s 3 0 [] ∧ s.fd.state = .readLength ∧ s.fd.cnt = 1 ∧ InTime s 0 ∧
      3 = s.fd.len.toNat / 256 * 256 + (3 : Byte).toNat ∧ s.params.hdrSize < 3) ∧
    (let s := lenLoAt 2
     s.fdInit = true ∧ Receives s 2 0 [] ∧ s.fd.state = .readLength ∧ s.fd.cnt = 1 ∧ InTime s 0 ∧
      2 = s.fd.len.toNat / 256 * 256 + (2 : Byte).toNat ∧ 2 ≤ s.params.hdrSize) :=
  ⟨⟨rfl, ⟨rfl, rfl, rfl⟩, rfl, rfl, by unfold InTime; decide, by decide, by decide⟩,
   rfl, ⟨rfl, rfl, rfl⟩, rfl, rfl, by unfold InTime; decide, by decide, by decide⟩

/-- A header byte at the address `cnt`, `HDR_SIZE` 2, declared length `len`. -/
def hdrByteAt (cnt len : Half) : State :=
  { fdAt .readHeader 5 0 with fd := { FdRegs.reset with state := .readHeader, cnt := cnt, len := len } }

/-- The first header byte, and the last one with an empty and with the shortest body. -/
theorem witness_HeaderByteStored :
    ∀ x ∈ [((0 : Half), (3 : Half)), (1, 3), (1, 4)],
      let s := hdrByteAt x.1 x.2
      (s.fdInit = true ∧ s.inputs = [.rx 5 0] ∧ timeOk s.fdNow 0 = true ∧ s.fd.state = .readHeader ∧
        0 ≤ s.fd.tStart + 500 ∧ s.fd.cnt.toNat < s.params.hdrSize ∧ s.params.hdrSize < s.fd.len.toNat) ∧
      (s.fd.cnt.toNat + 1 < s.params.hdrSize ∨ s.fd.cnt.toNat + 1 = s.params.hdrSize) := by
  intro x hx
  simp only [List.mem_cons, List.not_mem_nil, or_false] at hx
  rcases hx with rfl | rfl | rfl <;> exact ⟨⟨rfl, rfl, rfl, rfl, by decide, by decide, by decide⟩, by decide⟩

/-- A body byte at the address `cnt`, `BODY_CAP` 4, body length `len`. -/
def bodyByteAt (cnt len : Half) : State :=
  { fdAt .readBody 5 0 with fd := { FdRegs.reset with state := .readBody, cnt := cnt, bodyLen := len } }

/-- A body byte with more to come, the last one, and the last one that has room. -/
theorem witness_BodyByteStored :
    ∀ x ∈ [((0 : Half), (2 : Half)), (1, 2), (3, 4), (3, 5)],
      let s := bodyByteAt x.1 x.2
      s.fdInit = true ∧ s.inputs = [.rx 5 0] ∧ timeOk s.fdNow 0 = true ∧ s.fd.state = .readBody ∧
        0 ≤ s.fd.tStart + 500 ∧ s.fd.cnt.toNat < s.params.bodyCap := by
  intro x hx
  simp only [List.mem_cons, List.not_mem_nil, or_false] at hx
  rcases hx with rfl | rfl | rfl | rfl <;> exact ⟨rfl, rfl, rfl, rfl, by decide, by decide⟩

theorem witness_BodyOverflowGoesToDiscard :
    let s := bodyByteAt 4 5
    s.fdInit = true ∧ Receives s 5 0 [] ∧ s.fd.state = .readBody ∧ InTime s 0 ∧ s.params.bodyCap ≤ s.fd.cnt.toNat :=
  ⟨rfl, ⟨rfl, rfl, rfl⟩, rfl, by unfold InTime; decide, by decide⟩

/-- Both clauses: another byte, a marker where it is not looked for, a marker where it is. -/
theorem witness_DiscardDropsUntilStartMarker :
    (let s := fdAt .discard 0x0A 0
     s.fdInit = true ∧ Receives s 0x0A 0 [] ∧ s.fd.state = .discard ∧ InTime s 0 ∧ (0x0A : Byte) ≠ 0x1B) ∧
    (let s := { fdAt .discard 0x1B 0 with params := { small with discardResync := false } }
     s.fdInit = true ∧ Receives s 0x1B 0 [] ∧ s.fd.state = .discard ∧ InTime s 0 ∧ s.params.discardResync = false) ∧
    (let s := fdAt .discard 0x1B 0
     s.fdInit = true ∧ Receives s 0x1B 0 [] ∧ s.fd.state = .discard ∧ InTime s 0 ∧ s.params.discardResync = true) :=
  ⟨⟨rfl, ⟨rfl, rfl, rfl⟩, rfl, by unfold InTime; decide, by decide⟩,
   ⟨rfl, ⟨rfl, rfl, rfl⟩, rfl, by unfold InTime; decide, rfl⟩, rfl, ⟨rfl, rfl, rfl⟩, rfl, by unfold InTime; decide, rfl⟩

theorem witness_MatchingChecksumAccepted :
    let s := fdAt .checksum 0x00 0
    s.fdInit = true ∧ Receives s 0x00 0 [] ∧ s.fd.state = .checksum ∧ InTime s 0 ∧ 0x00 = s.fd.csum :=
  ⟨rfl, ⟨rfl, rfl, rfl⟩, rfl, by unfold InTime; decide, rfl⟩

theorem witness_EndMarkerDelivers :
    let s := complete 0x0A 0
    s.fdInit = true ∧ Receives s 0x0A 0 [] ∧ s.fd.state = .eop ∧ InTime s 0 ∧ s.fd.bodyLen.toNat ≤ s.params.bodyCap ∧
      [0x41, 0x41].length = s.params.hdrSize ∧
      (∀ k < 2, ([0x41, 0x41] : List Byte)[k]? = some (s.readByte .hdr k)) ∧
      [0x03].length = s.fd.bodyLen.toNat ∧ (∀ k < 1, ([0x03] : List Byte)[k]? = some (s.readByte .body k)) :=
  ⟨rfl, ⟨rfl, rfl, rfl⟩, rfl, by unfold InTime; decide, by decide, rfl,
   fun k hk => by have : k = 0 ∨ k = 1 := by omega
                  rcases this with rfl | rfl <;> rfl,
   rfl, fun k hk => by have : k = 0 := by omega
                       subst this; rfl⟩

theorem witness_WrongByteRejects :
    (let s := fdAt .sop 0x52 0
     s.fdInit = true ∧ Receives s 0x52 0 [] ∧ InTime s 0 ∧ s.fd.state = .sop ∧ (0x52 : Byte) ≠ 0x53) ∧
    (let s := fdAt .checksum 0x01 0
     s.fdInit = true ∧ Receives s 0x01 0 [] ∧ InTime s 0 ∧ s.fd.state = .checksum ∧ 0x01 ≠ s.fd.csum) ∧
    (let s := fdAt .eop 0x0B 0
     s.fdInit = true ∧ Receives s 0x0B 0 [] ∧ InTime s 0 ∧ s.fd.state = .eop ∧ (0x0B : Byte) ≠ 0x0A) :=
  ⟨⟨rfl, ⟨rfl, rfl, rfl⟩, by unfold InTime; decide, rfl, by decide⟩, ⟨rfl, ⟨rfl, rfl, rfl⟩, by unfold InTime; decide, rfl, by decide⟩,
   rfl, ⟨rfl, rfl, rfl⟩, by unfold InTime; decide, rfl, by decide⟩

/-- The first tick at which the watchdog fires; one tick before, the session goes on. -/
theorem witness_WatchdogAbandonsSession :
    (let s := fdAt .discard 0x1B 501
     s.fdInit = true ∧ Receives s 0x1B 501 [] ∧ s.fd.state ≠ .idle ∧ s.fd.tStart + 500 < 501) ∧
    (let s := fdAt .discard 0x1B 500; s.fdInit = true ∧ Receives s 0x1B 500 [] ∧ ¬ s.fd.tStart + 500 < 500) :=
  ⟨⟨rfl, ⟨rfl, rfl, rfl⟩, by decide, by decide⟩, rfl, ⟨rfl, rfl, rfl⟩, by decide⟩

/-- The sample of channel 0 that `disAt` presents, at a deadline just reached or missed by one tick. -/
theorem samples_disAt (st : DbState) (a e : Bool) : Samples (disAt st (if e then 30 else 31) a 30) 0 st a e 30 := by
  refine ⟨rfl, rfl, if a then 2 else 3, [], if e then 30 else 31, rfl, rfl, ?_, ?_, ?_⟩
  · show pinLevel (if a then 2 else 3) 0 = false ↔ a = true
    revert a; decide
  · revert e; decide
  · show deadlineWithin small ⟨st, if e then 30 else 31⟩ 30 = true
    clear a; revert e; cases st <;> decide

theorem witness_LeavingSampleArms :
    ∀ x ∈ [(DbState.init, true), (.init, false), (.active, false), (.inactive, true)], ∀ e : Bool,
      ∃ s, s.disInit = true ∧ Samples s 0 x.1 x.2 e 30 :=
  fun x _ e => ⟨_, rfl, samples_disAt x.1 x.2 e⟩

theorem witness_ConfirmedLevelStays :
    ∀ x ∈ [(DbState.active, true), (.inactive, false)], ∀ e : Bool, ∃ s, s.disInit = true ∧ Samples s 0 x.1 x.2 e 30 :=
  fun x _ e => ⟨_, rfl, samples_disAt x.1 x.2 e⟩

theorem witness_PendingLevelWaits :
    ∀ x ∈ [(DbState.pendingActive, true), (.pendingInactive, false)],
      ∃ s, s.disInit = true ∧ Samples s 0 x.1 x.2 false 30 :=
  fun x _ => ⟨_, rfl, samples_disAt x.1 x.2 false⟩

theorem witness_RevertedLevelIsBounce :
    ∀ x ∈ [(DbState.pendingActive, false), (.pendingInactive, true)], ∀ e : Bool,
      ∃ s d, s.disInit = true ∧ Samples s 0 x.1 x.2 e 30 ∧ s.dis.channels[0]? = some { state := x.1, deadline := d } :=
  fun x _ e => ⟨_, _, rfl, samples_disAt x.1 x.2 e, rfl⟩

theorem witness_HeldLevelIsConfirmed :
    ∀ x ∈ [(DbState.pendingActive, true), (.pendingInactive, false)],
      ∃ s d, s.disInit = true ∧ Samples s 0 x.1 x.2 true 30 ∧ s.dis.channels[0]? = some { state := x.1, deadline := d } :=
  fun x _ => ⟨_, _, rfl, samples_disAt x.1 x.2 true, rfl⟩

theorem witness_InvalidCodeIsRepaired :
    ∀ st ∈ [DbState.invalid5, .invalid6, .invalid7], ∀ a e : Bool,
      (∃ s d, s.disInit = true ∧ Samples s 0 st a e 30 ∧ s.dis.channels[0]? = some { state := st, deadline := d }) ∧
      5 ≤ st.code.toNat := by
  intro st hst a e
  refine ⟨⟨_, _, rfl, samples_disAt st a e, rfl⟩, ?_⟩
  revert st; decide

theorem witness_SetConsumers : (State.resetWith small).fdInit = true ∧ (State.resetWith small).disInit = true := ⟨rfl, rfl⟩

/-- The last channel and the first index that is none. -/
theorem witness_SnapshotRead :
    let s := disAt .active 30 true 40
    s.disInit = true ∧ s.params.nCh ≤ 2 ∧ 1 < s.params.nCh ∧ s.dis.channels[1]? = some ⟨.init, 0⟩ ∧
      s.dis.channels[0]? = some ⟨.active, 30⟩ := ⟨rfl, by decide, by decide, rfl, rfl⟩

theorem witness_ReadDecoderState : (fdAt .discard 0 0).fdInit = true ∧ (fdAt .discard 0 0).fd.state = .discard := ⟨rfl, rfl⟩

theorem witness_RefusedBeforeReset :
    State.powerOn.fdInit = false ∧ ofFd .fdEopOk = true ∧ Instr.fdEopOk ≠ .hostResetFd ∧
    State.powerOn.disInit = false ∧ ofFd (.disRead 0) = false ∧ Instr.disRead 0 ≠ .hostResetDis :=
  ⟨rfl, rfl, by decide, rfl, rfl, by decide⟩

/-- Each refusal where it begins: one tick back, and 2^31 ticks after the start marker and after the arming. -/
theorem witness_DecreasingTimeRefused :
    (let s := { fdAt .idle 0 9 with fdNow := some 10 }
     s.inputs = .rx 0 9 :: [] ∧ ∃ last, s.fdNow = some last ∧ 9 < last) ∧
    (let s := fdAt .sop 0 2147483648
     s.inputs = .rx 0 2147483648 :: [] ∧ (∀ last, s.fdNow = some last → last ≤ 2147483648) ∧ s.fd.state ≠ .idle ∧
      s.fd.tStart + 2147483648 ≤ 2147483648) ∧
    (let s := { disAt .init 0 true 9 with disNow := some 10 }
     s.inputs = .pass 2 9 :: [] ∧ s.dis.channels[s.passCh]? = some ⟨.init, 0⟩ ∧ ∃ last, s.disNow = some last ∧ 9 < last) ∧
    (let s := disAt .pendingActive 30 true 2147483648
     s.inputs = .pass 2 2147483648 :: [] ∧ s.dis.channels[s.passCh]? = some ⟨.pendingActive, 30⟩ ∧
      (∀ last, s.disNow = some last → last ≤ 2147483648) ∧
      30 - s.params.holdTicks + 2147483648 ≤ 2147483648) :=
  ⟨⟨rfl, 10, rfl, by decide⟩, ⟨rfl, fun _ h => (nomatch h), by decide, by decide⟩, ⟨rfl, rfl, 10, rfl, by decide⟩,
   rfl, rfl, fun _ h => (nomatch h), by decide⟩

theorem witness_ExcludedStatesStop :
    (let s := hdrByteAt 2 9; s.fdInit = true ∧ s.params.hdrSize ≤ s.fd.cnt.toNat) ∧
    (let s := bodyByteAt 4 9; s.fdInit = true ∧ s.params.bodyCap ≤ s.fd.cnt.toNat) ∧
    (let s := bodyByteAt 0 5; s.fdInit = true ∧ s.params.bodyCap < s.fd.bodyLen.toNat) ∧
    (let s := disAt .init 0 true 0
     s.disInit = true ∧ onChannel 2 (.dbPaWait 2) = true ∧ s.dis.channels.length ≤ 2) ∧
    (let s := { fdAt .readLength 0 0 with fd := { FdRegs.reset with state := .readLength, cnt := 2 } }
     Receives s 0 0 [] ∧ s.fd.state = .readLength ∧ InTime s 0 ∧ 2 ≤ s.fd.cnt.toNat) :=
  ⟨⟨rfl, by decide⟩, ⟨rfl, by decide⟩, ⟨rfl, by decide⟩, ⟨rfl, rfl, by decide⟩, ⟨rfl, rfl, rfl⟩, rfl,
   by unfold InTime; decide, by decide⟩

theorem witness_InvariantKept :
    (let s := { State.resetWith small with inputs := [.rx 0x1B 0] }; Inv s ∧ ∃ t, step s = .next t) ∧
    (let s := { State.resetWith small with inputs := [.pass 2 0] }; Inv s ∧ ∃ t, step s = .next t) :=
  ⟨⟨ready_inv _, _, rfl⟩, ready_inv _, _, rfl⟩

theorem witness_NoInputStopsTheMachine :
    ∀ e ∈ [InEvent.rx 0x1B 0, .pass 2 0],
      let s := { State.resetWith small with inputs := [e] }
      Inv s ∧ s.fdInit = true ∧ s.disInit = true ∧
        (∀ b now rest, s.inputs = .rx b now :: rest →
          (∀ last, s.fdNow = some last → last ≤ now) ∧ (s.fd.state ≠ .idle → now < s.fd.tStart + 2147483648)) ∧
        (∀ pins now rest c, s.inputs = .pass pins now :: rest → s.dis.channels[s.passCh]? = some c →
          (∀ last, s.disNow = some last → last ≤ now) ∧
          (c.state = .pendingActive ∨ c.state = .pendingInactive → now < c.deadline - s.params.holdTicks + 2147483648)) :=
  fun e _ => ⟨ready_inv e, rfl, rfl, fun _ _ _ _ => ⟨fun _ h => (nomatch h), fun h => absurd rfl h⟩,
    fun _ _ _ _ _ hc => ⟨fun _ h => (nomatch h), by cases hc; exact fun h => absurd h (by decide)⟩⟩

theorem witness_DecoderTransitionTable :
    let s := { State.resetWith small with inputs := [.rx 0x1B 0] }
    Inv s ∧ s.inputs = .rx 0x1B 0 :: [] ∧ ∃ t, step s = .next t := ⟨ready_inv _, rfl, _, rfl⟩

theorem witness_ChannelTransitionTable :
    ∀ st : DbState, ∀ a e : Bool,
      let s := disAt st (if e then 30 else 31) a 30
      let c : Channel := ⟨st, if e then 30 else 31⟩
      s.disInit = true ∧ s.dis.channels[0]? = some c ∧
        ((if a then s.params.assertedLevel else !s.params.assertedLevel) = s.params.assertedLevel ↔ a = true) ∧
        (c.deadline ≤ 30 ↔ e = true) := by
  intro st a e
  refine ⟨rfl, rfl, ?_, ?_⟩
  · show (if a then false else true) = false ↔ a = true
    revert a; decide
  · show (if e then 30 else 31) ≤ 30 ↔ e = true
    revert e; decide

/-- Every cause is raised by its own operation. -/
theorem witness_RejectionTable :
    ∀ x ∈ [(Instr.fdSopBadtype 0, FdState.sop, Cause.badType), (.fdLenLo 2, .readLength, .lenTooSmall),
        (.fdBodyOvf 0, .readBody, .bodyOverflow), (.fdCsumBad 1, .checksum, .csumMismatch), (.fdEopBad 0, .eop, .badEop),
        (.fdWdog .sop 0, .sop, .watchdog)],
      let s := fdAt x.2.1 0 0
      exec x.1 s = .next (nextOf (exec x.1 s)) ∧ (nextOf (exec x.1 s)).fdOut = s.fdOut ++ [.diag x.2.2] := by
  intro x hx
  simp only [List.mem_cons, List.not_mem_nil, or_false] at hx
  rcases hx with rfl | rfl | rfl | rfl | rfl | rfl <;> exact ⟨rfl, rfl⟩

theorem witness_FramesOnlyFromEndMarker :
    (∃ t f, exec .fdEopOk (complete 0x0A 0) = .next t ∧ t.fdOut = (complete 0x0A 0).fdOut ++ [.frame f]) ∧
    (let s := fdAt .checksum 0 0; ∃ t, exec (.fdCsumOk 0) s = .next t ∧ s.fd.state ≠ .eop ∧ t.fd.state = .eop) :=
  ⟨⟨_, _, rfl, rfl⟩, _, rfl, by decide, rfl⟩

theorem witness_EdgesOnlyFromConfirmations :
    (let s := disAt .pendingActive 30 true 30; ∃ t, exec (.dbPaConfirm 0) s = .next t ∧ t.edges ≠ s.edges) ∧
    (let s := disAt .pendingInactive 30 false 30; ∃ t, exec (.dbPiConfirm 0) s = .next t ∧ t.edges ≠ s.edges) :=
  ⟨⟨_, rfl, by decide⟩, _, rfl, by decide⟩

/-- Channel 0 confirmed active, its level gone for the hold time: the next step emits its second event. -/
theorem witness_EdgesAlternate :
    let s := { disAt .pendingInactive 30 false 30 with edges := [⟨0, true⟩] }
    Alternates 0 s ∧ s.dis.consumerEn = true ∧ s.inputs.head? ≠ some .resetDis ∧
      ∃ t, step s = .next t ∧ t.edges = [⟨0, true⟩, ⟨0, false⟩] := by
  refine ⟨⟨List.isChain_singleton _, ?_⟩, rfl, by decide, _, rfl, rfl⟩
  intro v hv
  have : v = true := by simpa [edgesOf] using hv.symm
  subst this
  exact ⟨_, rfl, .inr rfl⟩

theorem witness_ChannelsAreIndependent :
    let s := disAt .pendingActive 30 true 30
    (∃ t, sample 0 false 30 s = .next t) ∧ 1 ≠ 0 ∧ ([⟨.pendingActive, 30⟩] : List Channel)[0]? = s.dis.channels[0]? ∧
      ∃ t, exec (.disRead 0) s = .next t := ⟨⟨_, rfl⟩, by decide, rfl, _, rfl⟩

theorem witness_BlocksShareNothing :
    (∃ t, exec (.fdIdleSop 7) (fdAt .idle 0x1B 7) = .next t) ∧ ofFd (.fdIdleSop 7) = true ∧
    (∃ t, exec (.dbInitA 0 0 true) (disAt .init 0 true 0) = .next t) ∧ ofFd (.dbInitA 0 0 true) = false :=
  ⟨⟨_, rfl⟩, rfl, ⟨_, rfl⟩, rfl⟩

theorem witness_BlocksCommute :
    ∃ t, andThen (rx 0x1B 7 (State.resetWith small)) (pass 2 0) = .next t ∧ t.fd.state = .sop ∧
      t.dis.channels = [⟨.pendingActive, 30⟩, ⟨.pendingInactive, 30⟩] := ⟨_, rfl, rfl, rfl⟩

theorem witness_BuffersWrittenOnlyByTheirOperation :
    (let s := { hdrByteAt 1 9 with fd := { (hdrByteAt 1 9).fd with hdr := [(1, 0)] } }
     ∃ t, exec (.fdHdrByte 5) s = .next t ∧ Instr.fdHdrByte 5 ≠ .hostResetFd ∧ t.readByte .hdr 1 ≠ s.readByte .hdr 1) ∧
    (let s := { bodyByteAt 3 9 with fd := { (bodyByteAt 3 9).fd with body := [(3, 0)] } }
     ∃ t, exec (.fdBodyByte 5) s = .next t ∧ Instr.fdBodyByte 5 ≠ .hostResetFd ∧ t.readByte .body 3 ≠ s.readByte .body 3) :=
  ⟨⟨_, rfl, by decide, by decide⟩, _, rfl, by decide, by decide⟩

theorem witness_ParametersAreFixed :
    let s := { disAt .init 0 true 0 with inputs := [.resetDis] }
    (∃ t, step s = .next t) ∧ s.dis.channels.length = s.params.nCh := ⟨⟨_, rfl⟩, rfl⟩

theorem witness_StepsAreRx :
    Receives (fdAt .idle 0x1B 7) 0x1B 7 [] ∧
    (Receives (fdAt .eop 0x0A 501) 0x0A 501 [] ∧ (fdAt .eop 0x0A 501).fd.state ≠ .idle ∧
      (fdAt .eop 0x0A 501).fd.tStart + 500 < 501) := ⟨⟨rfl, rfl, rfl⟩, ⟨rfl, rfl, rfl⟩, by decide, by decide⟩

theorem witness_StepsArePass :
    let s := disAt .pendingActive 30 true 30
    s.inputs = .pass 2 30 :: [] ∧ timeOk s.disNow 30 = true ∧
      (∀ c ∈ s.dis.channels, deadlineWithin s.params c 30 = true) ∧ s.passCh = 0 ∧ 0 < s.params.nCh ∧
      s.dis.channels.length = s.params.nCh := ⟨rfl, rfl, by decide, rfl, by decide, rfl⟩

/-- A frame with a header of 2 bytes and as many body bytes as there is room for, the last at the watchdog's limit. -/
theorem witness_WellFormedFrameDelivered :
    let s := fdAt .idle 0 0
    let header : List Byte := [0x41, 0x1B]
    let body : List Byte := [1, 2, 3, 4]
    let times : List Nat := List.replicate 11 7 ++ [507]
    s.fdInit = true ∧ s.fd.state = .idle ∧ s.fd.consumerEn = true ∧ 0 < s.params.hdrSize ∧
      header.length = s.params.hdrSize ∧ body.length ≤ s.params.bodyCap ∧ header.length + body.length + 1 < 65536 ∧
      times.length = (frameBytes 0x53 header body).length ∧ times.head? = some 7 ∧ (∀ x ∈ times, x ≤ 7 + 500) :=
  ⟨rfl, rfl, rfl, by decide, rfl, by decide, by decide, rfl, rfl, fun x hx => by
    rcases List.mem_append.1 hx with h | h
    · rw [List.eq_of_mem_replicate h]; decide
    · rw [List.mem_singleton.1 h]⟩

/-- The first and last byte that may be changed, and the checksum byte; here the body is empty. -/
theorem witness_CorruptedFrameRejected :
    let s := fdAt .idle 0 0
    let header : List Byte := [0x41, 0x1B]
    let times : List Nat := List.replicate 8 7
    s.fdInit = true ∧ s.fd.state = .idle ∧ 0 < s.params.hdrSize ∧ header.length = s.params.hdrSize ∧
      ([] : List Byte).length ≤ s.params.bodyCap ∧ header.length + ([] : List Byte).length + 1 < 65536 ∧
      times.length = (frameBytes 0x53 header []).length ∧ times.head? = some 7 ∧ (∀ x ∈ times, x ≤ 7 + 500) ∧
      (∀ k ∈ [4, 6, 7], 4 ≤ k ∧ ∃ x y : Byte, (frameBytes 0x53 header [])[k]? = some x ∧ y ≠ x) :=
  ⟨rfl, rfl, by decide, rfl, by decide, by decide, rfl, rfl,
   fun x hx => by rw [List.eq_of_mem_replicate hx]; decide, by
    intro k hk
    simp only [List.mem_cons, List.not_mem_nil, or_false] at hk
    rcases hk with rfl | rfl | rfl <;> exact ⟨by decide, _, 0, rfl, by decide⟩⟩

theorem witness_DecoderRecoversAfterTimeout :
    let s := fdAt .discard 0 0
    let header : List Byte := [0x41, 0x1B]
    let times : List Nat := List.replicate 8 501
    s.fdInit = true ∧ s.fd.state ≠ .idle ∧ s.fd.tStart + 500 < 501 ∧ s.fd.consumerEn = true ∧
      0 < s.params.hdrSize ∧ header.length = s.params.hdrSize ∧ ([] : List Byte).length ≤ s.params.bodyCap ∧
      header.length + ([] : List Byte).length + 1 < 65536 ∧ times.length = (frameBytes 0x53 header []).length ∧
      times.head? = some 501 ∧ (∀ x ∈ times, x ≤ 501 + 500) :=
  ⟨rfl, by decide, by decide, rfl, by decide, rfl, by decide, by decide, rfl, rfl,
   fun x hx => by rw [List.eq_of_mem_replicate hx]; decide⟩

/-- Held to the deadline, and to one tick before it. -/
theorem witness_HeldAssertedEmitsOnce :
    let s := disAt .init 0 true 0
    s.disInit = true ∧ s.dis.consumerEn = true ∧ s.dis.channels[0]? = some ⟨.init, 0⟩ ∧
      (⟨.init, 0⟩ : Channel).state = .init ∧ (∃ d ∈ [10, 29, 30, 40], s.params.holdTicks ≤ d) ∧
      ∀ d ∈ [10, 29], d < s.params.holdTicks :=
  ⟨rfl, rfl, rfl, rfl, by decide, by decide⟩

theorem witness_ShortBounceEmitsNothing :
    let s := disAt .init 0 true 0
    s.disInit = true ∧ s.dis.channels[0]? = some ⟨.init, 0⟩ ∧ (⟨.init, 0⟩ : Channel).state = .init ∧
      (∀ d ∈ [10, 29], d < s.params.holdTicks) ∧ ([30] : List Nat) ≠ [] :=
  ⟨rfl, rfl, rfl, by decide, by decide⟩

theorem witness_UnpackFifteenBytes :
    (∃ m, m = unpack small [2, 0, 0, 0, 5, 0, 0, 0, 2, 0xAA, 0xBB, 0xCC, 0xDD, 0x11, 0x22] [] 0) ∧ 2 = small.reasonOff ∧
    (∃ m, m = unpack small [1, 0, 0, 0, 5, 0, 0, 0, 2, 0, 0, 0, 0, 0, 0] [] 0) ∧ 1 ≠ small.reasonOff :=
  ⟨⟨_, rfl⟩, rfl, ⟨_, rfl⟩, by decide⟩

theorem witness_UnpackThirtyBytes :
    (∃ m, m = unpack small ([2, 0, 0, 0, 5, 0, 0, 0, 2, 0xAA, 0xBB, 0xCC, 0xDD, 0x11, 0x22, 0x33, 0x44, 0x55, 0x66, 0, 1,
      0x51, 0x80, 0, 0, 0x0E, 0x10, 7, 0xEE, 2] ++ []) [] 0) ∧ 2 = small.reasonOff ∧
    (∃ m, m = unpack small ([1, 0, 0, 0, 5, 0, 0, 0, 2, 0xAA, 0xBB, 0xCC, 0xDD, 0x11, 0x22, 0x33, 0x44, 0x55, 0x66, 0, 1,
      0x51, 0x80, 0, 0, 0x0E, 0x10, 7, 0xEE, 2] ++ [9]) [] 0) ∧ 1 ≠ small.reasonOff :=
  ⟨⟨_, rfl⟩, rfl, ⟨_, rfl⟩, by decide⟩

theorem witness_SamplesOfBody :
    let body : List Byte := [0, 0, 0x80, 0, 0, 0, 0x7F, 0xFF, 0xAB]
    body[4 * 1]? = some 0 ∧ body[4 * 1 + 1]? = some 0 ∧ body[4 * 1 + 2]? = some 0x7F ∧ body[4 * 1 + 3]? = some 0xFF := by
  decide

/-- A reason that is not power-on, a body with no sample, and a power-on body with its extrema. -/
theorem witness_InrushWithinTolerance :
    (∃ m, m = unpack small [2, 0] [] 0) ∧ ([2, 0] : List Byte).head? ≠ some 0x01 ∧
    (∃ m, m = unpack small [1, 0] [1, 2, 3] 3) ∧ samples small.sampleBe [1, 2, 3] = [] ∧
    (let body : List Byte := [0, 0x10, 0xFF, 0x38, 0, 0x20, 1, 0x2C]
     (∃ m, m = unpack small [1, 0] body 8) ∧ 0 ≤ small.inrushTol ∧ ([1, 0] : List Byte).head? = some 0x01 ∧
      (⟨32, 300⟩ : Sample) ∈ samples small.sampleBe body ∧ (⟨16, -200⟩ : Sample) ∈ samples small.sampleBe body ∧
      ∀ x ∈ samples small.sampleBe body, -200 ≤ x.i ∧ x.i ≤ 300) :=
  ⟨⟨_, rfl⟩, by decide, ⟨_, rfl⟩, by decide, ⟨_, rfl⟩, by decide⟩

end Sys2Proof.Tests
end

section
/-! An operation of one block leaves the registers, the events and the reset bit of the other block as they were
(00_scope.md R2, 70_reset_and_hazards.md R282). -/

namespace Sys2Proof.Machine

/-- What the sampler owns is the same in both states: its registers, its events, its reset bit. -/
structure SameDis (s t : State) : Prop where
  dis : t.dis = s.dis
  edges : t.edges = s.edges
  disInit : t.disInit = s.disInit

/-- What the frame decoder owns is the same in both states: its registers and buffers, its events, its reset bit. -/
structure SameFd (s t : State) : Prop where
  fd : t.fd = s.fd
  fdOut : t.fdOut = s.fdOut
  fdInit : t.fdInit = s.fdInit
  bufEpoch : t.bufEpoch = s.bufEpoch

theorem SameDis.refl (s : State) : SameDis s s := ⟨rfl, rfl, rfl⟩

theorem SameDis.trans {s t u : State} (h : SameDis s t) (k : SameDis t u) : SameDis s u :=
  ⟨k.dis.trans h.dis, k.edges.trans h.edges, k.disInit.trans h.disInit⟩

theorem SameFd.trans {s t u : State} (h : SameFd s t) (k : SameFd t u) : SameFd s u :=
  ⟨k.fd.trans h.fd, k.fdOut.trans h.fdOut, k.fdInit.trans h.fdInit, k.bufEpoch.trans h.bufEpoch⟩

/-! ### The shared operations -/

theorem sameDis_setFd (s : State) (r : FdRegs) : SameDis s (s.setFd r) := ⟨rfl, rfl, rfl⟩
theorem sameDis_reject (c : Cause) (s : State) : SameDis s (reject c s) := ⟨rfl, rfl, rfl⟩
theorem sameDis_openSession (now : Nat) (s : State) : SameDis s (openSession now s) := ⟨rfl, rfl, rfl⟩
theorem sameDis_deliver (s : State) : SameDis s (deliver s) := ⟨deliver_dis s, deliver_edges s, deliver_disInit s⟩
theorem sameDis_giveResult (s : State) (r : ReadResult) : SameDis s (s.giveResult r) := ⟨rfl, rfl, rfl⟩

theorem sameFd_setDis (s : State) (r : DisRegs) : SameFd s (s.setDis r) := ⟨rfl, rfl, rfl, rfl⟩
theorem sameFd_setChannel (s : State) (ch : Nat) (c : Channel) : SameFd s (s.setChannel ch c) := ⟨rfl, rfl, rfl, rfl⟩
theorem sameFd_emitEdge (s : State) (ch : Nat) (v : Bool) : SameFd s (s.emitEdge ch v) :=
  ⟨emitEdge_fd s ch v, emitEdge_fdOut s ch v, emitEdge_fdInit s ch v, emitEdge_bufEpoch s ch v⟩
theorem sameFd_giveResult (s : State) (r : ReadResult) : SameFd s (s.giveResult r) := ⟨rfl, rfl, rfl, rfl⟩

theorem sameFd_changeChannel {ch : Nat} {f : Channel → Channel} {s t : State} (h : changeChannel ch f s = .next t) :
    SameFd s t := by
  obtain ⟨c, -, rfl⟩ := changeChannel_eq_next h
  exact sameFd_setChannel s ch _

theorem sameFd_confirm {st : DbState} {v : Bool} {ch : Nat} {s t : State} (h : confirm st v ch s = .next t) :
    SameFd s t := by
  obtain ⟨c, -, rfl⟩ := confirm_eq_next h
  exact (sameFd_setChannel s ch _).trans (sameFd_emitEdge _ ch v)

/-! ### Every operation of a block -/

/-- An operation of the frame decoder leaves the sampler alone. -/
theorem exec_sameDis {i : Instr} {s t : State} (hi : ofFd i = true) (h : exec i s = .next t) : SameDis s t := by
  cases i with
  | hostResetFd => cases h; exact ⟨rfl, rfl, rfl⟩
  | fdWdog _ _ | fdSopBadtype _ | fdBodyOvf _ | fdCsumBad _ | fdEopBad _ =>
    obtain ⟨-, h⟩ := requireFd_eq_next h
    cases h; exact sameDis_reject _ s
  | fdIdleSop now | fdDiscardSop now =>
    obtain ⟨-, h⟩ := requireFd_eq_next h
    cases h; exact sameDis_openSession now s
  | fdIdleSkip _ | fdDiscardDrop _ =>
    obtain ⟨-, h⟩ := requireFd_eq_next h
    cases h; exact .refl s
  | fdSopType | fdLenHi _ | fdCsumOk _ | fdSetConsumer _ =>
    obtain ⟨-, h⟩ := requireFd_eq_next h
    cases h; exact sameDis_setFd s _
  | fdLenLo b =>
    obtain ⟨-, h⟩ := requireFd_eq_next h
    simp only [Host.Outcome.next.injEq] at h
    subst h
    split
    · exact (sameDis_setFd s _).trans (sameDis_reject _ _)
    · exact sameDis_setFd s _
  | fdHdrByte b =>
    obtain ⟨-, h⟩ := requireFd_eq_next h
    obtain ⟨u, hu, h⟩ := andThen_eq_next h
    obtain ⟨-, rfl⟩ := memWrite_next hu
    dsimp only at h
    split at h <;> cases h <;> exact (sameDis_setFd s _).trans (sameDis_setFd _ _)
  | fdBodyByte b =>
    obtain ⟨-, h⟩ := requireFd_eq_next h
    obtain ⟨u, hu, h⟩ := andThen_eq_next h
    obtain ⟨-, rfl⟩ := memWrite_next hu
    cases h; exact (sameDis_setFd s _).trans (sameDis_setFd _ _)
  | fdEopOk =>
    obtain ⟨-, h⟩ := requireFd_eq_next h
    split at h
    · cases h; exact (sameDis_deliver s).trans (sameDis_setFd _ _)
    · cases h
  | fdReadState =>
    obtain ⟨-, h⟩ := requireFd_eq_next h
    cases h; exact sameDis_giveResult s _
  | _ => exact absurd hi Bool.false_ne_true

/-- An operation of the sampler leaves the frame decoder alone. -/
theorem exec_sameFd {i : Instr} {s t : State} (hi : ofFd i = false) (h : exec i s = .next t) : SameFd s t := by
  cases i with
  | hostResetDis => cases h; exact ⟨rfl, rfl, rfl, rfl⟩
  | dbInitA _ _ _ | dbInitD _ _ _ | dbActLeave _ _ _ | dbInaLeave _ _ _ | dbPaBounce _ _ | dbPiBounce _ _
  | dbInvalid _ _ _ _ | dbPaWait _ | dbActStay _ _ | dbPiWait _ | dbInaStay _ _ =>
    obtain ⟨-, h⟩ := requireDis_eq_next h
    exact sameFd_changeChannel h
  | dbPaConfirm _ | dbPiConfirm _ =>
    obtain ⟨-, h⟩ := requireDis_eq_next h
    exact sameFd_confirm h
  | disSetConsumer _ =>
    obtain ⟨-, h⟩ := requireDis_eq_next h
    cases h; exact sameFd_setDis s _
  | disRead _ =>
    obtain ⟨-, h⟩ := requireDis_eq_next h
    cases h; exact sameFd_giveResult s _
  | _ => exact absurd hi.symm Bool.false_ne_true

/-- Settles O46: the case split over the operations of each block is `exec_sameDis` and `exec_sameFd`. -/
theorem blocksShareNothing : Obligations.BlocksShareNothing := by
  unfold Obligations.BlocksShareNothing
  intro i s t h
  constructor
  · intro hi
    obtain ⟨hdis, hedges, hinit⟩ := exec_sameDis hi h
    exact ⟨hdis, hedges, hinit⟩
  · intro hi
    obtain ⟨hfd, hout, hinit, hepoch⟩ := exec_sameFd hi h
    exact ⟨hfd, hout, hinit, hepoch⟩

end Sys2Proof.Machine
end

section
/-! What an event leaves of itself when its operation is done, and which operation it selects. -/

namespace Sys2Proof.Machine

/-! ### Retiring an event -/

/-- A byte is used up, but for the watchdog's operation. -/
theorem retire_rx {s : State} {b : Byte} {now : Nat} {rest : List InEvent} (i : Instr)
    (h : s.inputs = .rx b now :: rest) :
    retire i s = { s with fdNow := some now, inputs := if isWatchdog i then .rx b now :: rest else rest } := by
  simp only [retire, h]
  cases i <;> simp only [isWatchdog, if_true, Bool.false_eq_true, if_false, ← h]

/-- A pass goes on with the next channel, or is used up after the last. -/
theorem retire_pass {s : State} {pins now : Nat} {rest : List InEvent} (i : Instr)
    (h : s.inputs = .pass pins now :: rest) :
    retire i s = { s with
      disNow := some now
      passCh := if s.passCh + 1 < s.params.nCh then s.passCh + 1 else 0
      inputs := if s.passCh + 1 < s.params.nCh then .pass pins now :: rest else rest } := by
  simp only [retire, h]
  split
  · rw [← h]
  · rfl

/-- A host operation is used up, and nothing else is touched. -/
theorem retire_hostOp {s : State} {e : InEvent} {rest : List InEvent} {j : Instr} (i : Instr)
    (h : s.inputs = e :: rest) (he : hostOp e = some j) : retire i s = { s with inputs := rest } := by
  cases e <;> simp only [retire, h] <;> cases he

/-! ### The operation selected -/

/-- A host operation is fetched as it is. -/
theorem fetch_hostOp {s : State} {e : InEvent} {rest : List InEvent} {j : Instr}
    (h : s.inputs = e :: rest) (he : hostOp e = some j) : fetch s = .run j := by
  cases e <;> simp only [fetch, h] <;> cases he <;> rfl

/-- Where the fetch of a pass runs an operation, it is the one of the row of the channel that the pass stands at. -/
theorem fetch_run_pass {s : State} {pins now : Nat} {rest : List InEvent} {i : Instr}
    (hi : s.inputs = .pass pins now :: rest) (hf : fetch s = .run i) :
    timeOk s.disNow now = true ∧ ∃ c, s.dis.channels[s.passCh]? = some c ∧
      i = decodeCond c.state (asserted s.params (pinLevel pins s.passCh)) (expired c now) s.passCh now := by
  have ht : timeOk s.disNow now = true := by
    by_contra h
    simp only [fetch, hi] at hf
    rw [if_neg h] at hf
    cases hf
  cases hc : s.dis.channels[s.passCh]? with
  | none => simp [fetch, hi, ht, hc] at hf
  | some c =>
    have hb : deadlineWithin s.params c now = true := by
      by_contra h
      simp [fetch, hi, ht, hc, h] at hf
    rw [fetch_pass hi ht hc hb] at hf
    cases hf
    exact ⟨ht, c, rfl, rfl⟩

theorem ofFd_of_decodeRow {st : FdState} {g : BitVec 2} {b : Byte} {now : Nat} {i : Instr}
    (h : decodeRow st g b now = .instr i) : ofFd i = true := by
  cases st <;> simp only [decodeRow] at h <;> split_ifs at h <;> cases h <;> rfl

theorem ofFd_decodeCond (st : DbState) (a e : Bool) (ch now : Nat) : ofFd (decodeCond st a e ch now) = false := by
  cases st <;> cases a <;> cases e <;> rfl

end Sys2Proof.Machine
end

section
/-! What the operation of a byte can do and what a sample does to its channel, said once: `ByteRow` has one case per branch of
the decoder's rows, `sampled` follows the table of R205. -/

namespace Sys2Proof.Machine

/-! ### A byte -/

/-- The operations of a byte `b` at the time `now` once the watchdog has let it pass, one case per branch of a row: the
state and guard that select it (30_encoding.md R110), and the state it leaves (40_frame_decoder.md R132 to R146). -/
inductive ByteRow (s : State) (b : Byte) (now : Nat) : State → Prop
  | idleSkip (hs : s.fd.state = .idle) (hb : b ≠ Config.sop) : ByteRow s b now s
  | idleSop (hs : s.fd.state = .idle) (hb : b = Config.sop) : ByteRow s b now (openSession now s)
  | sopType (hs : s.fd.state = .sop) (hb : b = Config.typeSig) :
      ByteRow s b now (s.setFd
        { s.fd with typ := Config.typeSig, csum := s.fd.csum ^^^ Config.typeSig, cnt := 0, state := .readLength })
  | sopBadtype (hs : s.fd.state = .sop) (hb : b ≠ Config.typeSig) : ByteRow s b now (reject .badType s)
  | lenHi (hs : s.fd.state = .readLength) (hc : s.fd.cnt = 0) :
      ByteRow s b now (s.setFd { s.fd with len := withHi s.fd.len b, csum := s.fd.csum ^^^ b, cnt := 1 })
  | lenLo (hs : s.fd.state = .readLength) (hc : s.fd.cnt = 1) (hl : s.params.hdrSize < (withLo s.fd.len b).toNat) :
      ByteRow s b now (s.setFd
        { s.fd with len := withLo s.fd.len b, csum := s.fd.csum ^^^ b, cnt := 0, state := .readHeader })
  | lenTooSmall (hs : s.fd.state = .readLength) (hc : s.fd.cnt = 1)
      (hl : (withLo s.fd.len b).toNat ≤ s.params.hdrSize) :
      ByteRow s b now (reject .lenTooSmall (s.setFd
        { s.fd with len := withLo s.fd.len b, csum := s.fd.csum ^^^ b }))
  | hdrByte (hs : s.fd.state = .readHeader) (hc : s.fd.cnt.toNat + 1 < s.params.hdrSize) :
      ByteRow s b now (s.setFd
        { s.fd with hdr := s.fd.hdr.write s.fd.cnt.toNat b, csum := s.fd.csum ^^^ b, cnt := s.fd.cnt + 1 })
  | hdrLast (hs : s.fd.state = .readHeader) (hc : s.fd.cnt.toNat + 1 = s.params.hdrSize)
      (hl : bodyLength s.fd.len s.params.hdrSize ≠ 0) :
      ByteRow s b now (s.setFd
        { s.fd with
          hdr := s.fd.hdr.write s.fd.cnt.toNat b, csum := s.fd.csum ^^^ b, cnt := 0,
          bodyLen := bodyLength s.fd.len s.params.hdrSize, state := .readBody })
  | hdrNoBody (hs : s.fd.state = .readHeader) (hc : s.fd.cnt.toNat + 1 = s.params.hdrSize)
      (hl : bodyLength s.fd.len s.params.hdrSize = 0) :
      ByteRow s b now (s.setFd
        { s.fd with
          hdr := s.fd.hdr.write s.fd.cnt.toNat b, csum := s.fd.csum ^^^ b, cnt := 0,
          bodyLen := 0, state := .checksum })
  | bodyByte (hs : s.fd.state = .readBody) (hc : s.fd.cnt.toNat < s.params.bodyCap)
      (hl : s.fd.cnt.toNat + 1 ≠ s.fd.bodyLen.toNat) :
      ByteRow s b now (s.setFd
        { s.fd with body := s.fd.body.write s.fd.cnt.toNat b, csum := s.fd.csum ^^^ b, cnt := s.fd.cnt + 1 })
  | bodyLast (hs : s.fd.state = .readBody) (hc : s.fd.cnt.toNat < s.params.bodyCap)
      (hl : s.fd.cnt.toNat + 1 = s.fd.bodyLen.toNat) :
      ByteRow s b now (s.setFd
        { s.fd with
          body := s.fd.body.write s.fd.cnt.toNat b, csum := s.fd.csum ^^^ b, cnt := s.fd.cnt + 1, state := .checksum })
  | bodyOvf (hs : s.fd.state = .readBody) (hc : s.params.bodyCap ≤ s.fd.cnt.toNat) :
      ByteRow s b now (reject .bodyOverflow s)
  | discardDrop (hs : s.fd.state = .discard) (hb : b ≠ Config.sop ∨ s.params.discardResync = false) : ByteRow s b now s
  | discardSop (hs : s.fd.state = .discard) (hb : b = Config.sop) (hr : s.params.discardResync = true) :
      ByteRow s b now (openSession now s)
  | csumOk (hs : s.fd.state = .checksum) (hb : b = s.fd.csum) :
      ByteRow s b now (s.setFd { s.fd with state := .eop })
  | csumBad (hs : s.fd.state = .checksum) (hb : b ≠ s.fd.csum) : ByteRow s b now (reject .csumMismatch s)
  | eopOk (hs : s.fd.state = .eop) (hb : b = Config.eop) (hl : s.fd.bodyLen.toNat ≤ s.params.bodyCap) :
      ByteRow s b now ((deliver s).setFd { s.fd with state := .idle })
  | eopBad (hs : s.fd.state = .eop) (hb : b ≠ Config.eop) : ByteRow s b now (reject .badEop s)

theorem byteRow_of_lenLo {s t : State} {b : Byte} {now : Nat} (hs : s.fd.state = .readLength) (hc : s.fd.cnt = 1)
    (he : exec (.fdLenLo b) s = .next t) : ByteRow s b now t := by
  obtain ⟨-, he⟩ := requireFd_eq_next he
  split at he <;> cases he
  · exact .lenTooSmall hs hc ‹_›
  · exact .lenLo hs hc (by omega)

theorem byteRow_of_hdrByte {s t : State} {b : Byte} {now : Nat} (hs : s.fd.state = .readHeader)
    (he : exec (.fdHdrByte b) s = .next t) : ByteRow s b now t := by
  obtain ⟨-, he⟩ := requireFd_eq_next he
  obtain ⟨u, hu, he⟩ := andThen_eq_next he
  obtain ⟨hlt, rfl⟩ := memWrite_next hu
  have hlt : s.fd.cnt.toNat < s.params.hdrSize := hlt
  dsimp only at he
  split at he <;> cases he
  · exact .hdrByte hs ‹_›
  · split
    · rename_i hl
      rw [hl]; exact .hdrNoBody hs (by omega) hl
    · exact .hdrLast hs (by omega) ‹_›

theorem byteRow_of_bodyByte {s t : State} {b : Byte} {now : Nat} (hs : s.fd.state = .readBody)
    (he : exec (.fdBodyByte b) s = .next t) : ByteRow s b now t := by
  obtain ⟨-, he⟩ := requireFd_eq_next he
  obtain ⟨u, hu, he⟩ := andThen_eq_next he
  obtain ⟨hlt, rfl⟩ := memWrite_next hu
  cases he
  split
  · exact .bodyLast hs hlt ‹_›
  · exact .bodyByte hs hlt ‹_›

theorem byteRow_of_eopOk {s t : State} {now : Nat} (hs : s.fd.state = .eop)
    (he : exec .fdEopOk s = .next t) : ByteRow s Config.eop now t := by
  obtain ⟨-, he⟩ := requireFd_eq_next he
  split at he <;> cases he
  exact .eopOk hs rfl ‹_›

/-- A byte's operation that goes on is one of these cases. -/
theorem byteRow_of_exec {s t : State} {b : Byte} {now : Nat} {i : Instr}
    (hd : decodeRow s.fd.state (guardBits s.params s.fd b) b now = .instr i) (he : exec i s = .next t) :
    ByteRow s b now t := by
  cases hs : s.fd.state <;> rw [hs] at hd <;>
    simp only [decodeRow, guardBits, hs, ne_eq, not_true_eq_false, if_false] at hd
  case idle =>
    split at hd <;> cases hd <;> obtain ⟨-, he⟩ := requireFd_eq_next he <;> cases he
    · exact .idleSop hs ‹_›
    · exact .idleSkip hs ‹_›
  case sop =>
    split at hd <;> cases hd <;> obtain ⟨-, he⟩ := requireFd_eq_next he <;> cases he
    · exact .sopType hs ‹_›
    · exact .sopBadtype hs ‹_›
  case readLength =>
    by_cases h0 : s.fd.cnt = 0
    · simp only [h0, if_true] at hd
      cases hd
      obtain ⟨-, he⟩ := requireFd_eq_next he
      cases he
      exact .lenHi hs h0
    · by_cases h1 : s.fd.cnt = 1
      · simp [h1] at hd
        subst hd
        exact byteRow_of_lenLo hs h1 he
      · simp only [h0, h1, if_false] at hd
        cases hd
  case readHeader =>
    cases hd
    exact byteRow_of_hdrByte hs he
  case readBody =>
    by_cases hc : s.params.bodyCap ≤ s.fd.cnt.toNat
    · simp [hc] at hd
      subst hd
      obtain ⟨-, he⟩ := requireFd_eq_next he
      cases he
      exact .bodyOvf hs hc
    · simp [hc] at hd
      subst hd
      exact byteRow_of_bodyByte hs he
  case checksum =>
    by_cases hb : b = s.fd.csum <;> simp [hb] at hd <;> subst hd <;>
      obtain ⟨-, he⟩ := requireFd_eq_next he <;> cases he
    · exact .csumOk hs hb
    · exact .csumBad hs hb
  case eop =>
    split at hd <;> cases hd
    · subst b; exact byteRow_of_eopOk hs he
    · obtain ⟨-, he⟩ := requireFd_eq_next he
      cases he
      exact .eopBad hs ‹_›
  case discard =>
    by_cases hb : b = Config.sop
    · cases hr : s.params.discardResync <;> simp [hb, hr] at hd <;> subst hd <;>
        obtain ⟨-, he⟩ := requireFd_eq_next he <;> cases he
      · exact .discardDrop hs (.inr hr)
      · exact .discardSop hs hb hr
    · simp [hb] at hd
      subst hd
      obtain ⟨-, he⟩ := requireFd_eq_next he
      cases he
      exact .discardDrop hs (.inl hb)

/-- After the operation of a byte the decoder is in `idle`, or in a session that the byte opened, or in the one that was
open. -/
theorem byteRow_session {s t : State} {b : Byte} {now : Nat} (hr : ByteRow s b now t) :
    t.fd.state = .idle ∨ t.fd.tStart = now ∨ (s.fd.state ≠ .idle ∧ t.fd.tStart = s.fd.tStart) := by
  cases hr with
  | idleSkip hs => exact .inl hs
  | idleSop | discardSop => exact .inr (.inl rfl)
  | eopOk => exact .inl rfl
  | sopType hs | sopBadtype hs | lenHi hs | lenLo hs | lenTooSmall hs | hdrByte hs | hdrLast hs | hdrNoBody hs
  | bodyByte hs | bodyLast hs | bodyOvf hs | discardDrop hs | csumOk hs | csumBad hs | eopBad hs =>
    exact .inr (.inr ⟨by simp [hs], rfl⟩)

/-- The operation of a byte leaves a buffer alone, or stores the byte at `fd_cnt`, an address that the buffer has. -/
theorem byteRow_buffer {s t : State} {b : Byte} {now : Nat} (hr : ByteRow s b now t) (sp : Space) :
    t.fd.buffer sp = s.fd.buffer sp ∨
      (s.fd.cnt.toNat < spaceSize s.params sp ∧ t.fd.buffer sp = (s.fd.buffer sp).write s.fd.cnt.toNat b) := by
  cases hr with
  | hdrByte _ hc | hdrLast _ hc | hdrNoBody _ hc =>
    cases sp
    · exact .inr ⟨by rw [spaceSize]; omega, rfl⟩
    · exact .inl rfl
  | bodyByte _ hc | bodyLast _ hc =>
    cases sp
    · exact .inl rfl
    · exact .inr ⟨hc, rfl⟩
  | _ => exact .inl (by cases sp <;> rfl)

/-! ### A sample -/

/-- A channel after a sample, by the table of R205. -/
def sampled (p : Params) (c : Channel) (a e : Bool) (now : Nat) : Channel where
  state := (dbRow c.state a e).1
  deadline := if (dbRow c.state a e).2.1 then now + p.holdTicks else c.deadline

theorem changeChannel_channels {s t : State} {ch : Nat} {f : Channel → Channel} {c : Channel}
    (hc : s.dis.channels[ch]? = some c) (h : changeChannel ch f s = .next t) :
    t.dis.channels = s.dis.channels.set ch (f c) := by
  rw [changeChannel_of_some hc] at h
  cases h
  rfl

theorem confirm_channels {s t : State} {ch : Nat} {st : DbState} {v : Bool} {c : Channel}
    (hc : s.dis.channels[ch]? = some c) (h : confirm st v ch s = .next t) :
    t.dis.channels = s.dis.channels.set ch { c with state := st } := by
  rw [confirm_of_some hc] at h
  cases h
  simp

/-- The operation that a channel's state and condition select takes the channel along the table of R205. -/
theorem exec_decodeCond_channels {s t : State} {c : Channel} {ch now : Nat} {a e : Bool}
    (hc : s.dis.channels[ch]? = some c) (h : exec (decodeCond c.state a e ch now) s = .next t) :
    t.dis.channels = s.dis.channels.set ch (sampled s.params c a e now) := by
  obtain ⟨st, d⟩ := c
  cases st with
  | init => cases a <;> exact changeChannel_channels hc (requireDis_eq_next h).2
  | active | inactive => cases a <;> exact changeChannel_channels hc (requireDis_eq_next h).2
  | invalid5 | invalid6 | invalid7 => exact changeChannel_channels hc (requireDis_eq_next h).2
  | pendingActive =>
    cases a
    · exact changeChannel_channels hc (requireDis_eq_next h).2
    · cases e
      · exact changeChannel_channels hc (requireDis_eq_next h).2
      · exact confirm_channels hc (requireDis_eq_next h).2
  | pendingInactive =>
    cases a
    · cases e
      · exact changeChannel_channels hc (requireDis_eq_next h).2
      · exact confirm_channels hc (requireDis_eq_next h).2
    · exact changeChannel_channels hc (requireDis_eq_next h).2

theorem sampled_valid (p : Params) (c : Channel) (a e : Bool) (now : Nat) :
    (sampled p c a e now).state.isInvalid = false := by
  obtain ⟨st, d⟩ := c
  cases st <;> cases a <;> cases e <;> rfl

/-- A channel is pending after a sample only where it was armed just now or waits unchanged. -/
theorem sampled_pending {p : Params} {c : Channel} {a e : Bool} {now : Nat}
    (h : isPending (sampled p c a e now).state = true) :
    (sampled p c a e now).deadline = now + p.holdTicks ∨ sampled p c a e now = c := by
  obtain ⟨st, d⟩ := c
  cases st <;> cases a <;> cases e <;> simp [sampled, dbRow, isPending] at h ⊢

end Sys2Proof.Machine
end

section
/-! The frame decoder's part of the invariant (10_state.md R30, 20_memory.md R61, R62): every byte keeps it. -/

namespace Sys2Proof.Machine

/-! ### What a buffer holds after a byte is stored -/

theorem written_setFd {s : State} {r : FdRegs} {sp : Space} {n : Nat} (hr : r.buffer sp = s.fd.buffer sp)
    (h : s.written sp n) : (s.setFd r).written sp n := by
  intro a ha
  rw [setFd_fd, hr]
  exact h a ha

theorem written_write {s : State} {r : FdRegs} {sp : Space} {n : Nat} {b : Byte}
    (hr : r.buffer sp = (s.fd.buffer sp).write n b) (h : s.written sp n) : (s.setFd r).written sp (n + 1) := by
  intro a ha
  rw [setFd_fd, hr]
  by_cases hn : a = n
  · rw [hn, Memory.read_write_same]; rfl
  · rw [Memory.read_write_other _ _ _ _ hn]
    exact h a (by omega)

theorem readBytes_setFd {s : State} {r : FdRegs} {sp : Space} (hr : r.buffer sp = s.fd.buffer sp) (a n : Nat) :
    (s.setFd r).readBytes sp a n = s.readBytes sp a n :=
  readBytes_congr fun k _ => by simp [State.readByte, hr]

/-- The exclusive-or of the buffered bytes, one more of them stored. -/
theorem xorBytes_readBytes_write {s : State} {r : FdRegs} {sp : Space} {n : Nat} {b : Byte}
    (hr : r.buffer sp = (s.fd.buffer sp).write n b) :
    xorBytes ((s.setFd r).readBytes sp 0 (n + 1)) = xorBytes (s.readBytes sp 0 n) ^^^ b := by
  rw [readBytes_write s r sp n b hr, xorBytes_append_singleton]

theorem bufferInv_write {s t : State} {sp : Space} {a : Nat} {b : Byte} (h : BufferInv s sp)
    (hp : t.params = s.params) (ha : a < spaceSize s.params sp)
    (hb : t.fd.buffer sp = (s.fd.buffer sp).write a b) : BufferInv t sp := by
  obtain ⟨hwf, hlt⟩ := h
  rw [BufferInv, hb, hp]
  refine ⟨Memory.wf_write _ _ _ hwf, fun c hc => ?_⟩
  obtain hc | hc := Memory.mem_write hc
  · rwa [hc]
  · exact hlt c hc

theorem bufferInv_congr {s t : State} {sp : Space} (h : BufferInv s sp) (hp : t.params = s.params)
    (hb : t.fd.buffer sp = s.fd.buffer sp) : BufferInv t sp := by
  rwa [BufferInv, hb, hp]

/-! ### Length bytes -/

theorem extractHi_withHi (len : Half) (b : Byte) : (withHi len b).extractLsb' 8 8 = b := by
  rw [withHi, BitVec.extractLsb'_append_eq_left]

theorem extractHi_withLo (len : Half) (b : Byte) : (withLo len b).extractLsb' 8 8 = len.extractLsb' 8 8 := by
  rw [withLo, BitVec.extractLsb'_append_eq_left]

theorem extractLo_withLo (len : Half) (b : Byte) : (withLo len b).extractLsb' 0 8 = b := by
  rw [withLo, BitVec.extractLsb'_append_eq_right]

theorem bodyLength_toNat {len : Half} {n : Nat} (h : n < len.toNat) : (bodyLength len n).toNat = len.toNat - n - 1 := by
  have := len.isLt
  rw [bodyLength_eq h, BitVec.toNat_ofNat]
  omega

theorem toNat_cnt_succ {x : Half} {n : Nat} (h : x.toNat < n) (hn : n ≤ 65534) : (x + 1).toNat = x.toNat + 1 := by
  rw [BitVec.toNat_add]
  show (x.toNat + 1) % 65536 = _
  omega

/-! ### The invariant of the decoder, state by state (R30) -/

/-- The parameters' bounds that the invariant rests on. -/
theorem params_bounds {p : Params} (h : p.wf = true) :
    1 ≤ p.hdrSize ∧ p.hdrSize ≤ 65534 ∧ 1 ≤ p.bodyCap ∧ p.bodyCap ≤ 65519 ∧ 1 ≤ p.nCh := by
  simp only [Params.wf, Bool.and_eq_true, decide_eq_true_eq] at h
  omega

theorem fdInv_of_idle_or_discard {s : State} (h : s.fd.state = .idle ∨ s.fd.state = .discard) : FdInv s := by
  obtain h | h := h <;> simp [FdInv, h]

theorem fdInv_congr {s t : State} (h : FdInv s) (hfd : t.fd = s.fd) (hp : t.params = s.params)
    (he : t.bufEpoch = s.bufEpoch) : FdInv t := by
  unfold FdInv State.written State.readBytes State.readByte at *
  rwa [hfd, hp, he]

theorem fdInv_reject (c : Cause) (s : State) : FdInv (reject c s) :=
  fdInv_of_idle_or_discard (by cases c <;> simp [Cause.target])

theorem fdInv_openSession (now : Nat) (s : State) : FdInv (openSession now s) := rfl

theorem fdInv_readLength_zero {s : State} (hs : s.fd.state = .readLength) (hc : s.fd.cnt = 0) :
    FdInv s ↔ s.fd.typ = Config.typeSig ∧ s.fd.csum = s.fd.typ := by
  simp [FdInv, hs, hc]

theorem fdInv_readLength_one {s : State} (hs : s.fd.state = .readLength) (hc : s.fd.cnt = 1) :
    FdInv s ↔ s.fd.typ = Config.typeSig ∧ s.fd.csum = s.fd.typ ^^^ s.fd.len.extractLsb' 8 8 := by
  simp [FdInv, hs, hc]

/-- A header byte stored at `fd_cnt`: the header is written one byte further, and the checksum covers that byte too. -/
theorem hdrByte_stored {s : State} (b : Byte) (h : FdInv s) (hs : s.fd.state = .readHeader) :
    s.fd.typ = Config.typeSig ∧ s.fd.cnt.toNat < s.params.hdrSize ∧ s.params.hdrSize < s.fd.len.toNat ∧
    (∀ r : FdRegs, r.buffer .hdr = (s.fd.buffer .hdr).write s.fd.cnt.toNat b →
      (s.setFd r).written .hdr (s.fd.cnt.toNat + 1)) ∧
    ∀ r : FdRegs, r.buffer .hdr = (s.fd.buffer .hdr).write s.fd.cnt.toNat b →
      s.fd.csum ^^^ b = leadXor s.fd ^^^ xorBytes ((s.setFd r).readBytes .hdr 0 (s.fd.cnt.toNat + 1)) := by
  simp only [FdInv, hs] at h
  obtain ⟨htyp, hcnt, hlen, hw, hx⟩ := h
  refine ⟨htyp, hcnt, hlen, fun r hr => written_write hr hw, fun r hr => ?_⟩
  rw [xorBytes_readBytes_write hr, hx, BitVec.xor_assoc]

/-- A body byte stored at `fd_cnt`: the body is written one byte further, the header is as it was, and the checksum covers
that byte too. -/
theorem bodyByte_stored {s : State} (b : Byte) (h : FdInv s) (hs : s.fd.state = .readBody) :
    s.fd.typ = Config.typeSig ∧ s.fd.cnt.toNat < s.fd.bodyLen.toNat ∧
    s.fd.len.toNat = s.params.hdrSize + s.fd.bodyLen.toNat + 1 ∧
    (∀ r : FdRegs, r.buffer .hdr = s.fd.buffer .hdr → (s.setFd r).written .hdr s.params.hdrSize) ∧
    (∀ r : FdRegs, r.buffer .body = (s.fd.buffer .body).write s.fd.cnt.toNat b →
      (s.setFd r).written .body (s.fd.cnt.toNat + 1)) ∧
    ∀ r : FdRegs, r.buffer .hdr = s.fd.buffer .hdr →
      r.buffer .body = (s.fd.buffer .body).write s.fd.cnt.toNat b →
      s.fd.csum ^^^ b = leadXor s.fd ^^^ xorBytes ((s.setFd r).readBytes .hdr 0 s.params.hdrSize) ^^^
        xorBytes ((s.setFd r).readBytes .body 0 (s.fd.cnt.toNat + 1)) := by
  simp only [FdInv, hs] at h
  obtain ⟨htyp, hcnt, -, hlen, hwh, hwb, hx⟩ := h
  refine ⟨htyp, hcnt, hlen, fun r hh => written_setFd hh hwh, fun r hb => written_write hb hwb, fun r hh hb => ?_⟩
  rw [readBytes_setFd hh, xorBytes_readBytes_write hb, hx, BitVec.xor_assoc]

theorem fdInv_hdrByte {s : State} (b : Byte) (hp : s.params.wf = true) (h : FdInv s) (hs : s.fd.state = .readHeader)
    (hc : s.fd.cnt.toNat + 1 < s.params.hdrSize) :
    FdInv (s.setFd { s.fd with
      hdr := s.fd.hdr.write s.fd.cnt.toNat b, csum := s.fd.csum ^^^ b, cnt := s.fd.cnt + 1 }) := by
  obtain ⟨htyp, hcnt, hlen, hw, hx⟩ := hdrByte_stored b h hs
  obtain ⟨-, hsize, -⟩ := params_bounds hp
  have hn : (s.fd.cnt + 1).toNat = s.fd.cnt.toNat + 1 := toNat_cnt_succ hcnt hsize
  simp only [FdInv, setFd_fd, setFd_params, hs, hn]
  exact ⟨htyp, hc, hlen, hw _ rfl, hx _ rfl⟩

theorem fdInv_hdrLast {s : State} (b : Byte) (h : FdInv s) (hs : s.fd.state = .readHeader)
    (hc : s.fd.cnt.toNat + 1 = s.params.hdrSize) (hl : bodyLength s.fd.len s.params.hdrSize ≠ 0) :
    FdInv (s.setFd { s.fd with
      hdr := s.fd.hdr.write s.fd.cnt.toNat b, csum := s.fd.csum ^^^ b, cnt := 0,
      bodyLen := bodyLength s.fd.len s.params.hdrSize, state := .readBody }) := by
  obtain ⟨htyp, -, hlen, hw, hx⟩ := hdrByte_stored b h hs
  rw [hc] at hw hx
  have hbl := bodyLength_toNat hlen
  have hpos : (bodyLength s.fd.len s.params.hdrSize).toNat ≠ 0 := fun h => hl (BitVec.eq_of_toNat_eq h)
  refine ⟨htyp, Nat.pos_of_ne_zero hpos, Nat.zero_le _, ?_, hw _ rfl, nofun, Eq.trans ?_ BitVec.xor_zero.symm⟩
  · simp only [setFd_fd, setFd_params]; omega
  · exact hx _ rfl

theorem fdInv_hdrNoBody {s : State} (b : Byte) (h : FdInv s) (hs : s.fd.state = .readHeader)
    (hc : s.fd.cnt.toNat + 1 = s.params.hdrSize) (hl : bodyLength s.fd.len s.params.hdrSize = 0) :
    FdInv (s.setFd { s.fd with
      hdr := s.fd.hdr.write s.fd.cnt.toNat b, csum := s.fd.csum ^^^ b, cnt := 0,
      bodyLen := 0, state := .checksum }) := by
  obtain ⟨htyp, -, hlen, hw, hx⟩ := hdrByte_stored b h hs
  rw [hc] at hw hx
  have hbl := bodyLength_toNat hlen
  rw [hl] at hbl
  refine ⟨htyp, Nat.zero_le _, ?_, hw _ rfl, nofun, Eq.trans ?_ BitVec.xor_zero.symm⟩
  · simp only [setFd_fd, setFd_params]; omega
  · exact hx _ rfl

theorem fdInv_bodyByte {s : State} (b : Byte) (hp : s.params.wf = true) (h : FdInv s) (hs : s.fd.state = .readBody)
    (hc : s.fd.cnt.toNat < s.params.bodyCap) (hl : s.fd.cnt.toNat + 1 ≠ s.fd.bodyLen.toNat) :
    FdInv (s.setFd { s.fd with
      body := s.fd.body.write s.fd.cnt.toNat b, csum := s.fd.csum ^^^ b, cnt := s.fd.cnt + 1 }) := by
  obtain ⟨htyp, hcnt, hlen, hwh, hwb, hx⟩ := bodyByte_stored b h hs
  obtain ⟨-, -, -, hcap, -⟩ := params_bounds hp
  have hn : (s.fd.cnt + 1).toNat = s.fd.cnt.toNat + 1 := toNat_cnt_succ hc (by omega)
  simp only [FdInv, setFd_fd, setFd_params, hs, hn]
  exact ⟨htyp, by omega, hc, hlen, hwh _ rfl, hwb _ rfl, hx _ rfl rfl⟩

theorem fdInv_bodyLast {s : State} (b : Byte) (h : FdInv s) (hs : s.fd.state = .readBody)
    (hc : s.fd.cnt.toNat < s.params.bodyCap) (hl : s.fd.cnt.toNat + 1 = s.fd.bodyLen.toNat) :
    FdInv (s.setFd { s.fd with
      body := s.fd.body.write s.fd.cnt.toNat b, csum := s.fd.csum ^^^ b, cnt := s.fd.cnt + 1, state := .checksum }) := by
  obtain ⟨htyp, -, hlen, hwh, hwb, hx⟩ := bodyByte_stored b h hs
  simp only [FdInv, setFd_fd, setFd_params, ← hl]
  exact ⟨htyp, hc, by omega, hwh _ rfl, hwb _ rfl, hx _ rfl rfl⟩

theorem byteRow_fdInv {s t : State} {b : Byte} {now : Nat} (hp : s.params.wf = true) (h : FdInv s)
    (hr : ByteRow s b now t) : FdInv t := by
  cases hr with
  | idleSkip | discardDrop => exact h
  | idleSop | discardSop => exact fdInv_openSession now s
  | sopBadtype | lenTooSmall | bodyOvf | csumBad | eopBad => exact fdInv_reject _ _
  | eopOk => exact fdInv_of_idle_or_discard (.inl rfl)
  | hdrByte hs hc => exact fdInv_hdrByte b hp h hs hc
  | hdrLast hs hc hl => exact fdInv_hdrLast b h hs hc hl
  | hdrNoBody hs hc hl => exact fdInv_hdrNoBody b h hs hc hl
  | bodyByte hs hc hl => exact fdInv_bodyByte b hp h hs hc hl
  | bodyLast hs hc hl => exact fdInv_bodyLast b h hs hc hl
  | sopType hs =>
    simp only [FdInv, hs] at h
    simp [FdInv, h]
  | lenHi hs hc =>
    obtain ⟨htyp, hx⟩ := (fdInv_readLength_zero hs hc).1 h
    refine (fdInv_readLength_one ?_ ?_).2 ⟨htyp, ?_⟩
    · exact hs
    · rfl
    · simp [hx, extractHi_withHi]
  | lenLo hs hc hl =>
    obtain ⟨htyp, hx⟩ := (fdInv_readLength_one hs hc).1 h
    obtain ⟨hpos, -⟩ := params_bounds hp
    refine ⟨htyp, hpos, hl, nofun, ?_⟩
    simp [hx, leadXor, xorBytes, extractHi_withLo, extractLo_withLo]
  | csumOk hs =>
    simp only [FdInv, hs] at h
    exact h

/-! ### The part of the invariant that speaks of the decoder -/

/-- What `Inv` says of the frame decoder. -/
structure DecoderInv (s : State) : Prop where
  fd : FdInv s
  session : SessionInv s
  buffers : ∀ sp, BufferInv s sp

theorem inv_iff (s : State) : Inv s ↔ s.params.wf = true ∧ DecoderInv s ∧ DisInv s := by
  constructor
  · rintro ⟨hp, hfd, hses, hhdr, hbody, hdis⟩
    exact ⟨hp, ⟨hfd, hses, fun sp => by cases sp <;> assumption⟩, hdis⟩
  · rintro ⟨hp, ⟨hfd, hses, hbuf⟩, hdis⟩
    exact ⟨hp, hfd, hses, hbuf .hdr, hbuf .body, hdis⟩

theorem decoderInv_congr {s t : State} (h : DecoderInv s) (hfd : t.fd = s.fd) (hp : t.params = s.params)
    (he : t.bufEpoch = s.bufEpoch) (hn : t.fdNow = s.fdNow) : DecoderInv t where
  fd := fdInv_congr h.fd hfd hp he
  session := by
    have := h.session
    rwa [SessionInv, hfd, hn]
  buffers sp := bufferInv_congr (h.buffers sp) hp (by rw [hfd])

theorem decoderInv_reset (s : State) (h : s.fd = FdRegs.reset) : DecoderInv s where
  fd := fdInv_of_idle_or_discard (.inl (by rw [h]; rfl))
  session := fun hne => absurd (by rw [h]; rfl) hne
  buffers sp := by
    cases sp <;> simp [BufferInv, h, FdRegs.reset, FdRegs.buffer]

/-- A byte in time keeps the decoder's part of the invariant. -/
theorem decoderInv_byteRow {s t : State} {b : Byte} {now : Nat} (hp : s.params.wf = true) (h : DecoderInv s)
    (ht : timeOk s.fdNow now = true) (hw : timedOut s.fd now = false) (hr : ByteRow s b now t)
    (hpt : t.params = s.params) : DecoderInv { t with fdNow := some now } where
  fd := fdInv_congr (byteRow_fdInv hp h.fd hr) rfl rfl rfl
  session hne := by
    refine ⟨now, rfl, ?_⟩
    rw [elapsed]
    obtain hidle | hnew | ⟨hopen, hsame⟩ := byteRow_session hr
    · exact absurd hidle hne
    · exact ⟨hnew.le, by simp [hnew]⟩
    · obtain ⟨l, hl, hstart, -⟩ := h.session hopen
      have hle : l ≤ now := (timeOk_iff _ _).1 ht l hl
      have hin : ¬ (s.fd.state ≠ .idle ∧ s.fd.tStart + 500 < now) := by
        rw [← timedOut_iff, hw]; exact Bool.false_ne_true
      have hlim : now ≤ s.fd.tStart + 500 := Nat.not_lt.1 fun hlt => hin ⟨hopen, hlt⟩
      show t.fd.tStart ≤ now ∧ now - t.fd.tStart ≤ 500
      omega
  buffers sp := by
    obtain hb | ⟨ha, hb⟩ := byteRow_buffer hr sp
    · exact bufferInv_congr (h.buffers sp) hpt hb
    · exact bufferInv_write (h.buffers sp) hpt ha hb

/-- The watchdog closes the session, which the invariant asks nothing of. -/
theorem decoderInv_watchdog {s : State} (h : DecoderInv s) (last : Option Nat) :
    DecoderInv { reject .watchdog s with fdNow := last } where
  fd := fdInv_of_idle_or_discard (.inl rfl)
  session hne := absurd rfl hne
  buffers sp := bufferInv_congr (h.buffers sp) rfl (by cases sp <;> rfl)

end Sys2Proof.Machine
end

section
/-! The sampler's part of the invariant (10_state.md R35, R36): every sample keeps it. -/

namespace Sys2Proof.Machine

theorem disInv_congr {s t : State} (h : DisInv s) (hd : t.dis = s.dis) (hp : t.params = s.params)
    (hn : t.disNow = s.disNow) (hc : t.passCh = s.passCh) : DisInv t := by
  rwa [DisInv, hd, hp, hn, hc]

theorem disInv_reset {s : State} (hd : s.dis = DisRegs.reset s.params.nCh) (hc : s.passCh < s.params.nCh) :
    DisInv s := by
  have hch : ∀ c ∈ s.dis.channels, c = Channel.reset := by
    rw [hd]; exact fun c hc => List.eq_of_mem_replicate hc
  refine ⟨by rw [hd]; exact List.length_replicate, fun c hc => ?_, fun c hc hpend => ?_, hc⟩
  · rw [hch c hc]; rfl
  · rw [hch c hc] at hpend; cases hpend

/-- A sample at a time that does not go back keeps the sampler's part of the invariant. -/
theorem disInv_sampled {s t : State} {c : Channel} {a e : Bool} {ch now : Nat} (h : DisInv s)
    (ht : timeOk s.disNow now = true) (hc : s.dis.channels[ch]? = some c)
    (hch : t.dis.channels = s.dis.channels.set ch (sampled s.params c a e now)) (hp : t.params = s.params)
    (hn : t.disNow = some now) (hpass : t.passCh < t.params.nCh) : DisInv t := by
  obtain ⟨hlen, hvalid, harmed, -⟩ := h
  have hold : ∀ x ∈ s.dis.channels, isPending x.state = true →
      s.params.holdTicks ≤ x.deadline ∧ armedAt s.params x ≤ now := by
    intro x hx hpend
    obtain ⟨l, hl, hd, ha⟩ := harmed x hx hpend
    exact ⟨hd, ha.trans ((timeOk_iff _ _).1 ht l hl)⟩
  rw [DisInv, hch, hp, List.length_set]
  refine ⟨hlen, fun x hx => ?_, fun x hx hpend => ⟨now, hn, ?_⟩, hp ▸ hpass⟩
  · obtain hx | rfl := List.mem_or_eq_of_mem_set hx
    · exact hvalid x hx
    · exact sampled_valid ..
  · obtain hx | rfl := List.mem_or_eq_of_mem_set hx
    · exact hold x hx hpend
    · obtain hd | hsame := sampled_pending hpend
      · rw [armedAt, hd]; omega
      · rw [hsame] at hpend ⊢
        exact hold c (List.mem_of_getElem? hc) hpend

end Sys2Proof.Machine
end

section
/-! The invariant after reset and along every step (10_state.md R30, R35, R45). -/

namespace Sys2Proof.Machine

theorem inv_step_rx {s t : State} {b : Byte} {now : Nat} {rest : List InEvent} {i : Instr} (h : Inv s)
    (hi : s.inputs = .rx b now :: rest) (hf : fetch s = .run i) (he : exec i s = .next t) : Inv (retire i t) := by
  obtain ⟨hp, hfd, hdis⟩ := (inv_iff s).1 h
  obtain ⟨ht, -, hrow⟩ := fetch_run_rx hi hf
  have hhost := exec_sameHost he
  have hti : t.inputs = .rx b now :: rest := hhost.inputs.trans hi
  have hofFd : ofFd i = true := by
    obtain ⟨-, rfl⟩ | ⟨-, hd⟩ := hrow
    · rfl
    · exact ofFd_of_decodeRow hd
  have hdec : DecoderInv { t with fdNow := some now } := by
    obtain ⟨-, rfl⟩ | ⟨hw, hd⟩ := hrow
    · obtain ⟨-, he⟩ := requireFd_eq_next he
      cases he
      exact decoderInv_watchdog hfd _
    · exact decoderInv_byteRow hp hfd ht hw (byteRow_of_exec hd he) hhost.params
  rw [retire_rx i hti]
  exact (inv_iff _).2 ⟨hhost.params ▸ hp, decoderInv_congr hdec rfl rfl rfl rfl,
    disInv_congr hdis (exec_sameDis hofFd he).dis hhost.params hhost.disNow hhost.passCh⟩

theorem inv_step_pass {s t : State} {pins now : Nat} {rest : List InEvent} {i : Instr} (h : Inv s)
    (hi : s.inputs = .pass pins now :: rest) (hf : fetch s = .run i) (he : exec i s = .next t) :
    Inv (retire i t) := by
  obtain ⟨hp, hfd, hdis⟩ := (inv_iff s).1 h
  obtain ⟨ht, c, hc, rfl⟩ := fetch_run_pass hi hf
  have hhost := exec_sameHost he
  have hti : t.inputs = .pass pins now :: rest := hhost.inputs.trans hi
  have hsame := exec_sameFd (ofFd_decodeCond ..) he
  have hpt : t.params.wf = true := hhost.params ▸ hp
  obtain ⟨-, -, -, -, hn⟩ := params_bounds hpt
  have hpass : (if t.passCh + 1 < t.params.nCh then t.passCh + 1 else 0) < t.params.nCh := by
    split
    · assumption
    · exact hn
  have hch := exec_decodeCond_channels hc he
  rw [retire_pass _ hti]
  exact (inv_iff _).2 ⟨hpt, decoderInv_congr hfd hsame.fd hhost.params hsame.bufEpoch hhost.fdNow,
    disInv_sampled hdis ht hc hch hhost.params rfl hpass⟩

/-- Each of the six host operations keeps the invariant. -/
theorem inv_exec_hostOp {s t : State} {e : InEvent} {i : Instr} (h : Inv s) (he : hostOp e = some i)
    (hx : exec i s = .next t) : Inv t := by
  obtain ⟨hp, hfd, hdis⟩ := (inv_iff s).1 h
  have ⟨_, _, _, hpass⟩ := hdis
  cases e <;> cases he
  case resetFd =>
    cases hx
    exact (inv_iff _).2 ⟨hp, decoderInv_reset _ rfl, disInv_congr hdis rfl rfl rfl rfl⟩
  case resetDis =>
    cases hx
    exact (inv_iff _).2 ⟨hp, decoderInv_congr hfd rfl rfl rfl rfl, disInv_reset rfl hpass⟩
  case setConsumerFd =>
    obtain ⟨-, hx⟩ := requireFd_eq_next hx
    cases hx
    exact (inv_iff _).2 ⟨hp, ⟨hfd.fd, hfd.session, fun sp => bufferInv_congr (hfd.buffers sp) rfl (by cases sp <;> rfl)⟩,
      disInv_congr hdis rfl rfl rfl rfl⟩
  case setConsumerDis =>
    obtain ⟨-, hx⟩ := requireDis_eq_next hx
    cases hx
    exact (inv_iff _).2 ⟨hp, decoderInv_congr hfd rfl rfl rfl rfl, hdis⟩
  case read =>
    obtain ⟨-, hx⟩ := requireDis_eq_next hx
    cases hx
    exact (inv_iff _).2 ⟨hp, decoderInv_congr hfd rfl rfl rfl rfl, disInv_congr hdis rfl rfl rfl rfl⟩
  case readState =>
    obtain ⟨-, hx⟩ := requireFd_eq_next hx
    cases hx
    exact (inv_iff _).2 ⟨hp, decoderInv_congr hfd rfl rfl rfl rfl, disInv_congr hdis rfl rfl rfl rfl⟩

theorem inv_step_hostOp {s t : State} {e : InEvent} {rest : List InEvent} {i j : Instr} (h : Inv s)
    (hi : s.inputs = e :: rest) (hj : hostOp e = some j) (hf : fetch s = .run i) (he : exec i s = .next t) :
    Inv (retire i t) := by
  rw [fetch_hostOp hi hj] at hf
  cases hf
  rw [retire_hostOp _ ((exec_sameHost he).inputs.trans hi) hj]
  obtain ⟨hp, hfd, hdis⟩ := (inv_iff t).1 (inv_exec_hostOp h hj he)
  exact (inv_iff _).2 ⟨hp, decoderInv_congr hfd rfl rfl rfl rfl, disInv_congr hdis rfl rfl rfl rfl⟩

/-- Settles O37, by the event at the head of the input: a byte, a pass, or a host operation. -/
theorem invariantKept : Obligations.InvariantKept := by
  unfold Obligations.InvariantKept
  intro s t h hstep
  obtain ⟨-, rfl⟩ | ⟨i, u, hf, he, rfl⟩ := step_eq_next hstep
  · exact h
  · cases hi : s.inputs with
    | nil => simp [fetch, hi] at hf
    | cons e rest =>
      cases hj : hostOp e with
      | some j => exact inv_step_hostOp h hi hj hf he
      | none =>
        cases e with
        | rx b now => exact inv_step_rx h hi hf he
        | pass pins now => exact inv_step_pass h hi hf he
        | _ => cases hj

/-! ### The state after reset -/

theorem avoidOn_ne (c : Byte) : Config.avoidOn c ≠ Config.reasonOn := by
  unfold Config.avoidOn
  split
  · decide
  · assumption

theorem avoidBoth_ne (off c : Byte) : Config.avoidBoth off c ≠ Config.reasonOn ∧ off ≠ Config.avoidBoth off c := by
  unfold Config.avoidBoth
  split
  · rename_i h
    obtain ⟨hon, hoff⟩ := h
    exact ⟨hon, hoff.symm⟩
  · split
    · exact ⟨by decide, ‹_›⟩
    · rename_i h
      rw [not_not.1 h]; decide

theorem device_wf : Config.device.wf = true := by
  have hoff := avoidOn_ne Config.freeReasonOff
  obtain ⟨hon, hdiff⟩ := avoidBoth_ne (Config.avoidOn Config.freeReasonOff) Config.freeReasonDemand
  have hcap : Config.freeBodyCap % 65519 < 65519 := Nat.mod_lt _ (by decide)
  simp [Params.wf, Config.device, hoff, hon, hdiff]
  omega

/-- Any parameters within their bounds will do. -/
theorem inv_resetWith {p : Params} (hp : p.wf = true) : Inv (State.resetWith p) := by
  obtain ⟨-, -, -, -, hn⟩ := params_bounds hp
  exact (inv_iff _).2 ⟨hp, decoderInv_reset _ rfl, disInv_reset rfl hn⟩

/-- Settles O36: the parameters of the hardware are within their bounds. -/
theorem invariantAtReset : Obligations.InvariantAtReset := by
  unfold Obligations.InvariantAtReset
  exact inv_resetWith device_wf

/-- Settles O1: the registers by the definitions, the channels as copies of the reset one. -/
theorem resetValues : Obligations.ResetValues := by
  unfold Obligations.ResetValues
  have hch : ∀ c ∈ State.reset.dis.channels, c.state = .init ∧ c.deadline = 0 := by
    intro c hc
    rw [show c = Channel.reset from List.eq_of_mem_replicate hc]
    exact ⟨rfl, rfl⟩
  exact ⟨rfl, rfl, rfl, rfl, rfl, rfl, rfl, rfl, rfl, List.length_replicate, hch, rfl, rfl, rfl, rfl, rfl⟩

end Sys2Proof.Machine
end

section
/-! What no step changes (10_state.md R38), what no channel shares (R39), and where the machine stops (log 10, 11). -/

namespace Sys2Proof.Machine

/-! ### The parameters -/

/-- Every operation keeps the number of channels, or sets it to `N_CH`. -/
theorem exec_length_channels {i : Instr} {s t : State} (h : exec i s = .next t)
    (hn : s.dis.channels.length = s.params.nCh) : t.dis.channels.length = s.params.nCh := by
  cases hi : ofFd i with
  | true => rw [(exec_sameDis hi h).dis, hn]
  | false =>
    cases i with
    | hostResetDis => cases h; exact List.length_replicate
    | dbInitA _ _ _ | dbInitD _ _ _ | dbActLeave _ _ _ | dbInaLeave _ _ _ | dbPaBounce _ _ | dbPiBounce _ _
    | dbInvalid _ _ _ _ | dbPaWait _ | dbActStay _ _ | dbPiWait _ | dbInaStay _ _ =>
      obtain ⟨-, h⟩ := requireDis_eq_next h
      obtain ⟨c, -, rfl⟩ := changeChannel_eq_next h
      rw [setChannel_channels, List.length_set, hn]
    | dbPaConfirm _ | dbPiConfirm _ =>
      obtain ⟨-, h⟩ := requireDis_eq_next h
      obtain ⟨c, -, rfl⟩ := confirm_eq_next h
      rw [emitEdge_dis, setChannel_channels, List.length_set, hn]
    | disSetConsumer _ | disRead _ =>
      obtain ⟨-, h⟩ := requireDis_eq_next h
      cases h; exact hn
    | _ => cases hi

/-- Settles O49: no operation touches the parameters (`exec_sameHost`), and none the number of channels. -/
theorem parametersAreFixed : Obligations.ParametersAreFixed := by
  unfold Obligations.ParametersAreFixed
  intro s t hstep
  obtain ⟨-, rfl⟩ | ⟨i, u, -, he, rfl⟩ := step_eq_next hstep
  · exact ⟨rfl, id⟩
  · have hp : (retire i u).params = s.params := (retire_params i u).trans (exec_sameHost he).params
    refine ⟨hp, fun hn => ?_⟩
    rw [hp, retire_dis, exec_length_channels he hn]

/-! ### Independent channels -/

theorem disReadResult_others {s : State} {ch : Nat} {others : List Channel}
    (h : others[ch]? = s.dis.channels[ch]?) :
    disReadResult { s with dis := { s.dis with channels := others } } ch = disReadResult s ch := by
  simp only [disReadResult, h]

theorem sample_others {s t : State} {ch : Nat} {level : Bool} {now : Nat} (h : sample ch level now s = .next t) :
    (∀ k, k ≠ ch → t.dis.channels[k]? = s.dis.channels[k]?) ∧
      ∀ others : List Channel, others[ch]? = s.dis.channels[ch]? →
        ∃ t', sample ch level now { s with dis := { s.dis with channels := others } } = .next t' ∧
          t'.dis.channels[ch]? = t.dis.channels[ch]? ∧ t'.edges = t.edges := by
  obtain ⟨c, hc, he⟩ := sample_eq_next h
  have hinit := disInit_of_sample h
  obtain ⟨c', v, hs, hany⟩ := exec_decodeCond s c ch (asserted s.params level) (expired c now) now hinit hc
  rw [hs] at he
  cases he
  refine ⟨fun k hk => by simp [List.getElem?_set_ne hk.symm], fun others ho => ?_⟩
  have hoc := ho.trans hc
  refine ⟨_, (sample_of hoc).trans (hany _ hinit rfl rfl hoc), ?_, rfl⟩
  obtain ⟨hlt, -⟩ := List.getElem?_eq_some_iff.1 hc
  obtain ⟨hlt', -⟩ := List.getElem?_eq_some_iff.1 hoc
  simp [hlt, hlt']

/-- Settles O45: a sample changes its own channel only, by a value that depends on nothing of the others
(`exec_decodeCond`), and a read looks up its own channel only. -/
theorem channelsAreIndependent : Obligations.ChannelsAreIndependent := by
  unfold Obligations.ChannelsAreIndependent
  intro ch s t
  refine ⟨fun level now h => sample_others h, fun h => ?_⟩
  obtain ⟨hinit, h⟩ := requireDis_eq_next h
  cases h
  refine ⟨rfl, fun others ho => ⟨_, requireDis_of_init hinit _, ?_⟩⟩
  simp [disReadResult_others ho]

/-! ### The stops in states that R30 and R35 exclude -/

theorem memWrite_of_ge {sp : Space} {a : Nat} (b : Byte) {s : State} (h : spaceSize s.params sp ≤ a) :
    memWrite sp a b s = .fault (.noSuchAddress sp a) := by
  rw [memWrite, if_neg (Nat.not_lt.2 h)]

theorem changeChannel_of_none {s : State} {ch : Nat} (h : s.dis.channels[ch]? = none) (f : Channel → Channel) :
    changeChannel ch f s = .fault (.noSuchChannel ch) := by
  simp [changeChannel, h]

theorem confirm_of_none {s : State} {ch : Nat} (h : s.dis.channels[ch]? = none) (st : DbState) (v : Bool) :
    confirm st v ch s = .fault (.noSuchChannel ch) := by
  rw [confirm, moveTo, changeChannel_of_none h, andThen_fault]

theorem exec_onChannel_of_none {i : Instr} {s : State} {ch : Nat} (hinit : s.disInit = true)
    (hi : onChannel ch i = true) (h : s.dis.channels[ch]? = none) : exec i s = .fault (.noSuchChannel ch) := by
  cases i with
  | dbInitA k _ _ | dbInitD k _ _ | dbActLeave k _ _ | dbInaLeave k _ _ | dbPaBounce k _ | dbPiBounce k _
  | dbInvalid k _ _ _ | dbPaWait k | dbActStay k _ | dbPiWait k | dbInaStay k _ =>
    obtain rfl : k = ch := eq_of_beq hi
    exact (requireDis_of_init hinit _).trans (changeChannel_of_none h _)
  | dbPaConfirm k | dbPiConfirm k =>
    obtain rfl : k = ch := eq_of_beq hi
    exact (requireDis_of_init hinit _).trans (confirm_of_none h _ _)
  | _ => cases hi

/-- In `readLength` a counter above 1 gives a guard that no row takes. -/
theorem decodeRow_lengthCount {p : Params} {r : FdRegs} (b : Byte) (now : Nat) (hs : r.state = .readLength)
    (hc : 2 ≤ r.cnt.toNat) : decodeRow r.state (guardBits p r b) b now = .reject .lengthCount := by
  have h0 : r.cnt ≠ 0 := fun h => by rw [h] at hc; exact absurd hc (by decide)
  have h1 : r.cnt ≠ 1 := fun h => by rw [h] at hc; exact absurd hc (by decide)
  simp only [guardBits, hs, decodeRow, h0, h1, if_false]
  rfl

/-- Settles O35: an address that the buffer does not have, a channel that does not exist, a counter that no row takes. -/
theorem excludedStatesStop : Obligations.ExcludedStatesStop := by
  unfold Obligations.ExcludedStatesStop
  intro s
  refine ⟨fun b hinit hc => ?_, fun b hinit hc => ?_, fun hinit hl => ?_, fun i ch hinit hi hlen => ?_,
    fun b now rest hr hs hin hc => ?_⟩
  · exact (requireFd_of_init hinit _).trans (by rw [memWrite_of_ge b (sp := .hdr) hc, andThen_fault])
  · exact (requireFd_of_init hinit _).trans (by rw [memWrite_of_ge b (sp := .body) hc, andThen_fault])
  · exact (requireFd_of_init hinit _).trans (if_neg (Nat.not_le.2 hl))
  · exact exec_onChannel_of_none hinit hi (List.getElem?_eq_none hlen)
  · obtain ⟨hi, ht, hw⟩ := hr
    have hf := fetch_rx hi ht hw (timedOut_of_le hin)
    rw [decodeRow_lengthCount b now hs hc] at hf
    simp only [step, hf, Fetch.ofDecoded]

end Sys2Proof.Machine
end

section
/-! A byte and a pass commute (20_memory.md R72): an operation of the frame decoder does the same whatever the sampler
holds and leaves it there, and a pass looks at nothing of the state but the sampler and the parameters. -/

namespace Sys2Proof.Machine

/-- The state with other registers and events of the sampler, and nothing else changed. -/
def State.withSampler (s : State) (d : DisRegs) (e : List Edge) : State := { s with dis := d, edges := e }

/-! ### A byte, whatever the sampler holds -/

theorem frameOf_withSampler (s : State) (d : DisRegs) (e : List Edge) : frameOf (s.withSampler d e) = frameOf s := rfl

theorem deliver_withSampler (s : State) (d : DisRegs) (e : List Edge) :
    deliver (s.withSampler d e) = (deliver s).withSampler d e := by
  unfold deliver
  rw [frameOf_withSampler, apply_ite (State.withSampler · d e)]
  rfl

theorem memWrite_withSampler {sp : Space} {a : Nat} {b : Byte} {s t : State} (d : DisRegs) (e : List Edge)
    (h : memWrite sp a b s = .next t) : memWrite sp a b (s.withSampler d e) = .next (t.withSampler d e) := by
  obtain ⟨hlt, rfl⟩ := memWrite_next h
  exact memWrite_of_lt b hlt

/-- An operation of the frame decoder does the same whatever the sampler holds. -/
theorem exec_withSampler {i : Instr} {s t : State} (d : DisRegs) (e : List Edge) (hi : ofFd i = true)
    (h : exec i s = .next t) : exec i (s.withSampler d e) = .next (t.withSampler d e) := by
  cases i with
  | hostResetFd => cases h; rfl
  | fdWdog _ _ | fdSopBadtype _ | fdBodyOvf _ | fdCsumBad _ | fdEopBad _ | fdIdleSop _ | fdDiscardSop _ | fdIdleSkip _
  | fdDiscardDrop _ | fdSopType | fdLenHi _ | fdCsumOk _ | fdSetConsumer _ | fdReadState =>
    obtain ⟨hinit, h⟩ := requireFd_eq_next h
    cases h
    exact requireFd_of_init hinit _
  | fdLenLo b =>
    obtain ⟨hinit, h⟩ := requireFd_eq_next h
    cases h
    refine (requireFd_of_init hinit _).trans ?_
    rw [apply_ite (State.withSampler · d e)]
    rfl
  | fdHdrByte b =>
    obtain ⟨hinit, h⟩ := requireFd_eq_next h
    obtain ⟨u, hu, h⟩ := andThen_eq_next h
    refine (requireFd_of_init hinit _).trans ((congrArg (andThen · _) (memWrite_withSampler d e hu)).trans ?_)
    dsimp only at h
    split at h <;> cases h
    · exact if_pos ‹_›
    · exact if_neg ‹_›
  | fdBodyByte b =>
    obtain ⟨hinit, h⟩ := requireFd_eq_next h
    obtain ⟨u, hu, h⟩ := andThen_eq_next h
    cases h
    exact (requireFd_of_init hinit _).trans (congrArg (andThen · _) (memWrite_withSampler d e hu))
  | fdEopOk =>
    obtain ⟨hinit, h⟩ := requireFd_eq_next h
    refine (requireFd_of_init hinit _).trans ?_
    split at h <;> cases h
    rw [deliver_withSampler]
    exact if_pos ‹_›
  | _ => exact absurd hi Bool.false_ne_true

theorem ofFd_of_decodeRx {sel : BitVec 16} {now : Nat} {i : Instr} (h : decodeRx sel now = .instr i) :
    ofFd i = true := by
  unfold decodeRx at h
  split_ifs at h
  · cases h; rfl
  · exact ofFd_of_decodeRow h

/-- The one operation of a byte is an operation of the frame decoder that the decoder answers. -/
theorem rxDispatch_eq_next {s t : State} {b : Byte} {now : Nat} (h : rxDispatch b now s = .next t) :
    ∃ i, decode (.rx (rxSelector s b now) now) = .instr i ∧ ofFd i = true ∧ exec i s = .next t := by
  unfold rxDispatch at h
  cases hd : decode (.rx (rxSelector s b now) now) with
  | instr i =>
    rw [hd] at h
    exact ⟨i, rfl, ofFd_of_decodeRx hd, h⟩
  | reject e =>
    rw [hd] at h
    cases h

theorem rxDispatch_withSampler {s t : State} {b : Byte} {now : Nat} (d : DisRegs) (e : List Edge)
    (h : rxDispatch b now s = .next t) : rxDispatch b now (s.withSampler d e) = .next (t.withSampler d e) := by
  obtain ⟨i, hd, hi, he⟩ := rxDispatch_eq_next h
  have hsel : decode (.rx (rxSelector (s.withSampler d e) b now) now) = .instr i := hd
  rw [rxDispatch, hsel]
  exact exec_withSampler d e hi he

/-- A byte does the same whatever the sampler holds. -/
theorem rx_withSampler {s t : State} {b : Byte} {now : Nat} (d : DisRegs) (e : List Edge) (h : rx b now s = .next t) :
    rx b now (s.withSampler d e) = .next (t.withSampler d e) := by
  unfold rx at h
  split at h
  · obtain ⟨u, hu, h⟩ := andThen_eq_next h
    have hw := exec_withSampler d e rfl hu
    refine (if_pos ‹_›).trans ?_
    exact (congrArg (andThen · (rxDispatch b now)) hw).trans (rxDispatch_withSampler d e h)
  · exact (if_neg ‹_›).trans (rxDispatch_withSampler d e h)

/-- A byte leaves the sampler and the parameters as they were. -/
theorem rx_sameDis {s t : State} {b : Byte} {now : Nat} (h : rx b now s = .next t) :
    SameDis s t ∧ t.params = s.params := by
  have dispatch : ∀ {u : State}, rxDispatch b now u = .next t → SameDis u t ∧ t.params = u.params := by
    intro u h
    obtain ⟨i, -, hi, he⟩ := rxDispatch_eq_next h
    exact ⟨exec_sameDis hi he, (exec_sameHost he).params⟩
  unfold rx at h
  split at h
  · obtain ⟨u, hu, h⟩ := andThen_eq_next h
    obtain ⟨hsame, hp⟩ := dispatch h
    exact ⟨(exec_sameDis rfl hu).trans hsame, hp.trans (exec_sameHost hu).params⟩
  · exact dispatch h

/-! ### A pass, whatever else the state holds -/

/-- The state with the sampler of a state that holds the same one is itself. -/
theorem SameDis.withSampler_eq {s t : State} (h : SameDis s t) : t.withSampler s.dis s.edges = t := by
  obtain ⟨hd, he, -⟩ := h
  rw [← hd, ← he]
  rfl

/-- A sample that goes on gives every state with the same sampler and parameters the same new sampler, and changes
nothing else there. -/
theorem sample_of_sameDis {ch now : Nat} {level : Bool} {s s' t : State} (h : sample ch level now s = .next t)
    (hd : SameDis s s') (hp : s'.params = s.params) :
    sample ch level now s' = .next (s'.withSampler t.dis t.edges) := by
  obtain ⟨c, hc, he⟩ := sample_eq_next h
  have hinit := disInit_of_sample h
  obtain ⟨c', v, hs, hany⟩ := exec_decodeCond s c ch (asserted s.params level) (expired c now) now hinit hc
  obtain ⟨hdis, hedges, hinit'⟩ := hd
  rw [hs] at he
  cases he
  rw [← hdis] at hc
  rw [sample_of hc, hp, hany s' (hinit'.trans hinit) hp (by rw [hdis]) hc]
  simp only [State.setChannel, State.setDis, State.withSampler, hdis, hedges]

theorem passFrom_of_sameDis {pins now n ch : Nat} {s s' t : State} (h : passFrom pins now n ch s = .next t)
    (hd : SameDis s s') (hp : s'.params = s.params) :
    passFrom pins now n ch s' = .next (s'.withSampler t.dis t.edges) := by
  induction n generalizing ch s s' with
  | zero =>
    cases h
    rw [hd.withSampler_eq]
    rfl
  | succ n ih =>
    obtain ⟨u, hu, h⟩ := andThen_eq_next h
    have hself : sample ch (pinLevel pins ch) now s = .next (s.withSampler u.dis u.edges) :=
      sample_of_sameDis hu (.refl s) rfl
    rw [hu] at hself
    injection hself with hself
    rw [passFrom, sample_of_sameDis hu hd hp, andThen_next]
    refine ih h ⟨rfl, rfl, ?_⟩ ?_
    · rw [hself]; exact hd.disInit
    · rw [hself]; exact hp

/-- A pass that goes on gives every state with the same sampler and parameters the same new sampler, and changes nothing
else there. -/
theorem pass_of_sameDis {pins now : Nat} {s s' t : State} (h : pass pins now s = .next t) (hd : SameDis s s')
    (hp : s'.params = s.params) : pass pins now s' = .next (s'.withSampler t.dis t.edges) := by
  rw [pass, hp]
  exact passFrom_of_sameDis h hd hp

theorem pass_eq_withSampler {pins now : Nat} {s t : State} (h : pass pins now s = .next t) :
    t = s.withSampler t.dis t.edges :=
  Host.Outcome.next.inj (h.symm.trans (pass_of_sameDis h (.refl s) rfl))

/-! ### Either order -/

theorem rx_then_pass {s t : State} {b : Byte} {now pins now' : Nat}
    (h : andThen (rx b now s) (pass pins now') = .next t) : andThen (pass pins now' s) (rx b now) = .next t := by
  obtain ⟨u, hrx, hpass⟩ := andThen_eq_next h
  obtain ⟨hd, hp⟩ := rx_sameDis hrx
  have hs : pass pins now' s = .next (s.withSampler t.dis t.edges) :=
    pass_of_sameDis hpass ⟨hd.dis.symm, hd.edges.symm, hd.disInit.symm⟩ hp.symm
  rw [hs, andThen_next, rx_withSampler _ _ hrx, ← pass_eq_withSampler hpass]

theorem pass_then_rx {s t : State} {b : Byte} {now pins now' : Nat}
    (h : andThen (pass pins now' s) (rx b now) = .next t) : andThen (rx b now s) (pass pins now') = .next t := by
  obtain ⟨u, hpass, hrx⟩ := andThen_eq_next h
  have hu := pass_eq_withSampler hpass
  obtain ⟨hd, hp⟩ := rx_sameDis hrx
  have hs : rx b now s = .next (t.withSampler s.dis s.edges) := by
    have hsu : u.withSampler s.dis s.edges = s := by rw [hu]; rfl
    rw [← hsu]
    exact rx_withSampler _ _ hrx
  have hinit : t.disInit = s.disInit := by rw [hd.disInit, hu]; rfl
  have hparams : t.params = s.params := by rw [hp, hu]; rfl
  have hsame : SameDis s (t.withSampler s.dis s.edges) := ⟨rfl, rfl, hinit⟩
  rw [hs, andThen_next, pass_of_sameDis hpass hsame hparams]
  exact congrArg Host.Outcome.next hd.withSampler_eq

/-- Settles O47: a byte neither reads nor writes the sampler (`rx_withSampler`, `rx_sameDis`), and a pass neither reads
nor writes anything else but the parameters (`pass_of_sameDis`). -/
theorem blocksCommute : Obligations.BlocksCommute := by
  unfold Obligations.BlocksCommute
  intro s t b now pins now'
  exact ⟨rx_then_pass, pass_then_rx⟩

end Sys2Proof.Machine
end

section
/-! The buffers: a byte is changed only by its own storing operation, at `fd_cnt` (20_memory.md R60 to R62, R67). -/

namespace Sys2Proof.Machine

theorem buffersSame_of_buffer {s t : State} (hb : ∀ sp, t.fd.buffer sp = s.fd.buffer sp)
    (he : t.bufEpoch = s.bufEpoch) : BuffersSame s t := by
  intro sp a
  rw [State.readByte, State.readByte, hb, he]

theorem buffersSame_of_sameFd {s t : State} (h : SameFd s t) : BuffersSame s t :=
  buffersSame_of_buffer (fun sp => by rw [h.fd]) h.bufEpoch

theorem buffersSame_setFd {s : State} {r : FdRegs} (hh : r.hdr = s.fd.hdr) (hb : r.body = s.fd.body) :
    BuffersSame s (s.setFd r) :=
  buffersSame_of_buffer (fun sp => by cases sp <;> assumption) rfl

theorem buffersSame_reject (c : Cause) (s : State) : BuffersSame s (reject c s) := fun _ _ => rfl

/-- What stands in the buffers after `FD_HDR_BYTE`: the byte at `fd_cnt` of `hdr`, an address that `hdr` has, and every
other byte as before. -/
theorem readByte_fdHdrByte {s t : State} {b : Byte} (h : exec (.fdHdrByte b) s = .next t) :
    s.fd.cnt.toNat < spaceSize s.params .hdr ∧
      ∀ sp a, t.readByte sp a = if sp = .hdr ∧ a = s.fd.cnt.toNat then b else s.readByte sp a := by
  obtain ⟨-, h⟩ := requireFd_eq_next h
  obtain ⟨u, hu, h⟩ := andThen_eq_next h
  obtain ⟨hlt, rfl⟩ := memWrite_next hu
  refine ⟨hlt, fun sp a => ?_⟩
  dsimp only at h
  split at h <;> cases h <;> exact readByte_setBuffer_write s .hdr sp _ a b _ (fun q => by cases q <;> rfl)

/-- What stands in the buffers after `FD_BODY_BYTE`: the byte at `fd_cnt` of `body`, an address that `body` has, and every
other byte as before. -/
theorem readByte_fdBodyByte {s t : State} {b : Byte} (h : exec (.fdBodyByte b) s = .next t) :
    s.fd.cnt.toNat < spaceSize s.params .body ∧
      ∀ sp a, t.readByte sp a = if sp = .body ∧ a = s.fd.cnt.toNat then b else s.readByte sp a := by
  obtain ⟨-, h⟩ := requireFd_eq_next h
  obtain ⟨u, hu, h⟩ := andThen_eq_next h
  obtain ⟨hlt, rfl⟩ := memWrite_next hu
  refine ⟨hlt, fun sp a => ?_⟩
  cases h
  exact readByte_setBuffer_write s .body sp _ a b _ (fun q => by cases q <;> rfl)

/-- An operation that neither stores a byte nor resets the frame decoder leaves the buffers as they were. -/
theorem exec_buffersSame {i : Instr} {s t : State} (h : exec i s = .next t) (hr : i ≠ .hostResetFd)
    (hh : ∀ b, i ≠ .fdHdrByte b) (hb : ∀ b, i ≠ .fdBodyByte b) : BuffersSame s t := by
  cases hi : ofFd i with
  | false => exact buffersSame_of_sameFd (exec_sameFd hi h)
  | true =>
    cases i with
    | hostResetFd => exact absurd rfl hr
    | fdHdrByte b => exact absurd rfl (hh b)
    | fdBodyByte b => exact absurd rfl (hb b)
    | fdWdog _ _ | fdSopBadtype _ | fdBodyOvf _ | fdCsumBad _ | fdEopBad _ =>
      obtain ⟨-, h⟩ := requireFd_eq_next h
      cases h; exact buffersSame_reject _ s
    | fdIdleSop _ | fdDiscardSop _ | fdSopType | fdLenHi _ | fdCsumOk _ | fdSetConsumer _ =>
      obtain ⟨-, h⟩ := requireFd_eq_next h
      cases h; exact buffersSame_setFd rfl rfl
    | fdIdleSkip _ | fdDiscardDrop _ | fdReadState =>
      obtain ⟨-, h⟩ := requireFd_eq_next h
      cases h; exact fun _ _ => rfl
    | fdLenLo b =>
      obtain ⟨-, h⟩ := requireFd_eq_next h
      split at h <;> cases h <;> exact fun _ _ => rfl
    | fdEopOk =>
      obtain ⟨-, h⟩ := requireFd_eq_next h
      split at h <;> cases h
      exact buffersSame_of_buffer (fun sp => by cases sp <;> rfl) (by simp)
    | _ => cases hi

/-- A byte that reads differently where only the address `n` of `sp'` was written is the written one. -/
theorem eq_of_readByte_ne {s t : State} {sp sp' : Space} {a n : Nat} {b : Byte}
    (h : ∀ q x, t.readByte q x = if q = sp' ∧ x = n then b else s.readByte q x)
    (hne : t.readByte sp a ≠ s.readByte sp a) : sp = sp' ∧ a = n ∧ t.readByte sp a = b := by
  by_cases hw : sp = sp' ∧ a = n
  · obtain ⟨hsp, ha⟩ := hw
    exact ⟨hsp, ha, (h sp a).trans (if_pos ⟨hsp, ha⟩)⟩
  · exact absurd ((h sp a).trans (if_neg hw)) hne

/-- Settles O48: the two storing operations write one byte each (`readByte_fdHdrByte`, `readByte_fdBodyByte`), every other
one but the reset none (`exec_buffersSame`). -/
theorem buffersWrittenOnlyByTheirOperation : Obligations.BuffersWrittenOnlyByTheirOperation := by
  unfold Obligations.BuffersWrittenOnlyByTheirOperation
  intro i s t sp a h hr hne
  by_cases hh : ∃ b, i = .fdHdrByte b
  · obtain ⟨b, rfl⟩ := hh
    obtain ⟨hlt, hread⟩ := readByte_fdHdrByte h
    obtain ⟨rfl, rfl, hb⟩ := eq_of_readByte_ne hread hne
    exact ⟨rfl, hlt, .inl ⟨rfl, b, rfl, hb⟩⟩
  · by_cases hb : ∃ b, i = .fdBodyByte b
    · obtain ⟨b, rfl⟩ := hb
      obtain ⟨hlt, hread⟩ := readByte_fdBodyByte h
      obtain ⟨rfl, rfl, hb⟩ := eq_of_readByte_ne hread hne
      exact ⟨rfl, hlt, .inr ⟨rfl, b, rfl, hb⟩⟩
    · exact absurd (exec_buffersSame h hr (not_exists.1 hh) (not_exists.1 hb) sp a) hne

end Sys2Proof.Machine
end

section
/-! The samples of a body: how many there are, and which bytes each is made of (20_memory.md R68, 30_encoding.md R104). -/

namespace Sys2Proof.Machine

/-- The value of a sample's two bytes, the more significant one first, read as two's complement (R101, R104). -/
theorem toInt_append_bytes (hi lo : Byte) :
    (hi ++ lo : Half).toInt =
      if hi.toNat * 256 + lo.toNat < 32768 then ((hi.toNat * 256 + lo.toNat : Nat) : Int)
      else ((hi.toNat * 256 + lo.toNat : Nat) : Int) - 65536 := by
  have hnat : (hi ++ lo : Half).toNat = hi.toNat * 256 + lo.toNat := by
    rw [BitVec.toNat_append, ← Nat.shiftLeft_add_eq_or_of_lt lo.isLt, Nat.shiftLeft_eq]
  rw [BitVec.toInt_eq_toNat_cond, hnat]
  split <;> split <;> omega

theorem sampleRaw_toInt (bigEndian : Bool) (b0 b1 : Byte) :
    (sampleRaw bigEndian b0 b1).toInt =
      (let raw := if bigEndian then b0.toNat * 256 + b1.toNat else b1.toNat * 256 + b0.toNat
       if raw < 32768 then (raw : Int) else (raw : Int) - 65536) := by
  cases bigEndian
  · exact toInt_append_bytes b1 b0
  · exact toInt_append_bytes b0 b1

/-- A body that is not a group of four bytes and a rest has fewer than four bytes. -/
theorem length_lt_four_of_no_group {body : List Byte} (h : ∀ v0 v1 i0 i1 rest, body ≠ v0 :: v1 :: i0 :: i1 :: rest) :
    body.length < 4 := by
  match body with
  | [] | [_] | [_, _] | [_, _, _] => simp
  | v0 :: v1 :: i0 :: i1 :: rest => exact absurd rfl (h v0 v1 i0 i1 rest)

theorem samples_length (bigEndian : Bool) (body : List Byte) :
    (samples bigEndian body).length = body.length / 4 := by
  fun_induction samples bigEndian body with
  | case1 v0 v1 i0 i1 rest ih =>
    simp only [List.length_cons, ih]
    omega
  | case2 body h =>
    rw [Nat.div_eq_of_lt (length_lt_four_of_no_group h)]
    rfl

/-- Sample `k` is made of the bytes `4·k` to `4·k + 3` (R68). -/
theorem samples_getElem? (bigEndian : Bool) (body : List Byte) {k : Nat} {b0 b1 b2 b3 : Byte}
    (h0 : body[4 * k]? = some b0) (h1 : body[4 * k + 1]? = some b1) (h2 : body[4 * k + 2]? = some b2)
    (h3 : body[4 * k + 3]? = some b3) :
    (samples bigEndian body)[k]? =
      some { v := (sampleRaw bigEndian b0 b1).toInt, i := (sampleRaw bigEndian b2 b3).toInt } := by
  fun_induction samples bigEndian body generalizing k with
  | case1 v0 v1 i0 i1 rest ih =>
    cases k with
    | zero =>
      cases h0; cases h1; cases h2; cases h3
      rfl
    | succ k => exact ih h0 h1 h2 h3
  | case2 body h =>
    obtain ⟨hlt, -⟩ := List.getElem?_eq_some_iff.1 h3
    have := length_lt_four_of_no_group h
    omega

/-- Settles O59: the count by `samples_length`, the bytes of each sample by `samples_getElem?`, their values by
`sampleRaw_toInt`. -/
theorem samplesOfBody : Obligations.SamplesOfBody := by
  unfold Obligations.SamplesOfBody
  intro bigEndian body
  refine ⟨samples_length bigEndian body, fun k b0 b1 b2 b3 h0 h1 h2 h3 => ?_⟩
  exact ⟨_, samples_getElem? bigEndian body h0 h1 h2 h3, sampleRaw_toInt bigEndian b0 b1, sampleRaw_toInt bigEndian b2 b3⟩

end Sys2Proof.Machine
end

section
/-! The encoder and the decoder (30_encoding.md R110, R111, R120; log 9): a selector is packed from its own parts, the rows of
a state and the rows of a condition encode to the selector that selects them, and what is encoded decodes to itself. -/

namespace Sys2Proof

/-! ### A selector is packed from its own parts -/

/-- Bits 15:14 are the only ones of an RX selector that no part holds. -/
theorem packRx_parts {sel : BitVec 16} (h : sel.extractLsb' 14 2 = 0) :
    packRx (selWdog sel) (selGuard sel) (selState sel) (selByte sel) = sel := by
  apply BitVec.eq_of_getLsbD_eq
  intro i hi
  rw [getLsbD_packRx, selState, fdState_code_ofCode, selByte, selGuard, selWdog]
  simp only [BitVec.getLsbD_extractLsb', BitVec.getLsbD_ofBool]
  split_ifs with hbyte hstate hguard hwdog
  · simp [hbyte]
  · simp [hstate, show 8 + (i - 8) = i by omega]
  · simp [hguard, show 11 + (i - 8 - 3) = i by omega]
  · simp [show i = 13 by omega]
  · have hbit : (sel.extractLsb' 14 2).getLsbD (i - 14) = false := by rw [h]; exact BitVec.getLsbD_zero
    rw [BitVec.getLsbD_extractLsb', show 14 + (i - 14) = i by omega] at hbit
    simpa [show i - 14 < 2 by omega] using hbit.symm

/-- Bits 7:5 are the only ones of a SAMPLE selector that no part holds. -/
theorem packSample_parts (sel : BitVec 8) (h : sel.extractLsb' 5 3 = 0) :
    packSample (DbState.ofCode (sel.extractLsb' 2 3)) (sel.getLsbD 1) (sel.getLsbD 0) = sel := by
  rw [packSample, dbState_code_ofCode]
  revert sel
  decide

/-! ### What a row decodes to encodes to the row's selector -/

theorem encode_of_decodeRow {st : FdState} {g : BitVec 2} {b : Byte} {now : Nat} {i : Instr}
    (h : decodeRow st g b now = .instr i) :
    i.wellFormed = true ∧ ∃ now', encode i = some (.rx (packRx false g st b) now') := by
  cases st with
  | idle | sop | eop =>
    simp only [decodeRow] at h
    split_ifs at h with hg hb <;> obtain rfl := not_not.1 hg <;> cases h
    · exact ⟨rfl, _, by rw [hb]; rfl⟩
    · exact ⟨decide_eq_true hb, 0, rfl⟩
  | readLength | readBody | checksum =>
    simp only [decodeRow] at h
    split_ifs at h with h0 h1 <;> cases h
    · exact ⟨rfl, 0, by rw [h0]; rfl⟩
    · exact ⟨rfl, 0, by rw [h1]; rfl⟩
  | readHeader =>
    simp only [decodeRow] at h
    split_ifs at h with hg
    obtain rfl := not_not.1 hg
    cases h
    exact ⟨rfl, 0, rfl⟩
  | discard =>
    simp only [decodeRow] at h
    split_ifs at h with h0 hb h1 <;> cases h
    · exact ⟨rfl, _, by rw [h0, hb]; rfl⟩
    · exact ⟨rfl, 0, by rw [h0, encode, if_neg hb]⟩
    · obtain ⟨hg, hb⟩ := h1
      exact ⟨rfl, 0, by rw [hg, encode, if_pos hb]⟩

theorem encode_decodeCond (st : DbState) (a e : Bool) (ch now : Nat) :
    (decodeCond st a e ch now).wellFormed = true ∧
      ∃ now', encode (decodeCond st a e ch now) = some (.sample (packSample st a e) ch now') := by
  cases st <;> cases a <;> cases e <;> exact ⟨rfl, _, rfl⟩

theorem encode_of_decodeRx {sel : BitVec 16} {now : Nat} {i : Instr} (h : decodeRx sel now = .instr i) :
    i.wellFormed = true ∧ ∃ now', encode i = some (.rx sel now') := by
  unfold decodeRx at h
  split_ifs at h with hres hwdog hguard hidle
  · cases h
    have hsel := packRx_parts (not_not.1 hres)
    rw [hwdog, not_not.1 hguard] at hsel
    exact ⟨decide_eq_true hidle, 0, by rw [encode, hsel]⟩
  · have hsel := packRx_parts (not_not.1 hres)
    rw [Bool.eq_false_of_not_eq_true hwdog] at hsel
    exact hsel ▸ encode_of_decodeRow h

theorem encode_of_decodeSample {sel : BitVec 8} {ch now : Nat} {i : Instr} (h : decodeSample sel ch now = .instr i) :
    i.wellFormed = true ∧ ∃ now', encode i = some (.sample sel ch now') := by
  unfold decodeSample at h
  split_ifs at h with hres
  cases h
  have henc := encode_decodeCond (DbState.ofCode (sel.extractLsb' 2 3)) (sel.getLsbD 1) (sel.getLsbD 0) ch now
  rwa [packSample_parts sel (not_not.1 hres)] at henc

/-! ### What is encoded decodes to itself -/

/-- The rows of one state with the same guard are told apart by the byte, which is what `wellFormed` says of the row that takes
every other one; `FD_DISCARD_DROP` of a start marker stands apart by its guard bit (log 9). -/
theorem decode_of_encode {i : Instr} {f : Fetched} (hw : i.wellFormed = true) (h : encode i = some f) :
    decode f = .instr i := by
  cases i with
  | fdWdog st b =>
    cases h
    exact decodeRx_packRx_wdog st b 0 (of_decide_eq_true hw)
  | fdIdleSop _ | fdSopType | fdLenHi _ | fdLenLo _ | fdHdrByte _ | fdBodyByte _ | fdBodyOvf _ | fdDiscardSop _
  | fdCsumOk _ | fdCsumBad _ | fdEopOk =>
    cases h
    exact decodeRx_packRx ..
  | fdIdleSkip b | fdSopBadtype b | fdEopBad b =>
    cases h
    exact (decodeRx_packRx ..).trans (if_neg (of_decide_eq_true hw))
  | fdDiscardDrop b =>
    cases h
    by_cases hb : b = Config.sop <;> simp [decode, decodeRow, hb]
  | dbInvalid ch st a e =>
    cases h
    cases st with
    | invalid5 | invalid6 | invalid7 => exact decodeSample_packSample ..
    | init | pendingActive | active | pendingInactive | inactive => cases hw
  | dbInitA _ _ _ | dbInitD _ _ _ | dbPaBounce _ _ | dbPaConfirm _ | dbPaWait _ | dbActStay _ _ | dbActLeave _ _ _
  | dbPiBounce _ _ | dbPiConfirm _ | dbPiWait _ | dbInaStay _ _ | dbInaLeave _ _ _ =>
    cases h
    exact decodeSample_packSample ..
  | hostResetFd | hostResetDis | fdSetConsumer _ | disSetConsumer _ | disRead _ | fdReadState => cases h

/-- The host operations are the ones with no word (R120). -/
theorem encode_eq_none_iff (i : Instr) :
    encode i = none ↔ i = .hostResetFd ∨ i = .hostResetDis ∨ (∃ v, i = .fdSetConsumer v) ∨
      (∃ v, i = .disSetConsumer v) ∨ (∃ ch, i = .disRead ch) ∨ i = .fdReadState := by
  cases i <;> simp [encode]

/-! ### The statements -/

/-- Settles O6, row by row in `decode_of_encode`. -/
theorem decodeOfEncode : Obligations.DecodeOfEncode := by
  unfold Obligations.DecodeOfEncode
  exact fun i hw => ⟨fun f hf => decode_of_encode hw hf, encode_eq_none_iff i⟩

/-- Settles O7: the row that a selector selects encodes to the selector packed from its parts (`encode_of_decodeRow`,
`encode_decodeCond`), which is the selector itself (`packRx_parts`, `packSample_parts`). -/
theorem encodeOfDecode : Obligations.EncodeOfDecode := by
  unfold Obligations.EncodeOfDecode
  exact ⟨fun _ _ _ h => encode_of_decodeRx h, fun _ _ _ _ h => encode_of_decodeSample h⟩

/-- Settles O5: the decoder computes each of the words. -/
theorem tableWordsDecode : Obligations.TableWordsDecode := by
  unfold Obligations.TableWordsDecode
  decide

end Sys2Proof
end

section
/-! From the guard to the outcome of a byte: which operation the state, the byte and the guard select (`Selects`), that
the fetch takes it, and that a case of `ByteRow` that holds is performed. -/

namespace Sys2Proof.Machine

/-! ### The operation selected -/

/-- The operation whose state, byte pattern and guard hold once the watchdog has let the byte pass, one case per row
(30_encoding.md R110). -/
inductive Selects (p : Params) (r : FdRegs) (b : Byte) (now : Nat) : Instr → Prop
  | idleSkip (hs : r.state = .idle) (hb : b ≠ Config.sop) : Selects p r b now (.fdIdleSkip b)
  | idleSop (hs : r.state = .idle) (hb : b = Config.sop) : Selects p r b now (.fdIdleSop now)
  | sopType (hs : r.state = .sop) (hb : b = Config.typeSig) : Selects p r b now .fdSopType
  | sopBadtype (hs : r.state = .sop) (hb : b ≠ Config.typeSig) : Selects p r b now (.fdSopBadtype b)
  | lenHi (hs : r.state = .readLength) (hc : r.cnt = 0) : Selects p r b now (.fdLenHi b)
  | lenLo (hs : r.state = .readLength) (hc : r.cnt = 1) : Selects p r b now (.fdLenLo b)
  | hdrByte (hs : r.state = .readHeader) : Selects p r b now (.fdHdrByte b)
  | bodyByte (hs : r.state = .readBody) (hc : r.cnt.toNat < p.bodyCap) : Selects p r b now (.fdBodyByte b)
  | bodyOvf (hs : r.state = .readBody) (hc : p.bodyCap ≤ r.cnt.toNat) : Selects p r b now (.fdBodyOvf b)
  | discardDrop (hs : r.state = .discard) (hb : b ≠ Config.sop ∨ p.discardResync = false) :
      Selects p r b now (.fdDiscardDrop b)
  | discardSop (hs : r.state = .discard) (hb : b = Config.sop) (hr : p.discardResync = true) :
      Selects p r b now (.fdDiscardSop now)
  | csumOk (hs : r.state = .checksum) (hb : b = r.csum) : Selects p r b now (.fdCsumOk b)
  | csumBad (hs : r.state = .checksum) (hb : b ≠ r.csum) : Selects p r b now (.fdCsumBad b)
  | eopOk (hs : r.state = .eop) (hb : b = Config.eop) : Selects p r b now .fdEopOk
  | eopBad (hs : r.state = .eop) (hb : b ≠ Config.eop) : Selects p r b now (.fdEopBad b)

/-- The decoder answers the operation that the guards select. -/
theorem decodeRow_of_selects {p : Params} {r : FdRegs} {b : Byte} {now : Nat} {i : Instr}
    (h : Selects p r b now i) : decodeRow r.state (guardBits p r b) b now = .instr i := by
  cases h with
  | idleSkip hs hb | idleSop hs hb | sopType hs hb | sopBadtype hs hb | eopOk hs hb | eopBad hs hb =>
    simp [guardBits, decodeRow, hs, hb]
  | lenHi hs hc | lenLo hs hc | bodyOvf hs hc => simp [guardBits, decodeRow, hs, hc]
  | hdrByte hs => simp [guardBits, decodeRow, hs]
  | bodyByte hs hc => simp [guardBits, decodeRow, hs, Nat.not_le.2 hc]
  | csumOk hs hb | csumBad hs hb => simp [guardBits, decodeRow, hs, hb]
  | discardSop hs hb hr => simp [guardBits, decodeRow, hs, hb, hr]
  | discardDrop hs hb =>
    by_cases hsop : b = Config.sop
    · have hr := hb.resolve_left (not_not.2 hsop)
      simp [guardBits, decodeRow, hs, hsop, hr]
    · simp [guardBits, decodeRow, hs, hsop]

/-- No row of a state is the watchdog's, which is selected before the rows are looked at (R130). -/
theorem isWatchdog_of_decodeRow {st : FdState} {g : BitVec 2} {b : Byte} {now : Nat} {i : Instr}
    (h : decodeRow st g b now = .instr i) : isWatchdog i = false := by
  cases st <;> simp only [decodeRow] at h <;> split_ifs at h <;> cases h <;> rfl

/-- The fetch takes the operation that the guards select, where the watchdog does not fire. -/
theorem fetch_of_selects {s : State} {b : Byte} {now : Nat} {rest : List InEvent} {i : Instr}
    (hr : Receives s b now rest) (hw : timedOut s.fd now = false) (h : Selects s.params s.fd b now i) :
    fetch s = .run i := by
  obtain ⟨hi, ht, hb⟩ := hr
  rw [fetch_rx hi ht hb hw, decodeRow_of_selects h]
  rfl

/-! ### The operation performed -/

theorem exec_fdLenLo {s : State} (b : Byte) (hinit : s.fdInit = true) :
    exec (.fdLenLo b) s = .next
      (if (withLo s.fd.len b).toNat ≤ s.params.hdrSize then
        reject .lenTooSmall (s.setFd { s.fd with len := withLo s.fd.len b, csum := s.fd.csum ^^^ b })
      else s.setFd { s.fd with len := withLo s.fd.len b, csum := s.fd.csum ^^^ b, cnt := 0, state := .readHeader }) :=
  requireFd_of_init hinit _

theorem exec_fdHdrByte {s : State} (b : Byte) (hinit : s.fdInit = true) (hc : s.fd.cnt.toNat < s.params.hdrSize) :
    exec (.fdHdrByte b) s = .next (s.setFd
      (if s.fd.cnt.toNat + 1 < s.params.hdrSize then
        { s.fd with hdr := s.fd.hdr.write s.fd.cnt.toNat b, csum := s.fd.csum ^^^ b, cnt := s.fd.cnt + 1 }
      else
        { s.fd with
          hdr := s.fd.hdr.write s.fd.cnt.toNat b, csum := s.fd.csum ^^^ b, cnt := 0,
          bodyLen := bodyLength s.fd.len s.params.hdrSize,
          state := if bodyLength s.fd.len s.params.hdrSize = 0 then .checksum else .readBody })) := by
  refine (requireFd_of_init hinit _).trans ?_
  rw [memWrite_of_lt b (sp := .hdr) hc, andThen_next]
  split <;> rfl

theorem exec_fdBodyByte {s : State} (b : Byte) (hinit : s.fdInit = true) (hc : s.fd.cnt.toNat < s.params.bodyCap) :
    exec (.fdBodyByte b) s = .next (s.setFd
      { s.fd with
        body := s.fd.body.write s.fd.cnt.toNat b, csum := s.fd.csum ^^^ b, cnt := s.fd.cnt + 1,
        state := if s.fd.cnt.toNat + 1 = s.fd.bodyLen.toNat then .checksum else s.fd.state }) := by
  refine (requireFd_of_init hinit _).trans ?_
  rw [memWrite_of_lt b (sp := .body) hc, andThen_next]
  rfl

theorem exec_fdEopOk {s : State} (hinit : s.fdInit = true) (hl : s.fd.bodyLen.toNat ≤ s.params.bodyCap) :
    exec .fdEopOk s = .next ((deliver s).setFd { s.fd with state := .idle }) :=
  (requireFd_of_init hinit _).trans (if_pos hl)

/-- Each case of `ByteRow` is performed: its operation is selected, and leaves its state. The converse is
`byteRow_of_exec`. -/
theorem exec_of_byteRow {s t : State} {b : Byte} {now : Nat} (hinit : s.fdInit = true) (h : ByteRow s b now t) :
    ∃ i, Selects s.params s.fd b now i ∧ exec i s = .next t := by
  cases h with
  | idleSkip hs hb => exact ⟨_, .idleSkip hs hb, requireFd_of_init hinit _⟩
  | idleSop hs hb => exact ⟨_, .idleSop hs hb, requireFd_of_init hinit _⟩
  | sopType hs hb => exact ⟨_, .sopType hs hb, requireFd_of_init hinit _⟩
  | sopBadtype hs hb => exact ⟨_, .sopBadtype hs hb, requireFd_of_init hinit _⟩
  | lenHi hs hc => exact ⟨_, .lenHi hs hc, requireFd_of_init hinit _⟩
  | lenLo hs hc hl => exact ⟨_, .lenLo hs hc, by rw [exec_fdLenLo b hinit, if_neg (Nat.not_le.2 hl)]⟩
  | lenTooSmall hs hc hl => exact ⟨_, .lenLo hs hc, by rw [exec_fdLenLo b hinit, if_pos hl]⟩
  | hdrByte hs hc => exact ⟨_, .hdrByte hs, by rw [exec_fdHdrByte b hinit (by omega), if_pos hc]⟩
  | hdrLast hs hc hl =>
    exact ⟨_, .hdrByte hs, by rw [exec_fdHdrByte b hinit (by omega), if_neg (by omega), if_neg hl]⟩
  | hdrNoBody hs hc hl =>
    exact ⟨_, .hdrByte hs, by rw [exec_fdHdrByte b hinit (by omega), if_neg (by omega), if_pos hl, hl]⟩
  | bodyByte hs hc hl => exact ⟨_, .bodyByte hs hc, by rw [exec_fdBodyByte b hinit hc, if_neg hl]⟩
  | bodyLast hs hc hl => exact ⟨_, .bodyByte hs hc, by rw [exec_fdBodyByte b hinit hc, if_pos hl]⟩
  | bodyOvf hs hc => exact ⟨_, .bodyOvf hs hc, requireFd_of_init hinit _⟩
  | discardDrop hs hb => exact ⟨_, .discardDrop hs hb, requireFd_of_init hinit _⟩
  | discardSop hs hb hr => exact ⟨_, .discardSop hs hb hr, requireFd_of_init hinit _⟩
  | csumOk hs hb => exact ⟨_, .csumOk hs hb, requireFd_of_init hinit _⟩
  | csumBad hs hb => exact ⟨_, .csumBad hs hb, requireFd_of_init hinit _⟩
  | eopOk hs hb hl => exact ⟨_, .eopOk hs hb, exec_fdEopOk hinit hl⟩
  | eopBad hs hb => exact ⟨_, .eopBad hs hb, requireFd_of_init hinit _⟩

/-- The whole `RX` of a byte that the watchdog lets pass. -/
theorem rx_of_byteRow {s t : State} {b : Byte} {now : Nat} (hinit : s.fdInit = true)
    (hw : timedOut s.fd now = false) (h : ByteRow s b now t) : rx b now s = .next t := by
  obtain ⟨i, hsel, he⟩ := exec_of_byteRow hinit h
  rw [rx_row hw (decodeRow_of_selects hsel), he]

/-! ### Lengths -/

theorem bodyLength_eq_zero_iff {len : Half} {n : Nat} (h : n < len.toNat) :
    bodyLength len n = 0 ↔ len.toNat - n - 1 = 0 := by
  rw [← bodyLength_toNat h]
  exact BitVec.toNat_inj.symm

theorem withLo_toNat (len : Half) (b : Byte) : (withLo len b).toNat = len.toNat / 256 * 256 + b.toNat := by
  have := len.isLt
  have := b.isLt
  rw [withLo_eq, BitVec.toNat_ofNat]
  omega

end Sys2Proof.Machine
end

section
/-! The operations of the frame decoder one by one (40_frame_decoder.md R131 to R146): each is fetched where its guard
holds (`fetch_of_selects`), and its next state is the one of its rule. -/

namespace Sys2Proof.Machine

/-! ### A step on a byte -/

/-- The step of a fetched operation of a byte: the operation, then the byte is used up, but for the watchdog's (R130). -/
theorem step_of_fetch_rx {s : State} {b : Byte} {now : Nat} {rest : List InEvent} {i : Instr}
    (hi : s.inputs = .rx b now :: rest) (hf : fetch s = .run i) :
    step s = andThen (exec i s) (fun t =>
      .next { t with fdNow := some now, inputs := if isWatchdog i then .rx b now :: rest else rest }) := by
  simp only [step, hf]
  cases he : exec i s with
  | next t => exact congrArg Host.Outcome.next (retire_rx i ((exec_sameHost he).inputs.trans hi))
  | fault r => rfl
  | refused r => rfl

/-- Settles O2: the fetch runs what the selector decodes to, which is well-formed (`encode_of_decodeRx`). -/
theorem stepRunsDecodedByte : Obligations.StepRunsDecodedByte := by
  unfold Obligations.StepRunsDecodedByte
  rintro s b now rest i ⟨hi, ht, hb⟩ hd
  have hf : fetch s = .run i := by simp [fetch, hi, ht, hb, hd, Fetch.ofDecoded]
  exact ⟨hf, (encode_of_decodeRx hd).1, step_of_fetch_rx hi hf⟩

/-! ### `idle` and `sop` -/

/-- Settles O9: the row of `idle` that takes every other byte. -/
theorem idleSkipsOtherBytes : Obligations.IdleSkipsOtherBytes := by
  unfold Obligations.IdleSkipsOtherBytes
  intro s b now rest hinit hr hs hb
  exact ⟨fetch_of_selects hr (timedOut_idle now hs) (.idleSkip hs hb), requireFd_of_init hinit _⟩

/-- Settles O10: the row of `idle` that takes the start marker. -/
theorem idleStartMarkerOpensSession : Obligations.IdleStartMarkerOpensSession := by
  unfold Obligations.IdleStartMarkerOpensSession
  intro s now rest hinit hr hs
  exact ⟨fetch_of_selects hr (timedOut_idle now hs) (.idleSop hs rfl), requireFd_of_init hinit _⟩

/-- Settles O11: the row of `sop` that takes the type byte. -/
theorem typeByteAccepted : Obligations.TypeByteAccepted := by
  unfold Obligations.TypeByteAccepted
  intro s now rest hinit hr hs hin
  refine ⟨fetch_of_selects hr (timedOut_of_le hin) (.sopType hs rfl), requireFd_of_init hinit _, fun h => ?_⟩
  rw [h]
  rfl

/-! ### `readLength` -/

/-- Settles O12: `withHi` in plain arithmetic is `withHi_eq`. -/
theorem lengthHighByte : Obligations.LengthHighByte := by
  unfold Obligations.LengthHighByte
  intro s b now rest hinit hr hs hc hin
  refine ⟨fetch_of_selects hr (timedOut_of_le hin) (.lenHi hs hc), (requireFd_of_init hinit _).trans ?_⟩
  rw [withHi_eq]
  rfl

/-- Settles O13: `withLo` in plain arithmetic is `withLo_eq`, and no bit of it is lost (`withLo_toNat`). -/
theorem lengthLowByte : Obligations.LengthLowByte := by
  unfold Obligations.LengthLowByte
  rintro s b now rest _ hinit hr hs hc hin rfl
  refine ⟨fetch_of_selects hr (timedOut_of_le hin) (.lenLo hs hc), fun hl => ?_, fun hl => ?_⟩
  · rw [exec_fdLenLo b hinit, withLo_toNat, if_neg (Nat.not_le.2 hl), withLo_eq]
    rfl
  · rw [exec_fdLenLo b hinit, withLo_toNat, if_pos hl, withLo_eq]
    rfl

/-! ### `readHeader` and `readBody` -/

/-- A write that reads back as one `if` leaves every other byte of both buffers alone. -/
theorem buffersSameBut_of_readByte {s t : State} {sp : Space} {n : Nat} {b : Byte}
    (h : ∀ q a, t.readByte q a = if q = sp ∧ a = n then b else s.readByte q a) :
    t.readByte sp n = b ∧ BuffersSameBut sp n s t := by
  refine ⟨(h sp n).trans (if_pos ⟨rfl, rfl⟩), fun q a => ?_⟩
  by_cases hw : q = sp ∧ a = n
  · exact .inl hw
  · exact .inr ((h q a).trans (if_neg hw))

/-- Settles O14: what the store leaves is `readByte_fdHdrByte`, what the registers hold `exec_fdHdrByte`. -/
theorem headerByteStored : Obligations.HeaderByteStored := by
  unfold Obligations.HeaderByteStored
  intro s b now rest hinit hr hs hin hc hlen
  have he := exec_fdHdrByte b hinit hc
  obtain ⟨hread, hsame⟩ := buffersSameBut_of_readByte (readByte_fdHdrByte he).2
  refine ⟨fetch_of_selects hr (timedOut_of_le hin) (.hdrByte hs), _, he, hread, hsame, fun hmore => ?_, fun hlast => ?_⟩
  · rw [if_pos hmore]
    rfl
  · simp only [if_neg (show ¬ s.fd.cnt.toNat + 1 < s.params.hdrSize by omega), ← bodyLength_eq hlen,
      ← bodyLength_eq_zero_iff hlen]
    rfl

/-- Settles O15: what the store leaves is `readByte_fdBodyByte`, what the registers hold `exec_fdBodyByte`. -/
theorem bodyByteStored : Obligations.BodyByteStored := by
  unfold Obligations.BodyByteStored
  intro s b now rest hinit hr hs hin hc
  have he := exec_fdBodyByte b hinit hc
  obtain ⟨hread, hsame⟩ := buffersSameBut_of_readByte (readByte_fdBodyByte he).2
  refine ⟨fetch_of_selects hr (timedOut_of_le hin) (.bodyByte hs hc), _, he, hread, hsame, ?_⟩
  rw [hs]
  rfl

/-- Settles O16: the row of `readBody` whose guard finds no room. -/
theorem bodyOverflowGoesToDiscard : Obligations.BodyOverflowGoesToDiscard := by
  unfold Obligations.BodyOverflowGoesToDiscard
  intro s b now rest hinit hr hs hin hc
  exact ⟨fetch_of_selects hr (timedOut_of_le hin) (.bodyOvf hs hc), requireFd_of_init hinit _⟩

/-! ### `discard` -/

/-- Settles O17: the two clauses are the two rows of `discard`. -/
theorem discardDropsUntilStartMarker : Obligations.DiscardDropsUntilStartMarker := by
  unfold Obligations.DiscardDropsUntilStartMarker
  intro s b now rest hinit hr hs hin
  have hw := timedOut_of_le hin
  constructor
  · intro hb
    exact ⟨fetch_of_selects hr hw (.discardDrop hs hb), requireFd_of_init hinit _⟩
  · rintro ⟨hb, hresync⟩
    exact ⟨fetch_of_selects hr hw (.discardSop hs hb hresync), requireFd_of_init hinit _⟩

/-! ### `checksum` and `eop` -/

/-- Settles O18: the row of `checksum` whose guard finds the byte equal to `fd_csum`. -/
theorem matchingChecksumAccepted : Obligations.MatchingChecksumAccepted := by
  unfold Obligations.MatchingChecksumAccepted
  intro s b now rest hinit hr hs hin hb
  exact ⟨fetch_of_selects hr (timedOut_of_le hin) (.csumOk hs hb), requireFd_of_init hinit _⟩

/-- A list that holds the byte of every address below its length is what a read of the buffer answers. -/
theorem readBytes_eq_of_getElem? {s : State} {sp : Space} {l : List Byte} {n : Nat} (hn : l.length = n)
    (h : ∀ k < l.length, l[k]? = some (s.readByte sp k)) : s.readBytes sp 0 n = l := by
  subst hn
  refine List.ext_getElem (readBytes_length ..) fun k _ hk => ?_
  have hget := h k hk
  rw [List.getElem?_eq_getElem hk, Option.some_inj] at hget
  simp [State.readBytes, hget]

/-- A delivery, as one record update. -/
theorem deliver_eq (s : State) :
    deliver s = { s with fdOut := s.fdOut ++ (if s.fd.consumerEn then [.frame (frameOf s)] else []) } := by
  unfold deliver
  split
  · rfl
  · rw [List.append_nil]

/-- Settles O19: the frame event is that of the buffered bytes (`readBytes_eq_of_getElem?`). -/
theorem endMarkerDelivers : Obligations.EndMarkerDelivers := by
  unfold Obligations.EndMarkerDelivers
  intro s now rest h body hinit hr hs hin hl hhdr hh hbody hb
  refine ⟨fetch_of_selects hr (timedOut_of_le hin) (.eopOk hs rfl), ?_⟩
  rw [exec_fdEopOk hinit hl, deliver_eq, frameOf, readBytes_eq_of_getElem? hhdr hh, readBytes_eq_of_getElem? hbody hb]
  rfl

/-- Settles O20: one rejecting row for each of the three states. -/
theorem wrongByteRejects : Obligations.WrongByteRejects := by
  unfold Obligations.WrongByteRejects
  intro s b now rest hinit hr hin
  have hw := timedOut_of_le hin
  refine ⟨fun hs hb => ?_, fun hs hb => ?_, fun hs hb => ?_⟩
  · exact ⟨fetch_of_selects hr hw (.sopBadtype hs hb), requireFd_of_init hinit _⟩
  · exact ⟨fetch_of_selects hr hw (.csumBad hs hb), requireFd_of_init hinit _⟩
  · exact ⟨fetch_of_selects hr hw (.eopBad hs hb), requireFd_of_init hinit _⟩

/-! ### The watchdog -/

/-- The watchdog's operation is fetched where its guard holds, and nowhere else: no row of a state is the watchdog's. -/
theorem fetch_watchdog_iff {s : State} {b : Byte} {now : Nat} {rest : List InEvent} (hr : Receives s b now rest) :
    (∃ st b', fetch s = .run (.fdWdog st b')) ↔ timedOut s.fd now = true := by
  obtain ⟨hi, ht, hb⟩ := hr
  constructor
  · rintro ⟨st, b', hf⟩
    obtain ⟨-, -, ⟨hw, -⟩ | ⟨-, hd⟩⟩ := fetch_run_rx hi hf
    · exact hw
    · cases isWatchdog_of_decodeRow hd
  · intro hw
    exact ⟨_, _, fetch_rx_timedOut hi ht hb hw⟩

theorem exec_fdWdog {s : State} (st : FdState) (b : Byte) (hinit : s.fdInit = true) :
    exec (.fdWdog st b) s = .next (reject .watchdog s) := requireFd_of_init hinit _

/-- The step of the watchdog: the session is abandoned, the time noted, and the byte stays (R131). -/
theorem step_timedOut {s : State} {b : Byte} {now : Nat} {rest : List InEvent} (hinit : s.fdInit = true)
    (hr : Receives s b now rest) (hw : timedOut s.fd now = true) :
    step s = .next { reject .watchdog s with fdNow := some now } := by
  obtain ⟨hi, ht, hb⟩ := hr
  rw [step_of_fetch_rx hi (fetch_rx_timedOut hi ht hb hw), exec_fdWdog _ _ hinit, andThen_next]
  simp only [isWatchdog, if_true, ← hi]
  rfl

/-- Settles O21: the guard is `timedOut_iff`, the step `step_timedOut`. -/
theorem watchdogAbandonsSession : Obligations.WatchdogAbandonsSession := by
  unfold Obligations.WatchdogAbandonsSession
  intro s b now rest hinit hr
  refine ⟨(fetch_watchdog_iff hr).trans (timedOut_iff _ _), fun hs hlate => ?_⟩
  have hw : timedOut s.fd now = true := (timedOut_iff _ _).2 ⟨hs, hlate⟩
  obtain ⟨hi, ht, hb⟩ := id hr
  exact ⟨fetch_rx_timedOut hi ht hb hw, exec_fdWdog _ _ hinit, step_timedOut hinit hr hw⟩

end Sys2Proof.Machine
end

section
/-! The decoder's steps as a whole: they are the `RX` of R130, none stops where the invariant holds, each goes along the
table of R147, and frames come from the end marker only. -/

namespace Sys2Proof.Machine

/-! ### Steps and the whole `RX` (R130) -/

theorem run_one (s : State) : Host.Core.run Sys2Proof.core 1 s = step s :=
  (run_succ 0 s).trans (andThen_right_next (step s))

theorem run_two (s : State) : Host.Core.run Sys2Proof.core 2 s = andThen (step s) step :=
  (run_succ 1 s).trans (congrArg (andThen (step s)) (funext run_one))

/-- A byte that the watchdog lets pass: one step is the whole `RX`, with the same stop where it stops. -/
theorem step_of_receives {s : State} {b : Byte} {now : Nat} {rest : List InEvent} (hr : Receives s b now rest)
    (hw : timedOut s.fd now = false) :
    step s = andThen (rx b now s) (fun t => .next { t with inputs := rest, fdNow := some now }) := by
  obtain ⟨hi, ht, hb⟩ := hr
  have hf := fetch_rx hi ht hb hw
  cases hd : decodeRow s.fd.state (guardBits s.params s.fd b) b now with
  | instr i =>
    rw [hd] at hf
    rw [step_of_fetch_rx hi hf, rx_row hw hd, isWatchdog_of_decodeRow hd]
    rfl
  | reject e =>
    rw [hd] at hf
    simp [step, hf, Fetch.ofDecoded, rx, rxDispatch, rxSelector, hw, decode, hd, execDecoded]

/-- After the watchdog the whole `RX` goes on as in `idle`. -/
theorem rx_timedOut {s : State} {b : Byte} {now : Nat} (hinit : s.fdInit = true) (hw : timedOut s.fd now = true) :
    rx b now s = rx b now (reject .watchdog s) := by
  have hidle : timedOut (reject .watchdog s).fd now = false := timedOut_idle now rfl
  rw [rx, if_pos hw, exec_fdWdog _ _ hinit, andThen_next, rx, hidle]
  rfl

/-- The whole `RX` in `idle`: a start marker opens a session, every other byte is skipped. -/
theorem rx_idle {s : State} {b : Byte} {now : Nat} (hinit : s.fdInit = true) (hs : s.fd.state = .idle) :
    rx b now s = .next (if b = Config.sop then openSession now s else s) := by
  refine rx_of_byteRow hinit (timedOut_idle now hs) ?_
  split
  · exact .idleSop hs ‹_›
  · exact .idleSkip hs ‹_›

/-- Where the watchdog fires, two steps are the whole `RX`: the second dispatches the byte in `idle`. -/
theorem run_two_timedOut {s : State} {b : Byte} {now : Nat} {rest : List InEvent} (hr : Receives s b now rest)
    (hw : timedOut s.fd now = true) :
    Host.Core.run Sys2Proof.core 2 s =
      andThen (rx b now s) (fun t => .next { t with inputs := rest, fdNow := some now }) := by
  have ⟨hi, ht, hb⟩ := hr
  rw [run_two]
  cases hinit : s.fdInit with
  | false =>
    have he : exec (.fdWdog s.fd.state b) s = .refused (.beforeReset .fd) := requireFd_of_not hinit _
    rw [step_of_fetch_rx hi (fetch_rx_timedOut hi ht hb hw), rx, if_pos hw, he]
    rfl
  | true =>
    have hnext : Receives { reject .watchdog s with fdNow := some now } b now rest :=
      ⟨hi, decide_eq_true (Nat.le_refl now), sessionWithin_idle now rfl⟩
    rw [step_timedOut hinit hr hw, andThen_next, step_of_receives hnext (timedOut_idle now rfl), rx_timedOut hinit hw,
      rx_idle (s := reject .watchdog s) hinit rfl, rx_idle (s := { reject .watchdog s with fdNow := some now }) hinit rfl]
    split <;> rfl

/-- Settles O50, by whether the watchdog fires. -/
theorem stepsAreRx : Obligations.StepsAreRx := by
  unfold Obligations.StepsAreRx
  intro s b now rest hr
  cases hw : timedOut s.fd now with
  | true => rw [if_pos ((timedOut_iff _ _).1 hw), run_two_timedOut hr hw]
  | false =>
    have hin : ¬ (s.fd.state ≠ .idle ∧ s.fd.tStart + 500 < now) := by
      rw [← timedOut_iff, hw]; exact Bool.false_ne_true
    rw [if_neg hin, run_one, step_of_receives hr hw]

/-! ### No step stops -/

/-- Where R30 holds, some row takes every byte, and no address is formed that a buffer does not have. -/
theorem byteRow_total {s : State} (h : FdInv s) (b : Byte) (now : Nat) : ∃ t, ByteRow s b now t := by
  cases hs : s.fd.state with
  | idle =>
    by_cases hb : b = Config.sop
    · exact ⟨_, .idleSop hs hb⟩
    · exact ⟨_, .idleSkip hs hb⟩
  | sop =>
    by_cases hb : b = Config.typeSig
    · exact ⟨_, .sopType hs hb⟩
    · exact ⟨_, .sopBadtype hs hb⟩
  | readLength =>
    simp only [FdInv, hs] at h
    obtain ⟨-, ⟨hc, -⟩ | ⟨hc, -⟩⟩ := h
    · exact ⟨_, .lenHi hs hc⟩
    · by_cases hl : s.params.hdrSize < (withLo s.fd.len b).toNat
      · exact ⟨_, .lenLo hs hc hl⟩
      · exact ⟨_, .lenTooSmall hs hc (Nat.not_lt.1 hl)⟩
  | readHeader =>
    simp only [FdInv, hs] at h
    obtain ⟨-, hlt, -⟩ := h
    by_cases hc : s.fd.cnt.toNat + 1 < s.params.hdrSize
    · exact ⟨_, .hdrByte hs hc⟩
    · have hlast : s.fd.cnt.toNat + 1 = s.params.hdrSize := by omega
      by_cases hl : bodyLength s.fd.len s.params.hdrSize = 0
      · exact ⟨_, .hdrNoBody hs hlast hl⟩
      · exact ⟨_, .hdrLast hs hlast hl⟩
  | readBody =>
    by_cases hc : s.fd.cnt.toNat < s.params.bodyCap
    · by_cases hl : s.fd.cnt.toNat + 1 = s.fd.bodyLen.toNat
      · exact ⟨_, .bodyLast hs hc hl⟩
      · exact ⟨_, .bodyByte hs hc hl⟩
    · exact ⟨_, .bodyOvf hs (Nat.not_lt.1 hc)⟩
  | discard =>
    by_cases hb : b ≠ Config.sop ∨ s.params.discardResync = false
    · exact ⟨_, .discardDrop hs hb⟩
    · obtain ⟨hsop, hr⟩ := not_or.1 hb
      exact ⟨_, .discardSop hs (not_not.1 hsop) (Bool.eq_true_of_not_eq_false hr)⟩
  | checksum =>
    by_cases hb : b = s.fd.csum
    · exact ⟨_, .csumOk hs hb⟩
    · exact ⟨_, .csumBad hs hb⟩
  | eop =>
    simp only [FdInv, hs] at h
    obtain ⟨-, hl, -⟩ := h
    by_cases hb : b = Config.eop
    · exact ⟨_, .eopOk hs hb hl⟩
    · exact ⟨_, .eopBad hs hb⟩

theorem step_next_of_receives {s : State} {b : Byte} {now : Nat} {rest : List InEvent} (h : FdInv s)
    (hinit : s.fdInit = true) (hr : Receives s b now rest) : ∃ t, step s = .next t := by
  cases hw : timedOut s.fd now with
  | true => exact ⟨_, step_timedOut hinit hr hw⟩
  | false =>
    obtain ⟨t, hrow⟩ := byteRow_total h b now
    exact ⟨_, by rw [step_of_receives hr hw, rx_of_byteRow hinit hw hrow, andThen_next]⟩

theorem step_next_of_pass {s : State} {pins now : Nat} {rest : List InEvent} {c : Channel} (hinit : s.disInit = true)
    (hi : s.inputs = .pass pins now :: rest) (hc : s.dis.channels[s.passCh]? = some c)
    (ht : timeOk s.disNow now = true) (hb : deadlineWithin s.params c now = true) : ∃ t, step s = .next t := by
  obtain ⟨c', v, he, -⟩ := exec_decodeCond s c s.passCh (asserted s.params (pinLevel pins s.passCh)) (expired c now) now
    hinit hc
  exact ⟨_, step_of_run (fetch_pass hi ht hc hb) he⟩

/-- After both resets a host operation goes on. -/
theorem step_next_of_hostOp {s : State} {e : InEvent} {rest : List InEvent} {i : Instr} (hfd : s.fdInit = true)
    (hdis : s.disInit = true) (hi : s.inputs = e :: rest) (he : hostOp e = some i) : ∃ t, step s = .next t := by
  have hexec : ∃ t, exec i s = .next t := by
    cases e <;> cases he
    case resetFd | resetDis => exact ⟨_, rfl⟩
    case setConsumerFd | readState => exact ⟨_, requireFd_of_init hfd _⟩
    case setConsumerDis | read => exact ⟨_, requireDis_of_init hdis _⟩
  obtain ⟨t, ht⟩ := hexec
  exact ⟨_, step_of_run (fetch_hostOp hi he) ht⟩

/-- Settles O38, by the event at the head of the input: R30 gives a row to every byte (`byteRow_total`), R35 a channel to
every pass. -/
theorem noInputStopsTheMachine : Obligations.NoInputStopsTheMachine := by
  unfold Obligations.NoInputStopsTheMachine
  intro s h hfd hdis hbyte hpass
  cases hi : s.inputs with
  | nil => exact ⟨s, by simp [step, fetch, hi]⟩
  | cons e rest =>
    cases hj : hostOp e with
    | some i => exact step_next_of_hostOp hfd hdis hi hj
    | none =>
      cases e with
      | rx b now =>
        obtain ⟨ht, hb⟩ := hbyte b now rest hi
        exact step_next_of_receives h.fd hfd ⟨hi, (timeOk_iff _ _).2 ht, (sessionWithin_iff _ _).2 hb⟩
      | pass pins now =>
        obtain ⟨hlen, -, -, hlt⟩ := h.dis
        have hc := List.getElem?_eq_getElem (hlen ▸ hlt)
        obtain ⟨ht, hb⟩ := hpass pins now rest _ hi hc
        exact step_next_of_pass hdis hi hc ((timeOk_iff _ _).2 ht) ((deadlineWithin_iff _ _ _).2 hb)
      | _ => cases hj

/-! ### The table of R147 -/

/-- The completed length in the table's arithmetic. -/
theorem withLo_toNat_bytes (len : Half) (b : Byte) :
    (withLo len b).toNat = (len.extractLsb' 8 8).toNat * 256 + b.toNat := by
  have := len.isLt
  rw [withLo_toNat, BitVec.extractLsb'_toNat, Nat.shiftRight_eq_div_pow]
  omega

/-- Each case of `ByteRow` is a row of R147, in a state that R30 admits. -/
theorem fdRow_of_byteRow {s t : State} {b : Byte} {now : Nat} (h : FdInv s) (hw : timedOut s.fd now = false)
    (hr : ByteRow s b now t) : FdRow s.params s.fd b now t.fd.state := by
  have hin : ¬ (s.fd.state ≠ .idle ∧ s.fd.tStart + 500 < now) := by
    rw [← timedOut_iff, hw]; exact Bool.false_ne_true
  rw [FdRow, if_neg hin]
  cases hr with
  | idleSkip hs hb | sopBadtype hs hb | csumBad hs hb =>
    simp only [hs]
    exact (if_neg hb).symm
  | idleSop hs hb | sopType hs hb | csumOk hs hb =>
    simp only [hs]
    exact (if_pos hb).symm
  | lenHi hs hc =>
    simp only [hs]
    exact .inl ⟨hc, rfl⟩
  | lenLo hs hc hl =>
    simp only [hs]
    rw [withLo_toNat_bytes] at hl
    exact .inr ⟨hc, (if_pos hl).symm⟩
  | lenTooSmall hs hc hl =>
    simp only [hs]
    rw [withLo_toNat_bytes] at hl
    exact .inr ⟨hc, (if_neg (Nat.not_lt.2 hl)).symm⟩
  | hdrByte hs hc =>
    simp only [hs]
    exact .inl ⟨hc, rfl⟩
  | hdrLast hs hc hl =>
    obtain ⟨-, -, hlen, -⟩ := hdrByte_stored b h hs
    simp only [hs]
    exact .inr (.inl ⟨hc, Nat.pos_of_ne_zero (mt (bodyLength_eq_zero_iff hlen).2 hl), rfl⟩)
  | hdrNoBody hs hc hl =>
    obtain ⟨-, -, hlen, -⟩ := hdrByte_stored b h hs
    simp only [hs]
    exact .inr (.inr ⟨hc, (bodyLength_eq_zero_iff hlen).1 hl, rfl⟩)
  | bodyByte hs hc hl =>
    obtain ⟨-, hlt, -⟩ := bodyByte_stored b h hs
    simp only [hs]
    exact .inl ⟨hc, by omega, rfl⟩
  | bodyLast hs hc hl =>
    simp only [hs]
    exact .inr (.inl ⟨hc, hl, rfl⟩)
  | bodyOvf hs hc =>
    simp only [hs]
    exact .inr (.inr ⟨hc, rfl⟩)
  | discardDrop hs hb =>
    simp only [hs]
    refine (if_neg ?_).symm
    rintro ⟨hsop, hresync⟩
    exact hb.elim (· hsop) fun h => Bool.false_ne_true (h.symm.trans hresync)
  | discardSop hs hb hresync =>
    simp only [hs]
    exact (if_pos ⟨hb, hresync⟩).symm
  | eopOk hs | eopBad hs =>
    simp only [hs]
    rfl

theorem fetch_rx_ne_idle {s : State} {b : Byte} {now : Nat} {rest : List InEvent} (hi : s.inputs = .rx b now :: rest) :
    fetch s ≠ .idle := by
  simp only [fetch, hi]
  split
  · split
    · unfold Fetch.ofDecoded
      split <;> simp
    · simp
  · simp

/-- Settles O39: the watchdog's row, or the row of the state (`fdRow_of_byteRow`). -/
theorem decoderTransitionTable : Obligations.DecoderTransitionTable := by
  unfold Obligations.DecoderTransitionTable
  intro s t b now rest h hi hstep
  obtain ⟨hf, -⟩ | ⟨i, u, hf, he, rfl⟩ := step_eq_next hstep
  · exact absurd hf (fetch_rx_ne_idle hi)
  · rw [retire_fd]
    obtain ⟨-, -, ⟨hw, rfl⟩ | ⟨hw, hd⟩⟩ := fetch_run_rx hi hf
    · obtain ⟨-, he⟩ := requireFd_eq_next he
      cases he
      exact (if_pos ((timedOut_iff _ _).1 hw)).mpr rfl
    · exact fdRow_of_byteRow h.fd hw (byteRow_of_exec hd he)

/-! ### Where frames come from (R147, R249) -/

/-- What one operation adds to the decoder's events, and where it may enter `eop`. -/
structure Emission (i : Instr) (s t : State) : Prop where
  /-- Nothing, one diagnostic, or, from `FD_EOP_OK` to a consumer, one frame. -/
  out : t.fdOut = s.fdOut ∨ (∃ c, t.fdOut = s.fdOut ++ [.diag c]) ∨
    (t.fdOut = s.fdOut ++ [.frame (frameOf s)] ∧ i = .fdEopOk ∧ s.fd.consumerEn = true)
  /-- `eop` was the state before, or the operation is `FD_CSUM_OK`. -/
  eop : t.fd.state = .eop → s.fd.state = .eop ∨ ∃ b, i = .fdCsumOk b

theorem emission_of_same {i : Instr} {s t : State} (ho : t.fdOut = s.fdOut)
    (hs : t.fd.state = s.fd.state ∨ t.fd.state ≠ .eop) : Emission i s t where
  out := .inl ho
  eop h := hs.elim (fun hs => .inl (hs.symm.trans h)) (absurd h)

theorem emission_of_reject {i : Instr} {s t : State} {c : Cause} (ho : t.fdOut = s.fdOut ++ [.diag c])
    (hs : t.fd.state = c.target) : Emission i s t where
  out := .inr (.inl ⟨c, ho⟩)
  eop h := by cases c <;> cases hs.symm.trans h

theorem exec_emission {i : Instr} {s t : State} (h : exec i s = .next t) : Emission i s t := by
  cases hi : ofFd i with
  | false =>
    obtain ⟨hfd, hout, -, -⟩ := exec_sameFd hi h
    exact emission_of_same hout (.inl (by rw [hfd]))
  | true =>
    cases i with
    | hostResetFd => cases h; exact emission_of_same rfl (.inr (by simp [FdRegs.reset]))
    | fdWdog _ _ | fdSopBadtype _ | fdBodyOvf _ | fdCsumBad _ | fdEopBad _ =>
      obtain ⟨-, h⟩ := requireFd_eq_next h
      cases h; exact emission_of_reject rfl rfl
    | fdIdleSop _ | fdDiscardSop _ | fdSopType =>
      obtain ⟨-, h⟩ := requireFd_eq_next h
      cases h; exact emission_of_same rfl (.inr (by simp))
    | fdIdleSkip _ | fdDiscardDrop _ | fdLenHi _ | fdSetConsumer _ | fdReadState =>
      obtain ⟨-, h⟩ := requireFd_eq_next h
      cases h; exact emission_of_same rfl (.inl rfl)
    | fdLenLo b =>
      obtain ⟨-, h⟩ := requireFd_eq_next h
      split at h <;> cases h
      · exact emission_of_reject rfl rfl
      · exact emission_of_same rfl (.inr (by simp))
    | fdHdrByte b =>
      obtain ⟨-, h⟩ := requireFd_eq_next h
      obtain ⟨u, hu, h⟩ := andThen_eq_next h
      obtain ⟨-, rfl⟩ := memWrite_next hu
      dsimp only at h
      split at h <;> cases h
      · exact emission_of_same rfl (.inl rfl)
      · refine emission_of_same rfl (.inr ?_)
        rw [setFd_fd]
        split <;> simp
    | fdBodyByte b =>
      obtain ⟨-, h⟩ := requireFd_eq_next h
      obtain ⟨u, hu, h⟩ := andThen_eq_next h
      obtain ⟨-, rfl⟩ := memWrite_next hu
      cases h
      refine emission_of_same rfl ?_
      rw [setFd_fd]
      split
      · exact .inr (by simp)
      · exact .inl rfl
    | fdCsumOk b =>
      obtain ⟨-, h⟩ := requireFd_eq_next h
      cases h
      exact ⟨.inl rfl, fun _ => .inr ⟨b, rfl⟩⟩
    | fdEopOk =>
      obtain ⟨-, h⟩ := requireFd_eq_next h
      split at h <;> cases h
      refine ⟨?_, fun h => by cases h⟩
      rw [setFd_fdOut, deliver_fdOut]
      split
      · exact .inr (.inr ⟨rfl, rfl, ‹_›⟩)
      · exact .inl rfl
    | _ => cases hi

/-- Settles O42: `exec_emission` read for a frame, for `eop`, and for the number of events. -/
theorem framesOnlyFromEndMarker : Obligations.FramesOnlyFromEndMarker := by
  unfold Obligations.FramesOnlyFromEndMarker
  intro i s t h
  obtain ⟨hout, heop⟩ := exec_emission h
  refine ⟨fun f hf => ?_, fun hs ht => (heop ht).resolve_left hs, ?_⟩
  · obtain ho | ⟨c, ho⟩ | ⟨-, hi, hc⟩ := hout
    · simp [ho] at hf
    · simp [ho] at hf
    · exact ⟨hi, hc⟩
  · obtain ho | ⟨c, ho⟩ | ⟨ho, -⟩ := hout
    · exact .inl ho
    · exact .inr ⟨_, ho⟩
    · exact .inr ⟨_, ho⟩

end Sys2Proof.Machine
end

section
/-! Whole frames (40_frame_decoder.md R149, R150, R151): the bytes of a frame take the decoder from `idle` to the state
that waits for the checksum with the fields in the registers and buffers; the checksum and the end marker then decide the outcome. -/

namespace Sys2Proof.Machine

/-! ### The bytes of a frame -/

/-- The length field of a frame whose header and body are `payload` (R93). -/
def frameLen (payload : List Byte) : Half := BitVec.ofNat 16 (payload.length + 1)

/-- The exclusive-or of the bytes that the checksum of a frame covers (R93, R148). -/
def coveredXor (payload : List Byte) : Byte :=
  Config.typeSig ^^^ (frameLen payload).extractLsb' 8 8 ^^^ (frameLen payload).extractLsb' 0 8 ^^^ xorBytes payload

/-- The start marker, the type and the length of a frame. -/
def leadBytes (payload : List Byte) : List Byte :=
  [Config.sop, Config.typeSig, (frameLen payload).extractLsb' 8 8, (frameLen payload).extractLsb' 0 8]

theorem leadBytes_congr {payload payload' : List Byte} (h : payload'.length = payload.length) :
    leadBytes payload' = leadBytes payload := by
  simp only [leadBytes, frameLen, h]

/-- The bytes of a frame (R90) with any byte `c` for the checksum and `e` for the end marker. -/
def wireBytes (payload : List Byte) (c e : Byte) : List Byte := leadBytes payload ++ (payload ++ [c, e])

theorem frameBytes_eq_wireBytes (header body : List Byte) :
    frameBytes 0x53 header body = wireBytes (header ++ body) (coveredXor (header ++ body)) Config.eop := by
  have hx : ([0x53, (frameLen (header ++ body)).extractLsb' 8 8, (frameLen (header ++ body)).extractLsb' 0 8] ++ header
      ++ body).foldl (· ^^^ ·) 0 = coveredXor (header ++ body) := by
    show xorBytes _ = _
    simp only [List.cons_append, List.nil_append, xorBytes_cons, coveredXor, BitVec.xor_assoc]
    rfl
  rw [frameBytes, ← List.length_append]
  show [Config.sop] ++ _ ++ [_, Config.eop] = _
  rw [← hx]
  simp [wireBytes, leadBytes, frameLen, Config.typeSig]

theorem wireBytes_length (payload : List Byte) (c e : Byte) : (wireBytes payload c e).length = payload.length + 6 := by
  simp [wireBytes, leadBytes]

/-! ### One byte changed -/

theorem xorBytes_set_ne {l : List Byte} {k : Nat} {x y : Byte} (hx : l[k]? = some x) (hy : y ≠ x) :
    xorBytes (l.set k y) ≠ xorBytes l := by
  induction l generalizing k with
  | nil => cases hx
  | cons z l ih =>
    cases k with
    | zero =>
      cases hx
      rwa [List.set_cons_zero, xorBytes_cons, xorBytes_cons, Ne, BitVec.xor_left_inj]
    | succ k =>
      rw [List.set_cons_succ, xorBytes_cons, xorBytes_cons, Ne, BitVec.xor_right_inj]
      exact ih hx

theorem coveredXor_set_ne {payload : List Byte} {k : Nat} {x y : Byte} (hx : payload[k]? = some x) (hy : y ≠ x) :
    coveredXor (payload.set k y) ≠ coveredXor payload := by
  simp only [coveredXor, frameLen, List.length_set, Ne, BitVec.xor_right_inj]
  exact xorBytes_set_ne hx hy

/-- A frame with one byte after the length changed is a frame of a payload as long, with a checksum that does not match, or
with a matching one and another end marker, where the changed byte is the last. -/
theorem wireBytes_set {payload : List Byte} {k : Nat} {x y : Byte} (hk : 4 ≤ k)
    (hx : (wireBytes payload (coveredXor payload) Config.eop)[k]? = some x) (hy : y ≠ x) :
    ∃ payload' c e, (wireBytes payload (coveredXor payload) Config.eop).set k y = wireBytes payload' c e ∧
      payload'.length = payload.length ∧
      ((k + 1 ≠ payload.length + 6 ∧ c ≠ coveredXor payload' ∧ e = Config.eop) ∨
        (k + 1 = payload.length + 6 ∧ c = coveredXor payload' ∧ e ≠ Config.eop)) := by
  obtain ⟨j, rfl⟩ := Nat.exists_eq_add_of_le hk
  have hlead : (leadBytes payload).length = 4 := rfl
  rw [wireBytes, List.getElem?_append_right (by omega), hlead, Nat.add_sub_cancel_left] at hx
  rw [wireBytes, List.set_append_right _ _ (by omega), hlead, Nat.add_sub_cancel_left]
  by_cases hpay : j < payload.length
  · rw [List.getElem?_append_left hpay] at hx
    refine ⟨payload.set j y, coveredXor payload, Config.eop, ?_, List.length_set, .inl ⟨by omega, ?_, rfl⟩⟩
    · rw [List.set_append_left _ _ hpay, wireBytes, leadBytes_congr List.length_set]
    · exact (coveredXor_set_ne hx hy).symm
  · obtain ⟨n, rfl⟩ := Nat.exists_eq_add_of_le (Nat.not_lt.1 hpay)
    rw [List.getElem?_append_right (by omega), Nat.add_sub_cancel_left] at hx
    rw [List.set_append_right _ _ (by omega), Nat.add_sub_cancel_left]
    match n, hx with
    | 0, hx =>
      cases hx
      exact ⟨payload, y, Config.eop, rfl, rfl, .inl ⟨by omega, hy, rfl⟩⟩
    | 1, hx =>
      cases hx
      exact ⟨payload, coveredXor payload, y, rfl, rfl, .inr ⟨by omega, rfl, hy⟩⟩

/-! ### Bytes and their times -/

theorem exists_append_of_length {α : Type} {l : List α} {n m : Nat} (h : l.length = n + m) :
    ∃ a b, l = a ++ b ∧ a.length = n ∧ b.length = m :=
  ⟨l.take n, l.drop n, (List.take_append_drop n l).symm, by simp [h], by simp [h]⟩

theorem feed_zip_append {l l' : List Byte} {times times' : List Nat} (h : times.length = l.length) (s : State) :
    feed ((l ++ l').zip (times ++ times')) s = andThen (feed (l.zip times) s) (feed (l'.zip times')) := by
  rw [List.zip_append h.symm, feed_append]

/-- A byte that goes on, then the rest. -/
theorem feed_cons_of_byteRow {s t : State} {b : Byte} {now : Nat} (l : List (Byte × Nat)) (hinit : s.fdInit = true)
    (hw : timedOut s.fd now = false) (h : ByteRow s b now t) : feed ((b, now) :: l) s = feed l t := by
  rw [feed, rx_of_byteRow hinit hw h, andThen_next]

/-- A frame's worth of bytes arrives in `idle`, within the watchdog's limit of the first, at the time `t0`. -/
structure Arrival (s : State) (header body : List Byte) (times : List Nat) (t0 : Nat) : Prop where
  init : s.fdInit = true
  idle : s.fd.state = .idle
  hdrPos : 0 < s.params.hdrSize
  hdrFits : header.length = s.params.hdrSize
  bodyFits : body.length ≤ s.params.bodyCap
  lenFits : header.length + body.length + 1 < 65536
  timesLength : times.length = header.length + body.length + 6
  first : times.head? = some t0
  inTime : ∀ x ∈ times, x ≤ t0 + 500

/-! ### The lead of a frame -/

theorem withLo_withHi (len l : Half) : withLo (withHi len (l.extractLsb' 8 8)) (l.extractLsb' 0 8) = l := by
  rw [withLo, extractHi_withHi]
  exact BitVec.extractLsb'_append_extractLsb'_eq_extractLsb' (by omega) |>.trans (by simp)

/-- The registers after the start marker at `t0`, the type and the length `l` (R133, R134, R136, R137). -/
def FdRegs.lengthTaken (r : FdRegs) (l : Half) (t0 : Nat) : FdRegs :=
  { r with
    state := .readHeader, typ := Config.typeSig, len := l, cnt := 0, tStart := t0
    csum := Config.typeSig ^^^ l.extractLsb' 8 8 ^^^ l.extractLsb' 0 8 }

theorem feed_lead {s : State} {payload : List Byte} {times : List Nat} {t0 : Nat} (hinit : s.fdInit = true)
    (hs : s.fd.state = .idle) (hl : s.params.hdrSize < (frameLen payload).toNat) (htl : times.length = 3)
    (ht : ∀ x ∈ times, x ≤ t0 + 500) :
    feed ((leadBytes payload).zip (t0 :: times)) s = .next (s.setFd (s.fd.lengthTaken (frameLen payload) t0)) := by
  obtain ⟨t1, t2, t3, rfl⟩ := List.length_eq_three.1 htl
  have h1 : t1 ≤ t0 + 500 := ht t1 (by simp)
  have h2 : t2 ≤ t0 + 500 := ht t2 (by simp)
  have h3 : t3 ≤ t0 + 500 := ht t3 (by simp)
  have hlen := withLo_withHi s.fd.len (frameLen payload)
  have hlo : s.params.hdrSize < (withLo (withHi s.fd.len ((frameLen payload).extractLsb' 8 8))
      ((frameLen payload).extractLsb' 0 8)).toNat := by rwa [hlen]
  refine Eq.trans (feed_cons_of_byteRow _ hinit (timedOut_idle t0 hs) (.idleSop hs rfl)) ?_
  refine Eq.trans (feed_cons_of_byteRow _ hinit (timedOut_of_le h1) (.sopType rfl rfl)) ?_
  refine Eq.trans (feed_cons_of_byteRow _ hinit (timedOut_of_le h2) (.lenHi rfl rfl)) ?_
  refine Eq.trans (feed_cons_of_byteRow _ hinit (timedOut_of_le h3) (.lenLo rfl rfl hlo)) ?_
  simp only [setFd_fd, openSession_fd, hlen]
  rfl

/-! ### The header and the body -/

theorem frameLen_toNat {header body : List Byte} (h : header.length + body.length + 1 < 65536) :
    (frameLen (header ++ body)).toNat = header.length + body.length + 1 := by
  rw [frameLen, List.length_append, BitVec.toNat_ofNat, Nat.mod_eq_of_lt h]

/-- The state `u` waits for the checksum of a frame with this header and body, whose start marker came at `t0`; nothing but
the decoder's registers and buffers has changed since `s` (R30 (d)). -/
structure AwaitsChecksum (s u : State) (header body : List Byte) (t0 : Nat) : Prop where
  frame : u = s.setFd u.fd
  state : u.fd.state = .checksum
  typ : u.fd.typ = Config.typeSig
  len : u.fd.len = frameLen (header ++ body)
  csum : u.fd.csum = coveredXor (header ++ body)
  bodyLen : u.fd.bodyLen = BitVec.ofNat 16 body.length
  tStart : u.fd.tStart = t0
  consumerEn : u.fd.consumerEn = s.fd.consumerEn
  hdr : u.readBytes .hdr 0 s.params.hdrSize = header
  body : u.readBytes .body 0 u.fd.bodyLen.toNat = body

/-- The registers after the header (R138), which now stands in `hdr`. -/
def FdRegs.headerTaken (r : FdRegs) (header body : List Byte) (t0 : Nat) (mh : Memory) : FdRegs :=
  { r.lengthTaken (frameLen (header ++ body)) t0 with
    hdr := mh, csum := (r.lengthTaken (frameLen (header ++ body)) t0).csum ^^^ xorBytes header
    bodyLen := BitVec.ofNat 16 body.length
    state := if BitVec.ofNat 16 body.length = 0 then .checksum else .readBody }

/-- The registers after the header and the body (R139), which now stands in `body`. -/
def FdRegs.payloadTaken (r : FdRegs) (header body : List Byte) (t0 : Nat) (mh mb : Memory) (n : Half) : FdRegs :=
  { r.headerTaken header body t0 mh with state := .checksum, csum := coveredXor (header ++ body), cnt := n, body := mb }

theorem headerTaken_csum (r : FdRegs) (header body : List Byte) (t0 : Nat) (mh : Memory) :
    (r.headerTaken header body t0 mh).csum ^^^ xorBytes body = coveredXor (header ++ body) := by
  rw [coveredXor, xorBytes_append, ← BitVec.xor_assoc]
  rfl

theorem awaitsChecksum_payloadTaken {s : State} {header body : List Byte} {t0 : Nat} {mh mb : Memory} {n : Half}
    (hh : (s.setFd (s.fd.headerTaken header body t0 mh)).readBytes .hdr 0 s.params.hdrSize = header)
    (hb : (s.setFd { s.fd.headerTaken header body t0 mh with body := mb }).readBytes .body 0
      (BitVec.ofNat 16 body.length).toNat = body) :
    AwaitsChecksum s (s.setFd (s.fd.payloadTaken header body t0 mh mb n)) header body t0 where
  frame := rfl
  state := rfl
  typ := rfl
  len := rfl
  csum := rfl
  bodyLen := rfl
  tStart := rfl
  consumerEn := rfl
  hdr := hh
  body := hb

theorem feed_header_of_lead {s : State} {header body : List Byte} {times : List Nat} {t0 : Nat} (hinit : s.fdInit = true)
    (hpos : 0 < s.params.hdrSize) (hh : header.length = s.params.hdrSize)
    (hlen : (frameLen (header ++ body)).toNat = header.length + body.length + 1) (htl : times.length = header.length)
    (ht : ∀ x ∈ times, x ≤ t0 + 500) :
    ∃ m, feed (header.zip times) (s.setFd (s.fd.lengthTaken (frameLen (header ++ body)) t0)) =
        .next (s.setFd (s.fd.headerTaken header body t0 m)) ∧
      (s.setFd (s.fd.headerTaken header body t0 m)).readBytes .hdr 0 s.params.hdrSize = header := by
  have hsize : s.params.hdrSize < (frameLen (header ++ body)).toNat := by omega
  have hbl : bodyLength (frameLen (header ++ body)) s.params.hdrSize = BitVec.ofNat 16 body.length := by
    rw [bodyLength_eq hsize]
    congr 1
    omega
  obtain ⟨m, hfeed, hread⟩ := feed_header header [] times (s.setFd (s.fd.lengthTaken (frameLen (header ++ body)) t0))
    hinit rfl rfl rfl (by simpa using hh) (List.ne_nil_of_length_pos (by omega)) hsize htl ht
  refine ⟨m, hfeed.trans ?_, hread⟩
  simp only [setFd_fd, setFd_params, FdRegs.lengthTaken, hbl]
  rfl

theorem feed_body_of_header {s : State} {header body : List Byte} {times : List Nat} {t0 : Nat} {mh : Memory}
    (hinit : s.fdInit = true) (hb : body.length ≤ s.params.bodyCap) (hl : body.length < 65536)
    (htl : times.length = body.length) (ht : ∀ x ∈ times, x ≤ t0 + 500)
    (hh : (s.setFd (s.fd.headerTaken header body t0 mh)).readBytes .hdr 0 s.params.hdrSize = header) :
    ∃ u, feed (body.zip times) (s.setFd (s.fd.headerTaken header body t0 mh)) = .next u ∧
      AwaitsChecksum s u header body t0 := by
  by_cases hnil : body = []
  · subst hnil
    have hcsum : coveredXor (header ++ []) = (s.fd.headerTaken header [] t0 mh).csum :=
      (headerTaken_csum ..).symm.trans BitVec.xor_zero
    refine ⟨_, ?_, awaitsChecksum_payloadTaken (mb := s.fd.body) (n := 0) hh rfl⟩
    rw [FdRegs.payloadTaken, hcsum]
    rfl
  · have hbn : (BitVec.ofNat 16 body.length).toNat = body.length := by
      rw [BitVec.toNat_ofNat, Nat.mod_eq_of_lt hl]
    have hne : BitVec.ofNat 16 body.length ≠ 0 := fun h =>
      hnil (List.length_eq_zero_iff.1 (hbn.symm.trans (congrArg BitVec.toNat h)))
    obtain ⟨mb, n, hfeed, hread⟩ := feed_body body [] times (s.setFd (s.fd.headerTaken header body t0 mh)) hinit
      (if_neg hne) rfl rfl ((Nat.zero_add _).trans hbn.symm) hnil (hbn.trans_le hb) htl ht
    refine ⟨_, hfeed.trans ?_, awaitsChecksum_payloadTaken (mb := mb) (n := n) hh hread⟩
    rw [FdRegs.payloadTaken, ← headerTaken_csum s.fd header body t0 mh]
    rfl

/-! ### The checksum and the end marker -/

/-- Up to its checksum, whatever bytes follow in its place and in that of the end marker, a frame ends in the state that
waits for the checksum, with two bytes left. -/
theorem feed_wireBytes {s : State} {header body : List Byte} {times : List Nat} {t0 : Nat}
    (h : Arrival s header body times t0) :
    ∃ u tc te, AwaitsChecksum s u header body t0 ∧ tc ≤ t0 + 500 ∧ te ≤ t0 + 500 ∧
      ∀ c e, feed ((wireBytes (header ++ body) c e).zip times) s = feed [(c, tc), (e, te)] u := by
  obtain ⟨hinit, hidle, hpos, hh, hb, hl, htl, hfirst, ht⟩ := h
  have hlen := frameLen_toNat hl
  obtain ⟨first, times, rfl⟩ := List.exists_cons_of_length_pos (l := times) (by omega)
  obtain rfl : first = t0 := Option.some_inj.1 hfirst
  obtain ⟨tl, tp, rfl, htll, htp⟩ := exists_append_of_length (l := times) (n := 3)
    (m := header.length + (body.length + 2)) (by simp only [List.length_cons] at htl; omega)
  obtain ⟨th, tp, rfl, hth, htp⟩ := exists_append_of_length htp
  obtain ⟨tb, tr, rfl, htb, htr⟩ := exists_append_of_length htp
  obtain ⟨tc, te, rfl⟩ := List.length_eq_two.1 htr
  obtain ⟨m, hheader, hread⟩ := feed_header_of_lead hinit hpos hh hlen hth (fun x hx => ht x (by simp [hx]))
  obtain ⟨u, hbody, hu⟩ := feed_body_of_header hinit hb (by omega) htb (fun x hx => ht x (by simp [hx])) hread
  refine ⟨u, tc, te, hu, ht tc (by simp), ht te (by simp), fun c e => ?_⟩
  rw [wireBytes, ← List.cons_append, feed_zip_append (by rw [List.length_cons, htll]; rfl),
    feed_lead hinit hidle (by omega) htll (fun x hx => ht x (by simp [hx])), andThen_next, List.append_assoc,
    feed_zip_append hth, hheader, andThen_next, feed_zip_append htb, hbody, andThen_next]
  rfl

theorem AwaitsChecksum.params {s u : State} {header body : List Byte} {t0 : Nat} (h : AwaitsChecksum s u header body t0) :
    u.params = s.params := by
  rw [h.frame]
  rfl

theorem AwaitsChecksum.init {s u : State} {header body : List Byte} {t0 : Nat} (h : AwaitsChecksum s u header body t0)
    (hinit : s.fdInit = true) : u.fdInit = true := by
  rw [h.frame]
  exact hinit

theorem AwaitsChecksum.timedOut {s u : State} {header body : List Byte} {t0 now : Nat} {st : FdState}
    (h : AwaitsChecksum s u header body t0) (ht : now ≤ t0 + 500) :
    Machine.timedOut { u.fd with state := st } now = false :=
  timedOut_of_le (r := { u.fd with state := st }) (h.tStart ▸ ht)

/-- A checksum that does not match is rejected, and the end marker after it is skipped in `idle`. -/
theorem feed_csumBad {s u : State} {header body : List Byte} {t0 tc te : Nat} {c : Byte} (hinit : s.fdInit = true)
    (h : AwaitsChecksum s u header body t0) (htc : tc ≤ t0 + 500) (hc : c ≠ coveredXor (header ++ body)) :
    feed [(c, tc), (Config.eop, te)] u = .next (reject .csumMismatch u) := by
  refine (feed_cons_of_byteRow _ (h.init hinit) (h.timedOut htc) (.csumBad h.state (h.csum ▸ hc))).trans ?_
  exact feed_cons_of_byteRow [] (s := reject .csumMismatch u) (h.init hinit) (timedOut_idle te rfl)
    (.idleSkip rfl (by decide))

/-- A matching checksum leads to the end marker. -/
theorem feed_csumOk {s u : State} {header body : List Byte} {t0 tc : Nat} (l : List (Byte × Nat))
    (hinit : s.fdInit = true) (h : AwaitsChecksum s u header body t0) (htc : tc ≤ t0 + 500) :
    feed ((coveredXor (header ++ body), tc) :: l) u = feed l (u.setFd { u.fd with state := .eop }) :=
  feed_cons_of_byteRow l (h.init hinit) (h.timedOut htc) (.csumOk h.state h.csum.symm)

theorem feed_eopBad {s u : State} {header body : List Byte} {t0 te : Nat} {e : Byte} (hinit : s.fdInit = true)
    (h : AwaitsChecksum s u header body t0) (hte : te ≤ t0 + 500) (he : e ≠ Config.eop) :
    feed [(e, te)] (u.setFd { u.fd with state := .eop }) = .next (reject .badEop (u.setFd { u.fd with state := .eop })) :=
  feed_cons_of_byteRow [] (s := u.setFd { u.fd with state := .eop }) (h.init hinit) (h.timedOut hte) (.eopBad rfl he)

theorem feed_eopOk {s u : State} {header body : List Byte} {t0 te : Nat} (hinit : s.fdInit = true)
    (h : AwaitsChecksum s u header body t0) (hte : te ≤ t0 + 500) (hl : u.fd.bodyLen.toNat ≤ u.params.bodyCap) :
    feed [(Config.eop, te)] (u.setFd { u.fd with state := .eop }) =
      .next ((deliver (u.setFd { u.fd with state := .eop })).setFd { u.fd with state := .idle }) :=
  feed_cons_of_byteRow [] (s := u.setFd { u.fd with state := .eop }) (h.init hinit) (h.timedOut hte) (.eopOk rfl rfl hl)

/-- The frame event of the buffered frame (R152, decision D18). -/
theorem frameOf_awaitsChecksum {s u : State} {header body : List Byte} {t0 : Nat}
    (h : AwaitsChecksum s u header body t0) :
    frameOf (u.setFd { u.fd with state := .eop }) =
      { typ := 0x53, len := BitVec.ofNat 16 (header.length + body.length + 1), hdrBytes := header, bodyBytes := body,
        bodyLen := BitVec.ofNat 16 body.length,
        info := unpack s.params header body (BitVec.ofNat 16 body.length) } := by
  show ({ typ := u.fd.typ, len := u.fd.len, hdrBytes := u.readBytes .hdr 0 u.params.hdrSize
          bodyBytes := u.readBytes .body 0 u.fd.bodyLen.toNat, bodyLen := u.fd.bodyLen
          info := unpack u.params (u.readBytes .hdr 0 u.params.hdrSize) (u.readBytes .body 0 u.fd.bodyLen.toNat)
            u.fd.bodyLen } : Frame) = _
  rw [h.params, h.hdr, h.body, h.typ, h.len, h.bodyLen, frameLen, List.length_append]
  rfl

theorem AwaitsChecksum.fdOut {s u : State} {header body : List Byte} {t0 : Nat} (h : AwaitsChecksum s u header body t0) :
    u.fdOut = s.fdOut := by
  rw [h.frame]
  rfl

/-- What follows `AwaitsChecksum` in the decoder's registers and events alone changes nothing else since `s` either. -/
theorem AwaitsChecksum.fdOnly {s u t : State} {header body : List Byte} {t0 : Nat}
    (h : AwaitsChecksum s u header body t0) (ht : FdOnly u t) : FdOnly s t := by
  rw [FdOnly, h.frame] at ht
  exact ht

/-! ### The statements -/

/-- Settles O52: `feed_wireBytes` up to the checksum, then the two right bytes; the event is `frameOf_awaitsChecksum`. -/
theorem wellFormedFrameDelivered : Obligations.WellFormedFrameDelivered := by
  unfold Obligations.WellFormedFrameDelivered
  intro s header body times t0 hinit hs hen hpos hh hb hl htl hfirst ht
  rw [frameBytes_eq_wireBytes] at htl ⊢
  rw [wireBytes_length, List.length_append] at htl
  obtain ⟨u, tc, te, hu, htc, hte, hfeed⟩ := feed_wireBytes ⟨hinit, hs, hpos, hh, hb, hl, htl, hfirst, ht⟩
  have hcap : u.fd.bodyLen.toNat ≤ u.params.bodyCap := by
    rw [hu.bodyLen, hu.params, BitVec.toNat_ofNat, Nat.mod_eq_of_lt (by omega)]
    exact hb
  have hen' : u.fd.consumerEn = true := hu.consumerEn.trans hen
  refine ⟨_, (hfeed _ _).trans ((feed_csumOk _ hinit hu htc).trans (feed_eopOk hinit hu hte hcap)), hu.fdOnly ?_, rfl,
    hen', ?_⟩
  · simp only [FdOnly, deliver_eq]
    rfl
  · rw [setFd_fdOut, deliver_fdOut, setFd_fd, if_pos hen', frameOf_awaitsChecksum hu, setFd_fdOut, hu.fdOut]

/-- Settles O53: the changed frame is one of a payload as long (`wireBytes_set`), whose checksum does not match or whose
end marker is another byte. -/
theorem corruptedFrameRejected : Obligations.CorruptedFrameRejected := by
  unfold Obligations.CorruptedFrameRejected
  intro s header body times t0 k x y hinit hs hpos hh hb hl htl hfirst ht hk hx hy
  rw [frameBytes_eq_wireBytes] at htl hx ⊢
  rw [wireBytes_length, List.length_append] at htl
  obtain ⟨payload, c, e, hset, hlen, hce⟩ := wireBytes_set hk hx hy
  rw [List.length_append] at hlen hce
  rw [hset, wireBytes_length, List.length_append]
  obtain ⟨header', body', rfl, hh', hb'⟩ := exists_append_of_length hlen
  obtain ⟨u, tc, te, hu, htc, hte, hfeed⟩ := feed_wireBytes (s := s) (header := header') (body := body')
    ⟨hinit, hs, hpos, hh'.trans hh, hb'.trans_le hb, by omega, by omega, hfirst, ht⟩
  obtain ⟨hpos, hc, rfl⟩ | ⟨hpos, rfl, he⟩ := hce
  · refine ⟨_, (hfeed _ _).trans (feed_csumBad hinit hu htc hc), hu.fdOnly rfl, rfl, hu.consumerEn, ?_⟩
    rw [if_neg hpos, reject_fdOut, hu.fdOut]
  · refine ⟨_, (hfeed _ _).trans ((feed_csumOk _ hinit hu htc).trans (feed_eopBad hinit hu hte he)), hu.fdOnly rfl, rfl,
      hu.consumerEn, ?_⟩
    rw [if_pos hpos, reject_fdOut, setFd_fdOut, hu.fdOut]

/-- Settles O54: the watchdog abandons the old session at the start marker (`rx_timedOut`), and from there the frame is
delivered as from `idle`. -/
theorem decoderRecoversAfterTimeout : Obligations.DecoderRecoversAfterTimeout := by
  unfold Obligations.DecoderRecoversAfterTimeout
  intro s header body times t0 hinit hs hlate hen hpos hh hb hl htl hfirst ht
  obtain ⟨t, hfeed, -, hidle, -, hout⟩ := wellFormedFrameDelivered (reject .watchdog s) header body times t0 hinit rfl hen
    hpos hh hb hl htl hfirst ht
  refine ⟨t, _, ?_, hidle, rfl, rfl, by rw [hout, reject_fdOut, List.append_assoc]; rfl⟩
  rw [← hfeed]
  obtain ⟨times, rfl⟩ := List.head?_eq_some_iff.1 hfirst
  rw [frameBytes_eq_wireBytes, wireBytes, leadBytes]
  exact congrArg (andThen · _) (rx_timedOut hinit ((timedOut_iff _ _).2 ⟨hs, hlate⟩))

end Sys2Proof.Machine
end

section
/-! The payload stage of a delivery (41_header_unpack.md): what the field cursor extracts, the record of a header of all
30 bytes and of one that ends within `avgVoltage`, and the in-rush value with its tolerance. -/

namespace Sys2Proof.Machine

/-! ### The field cursor -/

/-- The big-endian field of `n` bytes at the offset `pos` of a header (R171). -/
def headerField (w : Nat) (h : List Byte) (pos n : Nat) : BitVec w := BitVec.ofNat w (be ((h.drop pos).take n))

theorem headerField_one {h rest : List Byte} {pos : Nat} {a : Byte} (hd : h.drop pos = a :: rest) :
    headerField 8 h pos 1 = a := by
  simp [headerField, hd, be]

theorem headerField_two {h rest : List Byte} {pos : Nat} {a b : Byte} (hd : h.drop pos = a :: b :: rest) :
    headerField 16 h pos 2 = BitVec.ofNat 16 (a.toNat * 256 + b.toNat) := by
  simp [headerField, hd, be]

theorem headerField_four {h rest : List Byte} {pos : Nat} {a b c d : Byte} (hd : h.drop pos = a :: b :: c :: d :: rest) :
    headerField 32 h pos 4 =
      BitVec.ofNat 32 (a.toNat * 16777216 + b.toNat * 65536 + c.toNat * 256 + d.toNat) := by
  have hbe : be [a, b, c, d] = a.toNat * 16777216 + b.toNat * 65536 + c.toNat * 256 + d.toNat := by
    simp only [be, List.foldl_cons, List.foldl_nil]
    omega
  rw [headerField, hd, ← hbe]
  rfl

/-- A field whose bytes are there is extracted, and the cursor moves past it (R171). -/
theorem cursor_get_of_le {h : List Byte} {pos n w : Nat} (hle : pos + n ≤ h.length) :
    (Cursor.mk pos true).get h n w = some (headerField w h pos n) := by
  simp [Cursor.get, Cursor.fits, hle, headerField]

theorem cursor_advance_of_le {cap pos n : Nat} (hle : pos + n ≤ cap) :
    (Cursor.mk pos true).advance cap n = ⟨pos + n, true⟩ := by
  simp [Cursor.advance, Cursor.fits, hle]

/-- A field that runs past the header has no value, and the error is latched (R171). -/
theorem cursor_get_of_lt {h : List Byte} {pos n w : Nat} (hlt : h.length < pos + n) :
    (Cursor.mk pos true).get h n w = none := by
  simp [Cursor.get, Cursor.fits, hlt]

theorem cursor_advance_of_lt {cap pos n : Nat} (hlt : cap < pos + n) :
    (Cursor.mk pos true).advance cap n = ⟨pos, false⟩ := by
  simp [Cursor.advance, Cursor.fits, hlt]

/-- After the first error nothing is extracted and the cursor stays (R171, R172). -/
theorem cursor_get_failed (h : List Byte) (pos n w : Nat) : (Cursor.mk pos false).get h n w = none := rfl

theorem cursor_advance_failed (cap pos n : Nat) : (Cursor.mk pos false).advance cap n = ⟨pos, false⟩ := rfl

/-- The first field is the first byte, where there is one. -/
theorem cursor_get_first (h : List Byte) : (Cursor.mk 0 true).get h 1 8 = h.head? := by
  cases h with
  | nil => rfl
  | cons b rest => rw [cursor_get_of_le (by simp), headerField_one rfl]; rfl

theorem head?_eq_headerField {h : List Byte} (hle : 1 ≤ h.length) : h.head? = some (headerField 8 h 0 1) :=
  (cursor_get_first h).symm.trans (cursor_get_of_le (by omega))

/-! ### The record -/

/-- The conditional fields of a header that holds all ten bytes of them. -/
theorem unpackConditional_of_le {h : List Byte} {pos : Nat} (isOff : Bool) (hle : pos + 10 ≤ h.length) :
    unpackConditional isOff h ⟨pos, true⟩ =
      { cycleDuration := some (if isOff then headerField 32 h pos 4 else 0)
        avgCurrent := some (if isOff then headerField 16 h (pos + 4) 2 else 0)
        avgVoltage := some (if isOff then headerField 16 h (pos + 6) 2 else 0)
        avgPowerFactor := some (if isOff then headerField 8 h (pos + 8) 1 else 0)
        temperature := some (if isOff then headerField 8 h (pos + 9) 1 else 0)
        after := ⟨pos + 10, true⟩ } := by
  cases isOff with
  | false => simp (disch := omega) [unpackConditional, cursor_advance_of_le]
  | true => simp (disch := omega) [unpackConditional, cursor_advance_of_le, cursor_get_of_le]

/-- The conditional fields of a header that ends before the last byte of `avgVoltage`. -/
theorem unpackConditional_of_lt {h : List Byte} {pos : Nat} (isOff : Bool) (hle : pos + 6 ≤ h.length)
    (hlt : h.length < pos + 8) :
    unpackConditional isOff h ⟨pos, true⟩ =
      { cycleDuration := some (if isOff then headerField 32 h pos 4 else 0)
        avgCurrent := some (if isOff then headerField 16 h (pos + 4) 2 else 0)
        avgVoltage := if isOff then none else some 0
        avgPowerFactor := if isOff then none else some 0
        temperature := if isOff then none else some 0
        after := ⟨if isOff then pos + 6 else pos, false⟩ } := by
  cases isOff with
  | false => simp (disch := omega) [unpackConditional, cursor_advance_of_lt]
  | true =>
    simp (disch := omega) [unpackConditional, cursor_advance_of_le, cursor_get_of_le, cursor_advance_of_lt,
      cursor_get_of_lt, cursor_advance_failed, cursor_get_failed]

/-- The record of a header of at least the 30 bytes that the field list spans (R174 (e), R115). -/
theorem unpack_of_metaExtent_le (p : Params) {h : List Byte} (body : List Byte) (bodyLen : Half) (hle : 30 ≤ h.length) :
    unpack p h body bodyLen =
      { reason := h.head?
        cycleCount := some (headerField 32 h 1 4)
        relayCycleCount := some (headerField 32 h 5 4)
        cycleDuration := some (if h.head? = some p.reasonOff then headerField 32 h 9 4 else 0)
        avgCurrent := some (if h.head? = some p.reasonOff then headerField 16 h 13 2 else 0)
        avgVoltage := some (if h.head? = some p.reasonOff then headerField 16 h 15 2 else 0)
        avgPowerFactor := some (if h.head? = some p.reasonOff then headerField 8 h 17 1 else 0)
        temperature := some (if h.head? = some p.reasonOff then headerField 8 h 18 1 else 0)
        totalPoweredTime := some (headerField 32 h 19 4)
        totalRunningTime := some (headerField 32 h 23 4)
        waterLevel := some (headerField 8 h 27 1)
        sampleResolution := some (headerField 8 h 29 1)
        metaOk := true
        sampleCount := bodyLen.toNat / 4
        inrush := inrush p h.head? body } := by
  simp (disch := omega) [unpack, head?_eq_headerField, cursor_advance_of_le, cursor_get_of_le, unpackConditional_of_le,
    sampleCount, Config.sampleSize]

/-- The record of a header that ends before the last byte of `avgVoltage`, as one of 15 bytes does (R174 (c), (d)). -/
theorem unpack_of_ends_within_avgVoltage (p : Params) {h : List Byte} (body : List Byte) (bodyLen : Half)
    (hle : 15 ≤ h.length) (hlt : h.length < 17) :
    unpack p h body bodyLen =
      { reason := h.head?
        cycleCount := some (headerField 32 h 1 4)
        relayCycleCount := some (headerField 32 h 5 4)
        cycleDuration := some (if h.head? = some p.reasonOff then headerField 32 h 9 4 else 0)
        avgCurrent := some (if h.head? = some p.reasonOff then headerField 16 h 13 2 else 0)
        avgVoltage := if h.head? = some p.reasonOff then none else some 0
        avgPowerFactor := if h.head? = some p.reasonOff then none else some 0
        temperature := if h.head? = some p.reasonOff then none else some 0
        totalPoweredTime := none
        totalRunningTime := none
        waterLevel := none
        sampleResolution := none
        metaOk := false
        sampleCount := bodyLen.toNat / 4
        inrush := inrush p h.head? body } := by
  simp (disch := omega) [unpack, head?_eq_headerField, cursor_advance_of_le, cursor_get_of_le, unpackConditional_of_lt,
    cursor_advance_failed, cursor_get_failed, sampleCount, Config.sampleSize]

/-- The in-rush value of the record is R177's value for the header's first byte, whatever the header's size. -/
theorem unpack_inrush (p : Params) (h body : List Byte) (bodyLen : Half) :
    (unpack p h body bodyLen).inrush = inrush p h.head? body :=
  congrArg (inrush p · body) (cursor_get_first h)

/-! ### The in-rush value -/

theorem maxOf_eq {x m : Int} {xs : List Int} (hm : m ∈ x :: xs) (hle : ∀ y ∈ x :: xs, y ≤ m) : maxOf x xs = m :=
  Option.some.inj (List.max?_cons'.symm.trans (List.max?_eq_some_iff.2 ⟨hm, hle⟩))

theorem minOf_eq {x m : Int} {xs : List Int} (hm : m ∈ x :: xs) (hle : ∀ y ∈ x :: xs, m ≤ y) : minOf x xs = m :=
  Option.some.inj (List.min?_cons'.symm.trans (List.min?_eq_some_iff.2 ⟨hm, hle⟩))

/-- The delivered value lies within the tolerance of the exact one, whatever the free function answers (R179). -/
theorem abs_inrushRepr_sub_le {tol : Rat} (exact : Rat) (htol : 0 ≤ tol) : |inrushRepr tol exact - exact| ≤ tol := by
  have hlow : exact - tol ≤ inrushRepr tol exact := le_max_left _ _
  have hhigh : inrushRepr tol exact ≤ exact + tol := max_le (by linarith) (min_le_left _ _)
  rw [abs_le]
  constructor <;> linarith

theorem inrush_of_reason_ne (p : Params) {reason : Option Byte} (body : List Byte) (h : reason ≠ some Config.reasonOn) :
    inrush p reason body = 0 := if_neg h

theorem inrush_of_no_samples (p : Params) (reason : Option Byte) {body : List Byte} (h : samples p.sampleBe body = []) :
    inrush p reason body = 0 := by
  simp [inrush, h]

/-- With the reason power-on the value is that of the extrema of the current values (R177, R178). -/
theorem inrush_of_extrema {p : Params} {body : List Byte} {hi lo : Sample} (hhi : hi ∈ samples p.sampleBe body)
    (hlo : lo ∈ samples p.sampleBe body) (hext : ∀ x ∈ samples p.sampleBe body, lo.i ≤ x.i ∧ x.i ≤ hi.i) :
    inrush p (some Config.reasonOn) body = inrushRepr p.inrushTol (inrushExact p.iScale hi.i lo.i) := by
  have himem : hi.i ∈ (samples p.sampleBe body).map (·.i) := List.mem_map_of_mem hhi
  have lomem : lo.i ∈ (samples p.sampleBe body).map (·.i) := List.mem_map_of_mem hlo
  have hbound : ∀ y ∈ (samples p.sampleBe body).map (·.i), lo.i ≤ y ∧ y ≤ hi.i := List.forall_mem_map.2 hext
  rw [inrush, if_pos rfl]
  cases hs : (samples p.sampleBe body).map (·.i) with
  | nil => simp [hs] at himem
  | cons x xs =>
    rw [hs] at himem lomem hbound
    rw [← maxOf_eq himem fun y hy => (hbound y hy).2, ← minOf_eq lomem fun y hy => (hbound y hy).1]

/-! ### The statements -/

/-- Settles O60: the value is that of the extrema (`inrush_of_extrema`), kept within the tolerance
(`abs_inrushRepr_sub_le`). -/
theorem inrushWithinTolerance : Obligations.InrushWithinTolerance := by
  unfold Obligations.InrushWithinTolerance
  rintro p h body bodyLen m rfl
  rw [unpack_inrush]
  refine ⟨inrush_of_reason_ne p body, inrush_of_no_samples p h.head?, ?_⟩
  intro hi hhi lo hlo htol hreason hext
  rw [hreason, show (0x01 : Byte) = Config.reasonOn from rfl, inrush_of_extrema hhi hlo hext]
  exact abs_inrushRepr_sub_le (inrushExact p.iScale hi.i lo.i) htol

/-- Settles O57: the record is `unpack_of_ends_within_avgVoltage`; what is left are the bytes of each field. -/
theorem unpackFifteenBytes : Obligations.UnpackFifteenBytes := by
  unfold Obligations.UnpackFifteenBytes
  rintro p b0 b1 b2 b3 b4 b5 b6 b7 b8 b9 b10 b11 b12 b13 b14 body bodyLen m rfl
  rw [unpack_of_ends_within_avgVoltage p body bodyLen (by simp) (by simp)]
  simp only [List.head?_cons, Option.some.injEq, true_and, and_true]
  refine ⟨headerField_four rfl, headerField_four rfl, fun hoff => ?_, fun hoff => by simp [hoff]⟩
  simp only [if_pos hoff, and_true]
  exact ⟨headerField_four rfl, headerField_two rfl⟩

/-- Settles O58: the record is `unpack_of_metaExtent_le`; what is left are the bytes of each field. -/
theorem unpackThirtyBytes : Obligations.UnpackThirtyBytes := by
  unfold Obligations.UnpackThirtyBytes
  rintro p b0 b1 b2 b3 b4 b5 b6 b7 b8 b9 b10 b11 b12 b13 b14 b15 b16 b17 b18 b19 b20 b21 b22 b23 b24 b25 b26 b27 b28 b29 more
    body bodyLen m rfl
  rw [unpack_of_metaExtent_le p body bodyLen (by simp)]
  simp only [List.cons_append, List.nil_append, List.head?_cons, Option.some.injEq, true_and, and_true]
  refine ⟨headerField_four rfl, headerField_four rfl, fun hoff => ?_, fun hoff => by simp [hoff], headerField_four rfl,
    headerField_four rfl, headerField_one rfl, headerField_one rfl⟩
  simp only [if_pos hoff]
  exact ⟨headerField_four rfl, headerField_two rfl, headerField_two rfl, headerField_one rfl, headerField_one rfl⟩

end Sys2Proof.Machine
end

section
/-! What a sample does to the whole state: the row of R205 that the channel's state and condition select, performed on the
channel, its deadline and its event (42_debounce_sampler.md R191 to R207). The operations of a channel are its cases. -/

namespace Sys2Proof.Machine

/-! ### One channel -/

/-- A channel put back as it was found changes nothing. -/
theorem withChannel_self {s : State} {ch : Nat} {c : Channel} (hc : s.dis.channels[ch]? = some c) :
    s.withChannel ch c = s := by
  obtain ⟨hlt, rfl⟩ := List.getElem?_eq_some_iff.1 hc
  simp [State.withChannel]

theorem withChannel_channel {s : State} {ch : Nat} {c : Channel} (hc : s.dis.channels[ch]? = some c) (c' : Channel) :
    (s.withChannel ch c').dis.channels[ch]? = some c' := by
  obtain ⟨hlt, -⟩ := List.getElem?_eq_some_iff.1 hc
  exact List.getElem?_set_self hlt

theorem asserted_eq {p : Params} {level a : Bool} (h : level = p.assertedLevel ↔ a = true) : asserted p level = a :=
  Bool.eq_iff_iff.2 ((asserted_iff p level).trans h)

theorem expired_eq {c : Channel} {now : Nat} {e : Bool} (h : c.deadline ≤ now ↔ e = true) : expired c now = e :=
  Bool.eq_iff_iff.2 ((expired_iff c now).trans h)

/-! ### The row of a sample -/

/-- The events that a row of R205 gives the host: the row's own, if any, where a consumer is registered (R207). -/
def rowEdges (consumer : Bool) (ch : Nat) (event : Option Bool) : List Edge :=
  match event with
  | none => []
  | some v => if consumer then [{ ch := ch, isActive := v }] else []

/-- The state after a sample of the channel `ch`, found holding `c`, under `{asserted, expired}` = `{a, e}`. -/
def State.afterSample (s : State) (ch : Nat) (c : Channel) (a e : Bool) (now : Nat) : State :=
  { s.withChannel ch (sampled s.params c a e now) with
    edges := s.edges ++ rowEdges s.dis.consumerEn ch (dbRow c.state a e).2.2 }

theorem afterSample_of_none (s : State) (ch : Nat) {c : Channel} {a e : Bool} (now : Nat)
    (hrow : (dbRow c.state a e).2.2 = none) :
    s.afterSample ch c a e now = s.withChannel ch (sampled s.params c a e now) := by
  rw [State.afterSample, hrow, rowEdges, List.append_nil]
  rfl

/-- An operation with no event performs its row where its change of the channel is the row's. -/
theorem changeChannel_afterSample {s : State} {ch now : Nat} {c : Channel} {a e : Bool} {f : Channel → Channel}
    (hinit : s.disInit = true) (hc : s.dis.channels[ch]? = some c) (hf : f c = sampled s.params c a e now)
    (hrow : (dbRow c.state a e).2.2 = none) :
    requireDis s (changeChannel ch f s) = .next (s.afterSample ch c a e now) := by
  rw [requireDis_of_init hinit, changeChannel_of_some hc, hf, afterSample_of_none s ch now hrow]
  rfl

theorem confirm_afterSample {s : State} {ch now : Nat} {c : Channel} {a e v : Bool} {st : DbState}
    (hinit : s.disInit = true) (hc : s.dis.channels[ch]? = some c) (hrow : dbRow c.state a e = (st, false, some v)) :
    requireDis s (confirm st v ch s) = .next (s.afterSample ch c a e now) := by
  rw [requireDis_of_init hinit, confirm_of_some hc, emitEdge_eq, State.afterSample, sampled, hrow]
  rfl

/-- The operation that a channel's state and condition select performs the row of R205. -/
theorem exec_decodeCond_eq {s : State} {ch : Nat} {c : Channel} (a e : Bool) (now : Nat) (hinit : s.disInit = true)
    (hc : s.dis.channels[ch]? = some c) :
    exec (decodeCond c.state a e ch now) s = .next (s.afterSample ch c a e now) := by
  obtain ⟨st, d⟩ := c
  cases st with
  | init | active | inactive => cases a <;> exact changeChannel_afterSample hinit hc rfl rfl
  | invalid5 | invalid6 | invalid7 => exact changeChannel_afterSample hinit hc rfl rfl
  | pendingActive =>
    cases a
    · exact changeChannel_afterSample hinit hc rfl rfl
    · cases e
      · exact changeChannel_afterSample hinit hc rfl rfl
      · exact confirm_afterSample hinit hc rfl
  | pendingInactive =>
    cases a
    · cases e
      · exact changeChannel_afterSample hinit hc rfl rfl
      · exact confirm_afterSample hinit hc rfl
    · exact changeChannel_afterSample hinit hc rfl rfl

/-- Before the sampler's first reset every operation of a channel is refused. -/
theorem exec_decodeCond_of_not_init {s : State} (hinit : s.disInit = false) (st : DbState) (a e : Bool) (ch now : Nat) :
    exec (decodeCond st a e ch now) s = .refused (.beforeReset .dis) := by
  cases st <;> cases a <;> cases e <;> exact requireDis_of_not hinit _

theorem sample_eq_afterSample {s : State} {ch : Nat} {c : Channel} (level : Bool) (now : Nat)
    (hinit : s.disInit = true) (hc : s.dis.channels[ch]? = some c) :
    sample ch level now s = .next (s.afterSample ch c (asserted s.params level) (expired c now) now) := by
  rw [sample_of hc, exec_decodeCond_eq _ _ _ hinit hc]

/-- Settles O40: the sample performs the row (`exec_decodeCond_eq`). -/
theorem channelTransitionTable : Obligations.ChannelTransitionTable := by
  unfold Obligations.ChannelTransitionTable
  intro s ch level now c a e hinit hc ha he
  refine ⟨sampled s.params c a e now, rfl, rfl, ?_⟩
  rw [sample_eq_afterSample level now hinit hc, asserted_eq ha, expired_eq he]
  rfl

/-! ### A step on a pass -/

/-- Settles O3: the sample decodes to the row of the channel's state and condition, which is well-formed
(`encode_decodeCond`); what is left of the pass is `retire`'s case. -/
theorem stepRunsDecodedSample : Obligations.StepRunsDecodedSample := by
  unfold Obligations.StepRunsDecodedSample
  intro s pins now rest c hi ht hc hw
  have hf := fetch_pass hi ht hc hw
  refine ⟨_, decodeSample_packSample .., hf, (encode_decodeCond ..).1, ?_⟩
  simp only [step, hf]
  cases he : exec (decodeCond c.state (asserted s.params (pinLevel pins s.passCh)) (expired c now) s.passCh now) s with
  | next u =>
    have hhost := exec_sameHost he
    simp only [andThen_next, retire, hhost.inputs, hi, hhost.passCh, hhost.params]
  | fault r => rfl
  | refused r => rfl

/-! ### The operations of a channel -/

/-- The fetch takes the operation of the row that the sample selects. -/
theorem fetch_of_samples {s : State} {ch now : Nat} {st : DbState} {a e : Bool} (h : Samples s ch st a e now) :
    fetch s = .run (decodeCond st a e ch now) := by
  obtain ⟨rfl, ht, pins, rest, d, hi, hc, ha, he, hw⟩ := h
  rw [fetch_pass hi ht hc hw, asserted_eq ha, expired_eq he]

theorem channel_of_samples {s : State} {ch now : Nat} {st : DbState} {a e : Bool} (h : Samples s ch st a e now) :
    ∃ d, s.dis.channels[ch]? = some { state := st, deadline := d } := by
  obtain ⟨-, -, -, -, d, -, hc, -⟩ := h
  exact ⟨d, hc⟩

section
variable {s : State} {ch now d : Nat} {st : DbState} {a e : Bool}

/-- A row with no event: its operation changes the channel alone. -/
theorem runs_quiet_row (hinit : s.disInit = true) (h : Samples s ch st a e now)
    (hc : s.dis.channels[ch]? = some { state := st, deadline := d }) (hrow : (dbRow st a e).2.2 = none) :
    fetch s = .run (decodeCond st a e ch now) ∧
      exec (decodeCond st a e ch now) s =
        .next (s.withChannel ch (sampled s.params { state := st, deadline := d } a e now)) :=
  ⟨fetch_of_samples h,
    (exec_decodeCond_eq a e now hinit hc).trans (congrArg Host.Outcome.next (afterSample_of_none s ch now hrow))⟩

/-- A row that neither moves, nor arms, nor emits: its operation changes nothing. -/
theorem runs_stay_row (hinit : s.disInit = true) (h : Samples s ch st a e now) (hrow : dbRow st a e = (st, false, none)) :
    fetch s = .run (decodeCond st a e ch now) ∧ exec (decodeCond st a e ch now) s = .next s := by
  obtain ⟨d, hc⟩ := channel_of_samples h
  obtain ⟨hf, he⟩ := runs_quiet_row hinit h hc (congrArg (·.2.2) hrow)
  have hsame : sampled s.params { state := st, deadline := d } a e now = { state := st, deadline := d } := by
    simp [sampled, hrow]
  rw [hsame, withChannel_self hc] at he
  exact ⟨hf, he⟩

/-- A row with an event: its operation moves the channel, and a consumer receives the event. -/
theorem runs_confirm_row {st' : DbState} {v : Bool} (hinit : s.disInit = true) (h : Samples s ch st a e now)
    (hc : s.dis.channels[ch]? = some { state := st, deadline := d }) (hrow : dbRow st a e = (st', false, some v)) :
    fetch s = .run (decodeCond st a e ch now) ∧
      exec (decodeCond st a e ch now) s = .next { s.withChannel ch { state := st', deadline := d } with
        edges := s.edges ++ (if s.dis.consumerEn then [{ ch := ch, isActive := v }] else []) } := by
  refine ⟨fetch_of_samples h, (exec_decodeCond_eq a e now hinit hc).trans ?_⟩
  rw [State.afterSample, sampled, hrow]
  rfl

end

/-- Settles O22: four rows that arm and emit nothing. -/
theorem leavingSampleArms : Obligations.LeavingSampleArms := by
  unfold Obligations.LeavingSampleArms
  intro s ch now a e st hinit h
  obtain ⟨d, hc⟩ := channel_of_samples h
  refine ⟨?_, ?_, ?_, ?_⟩ <;> (rintro rfl rfl; exact runs_quiet_row hinit h hc rfl)

/-- Settles O23: two rows that change nothing. -/
theorem confirmedLevelStays : Obligations.ConfirmedLevelStays := by
  unfold Obligations.ConfirmedLevelStays
  intro s ch now a e st hinit h
  constructor <;> (rintro rfl rfl; exact runs_stay_row hinit h rfl)

/-- Settles O24: two rows that change nothing before the deadline. -/
theorem pendingLevelWaits : Obligations.PendingLevelWaits := by
  unfold Obligations.PendingLevelWaits
  rintro s ch now a e st hinit h rfl
  constructor <;> (rintro rfl rfl; exact runs_stay_row hinit h rfl)

/-- Settles O25: two rows that keep the deadline and emit nothing. -/
theorem revertedLevelIsBounce : Obligations.RevertedLevelIsBounce := by
  unfold Obligations.RevertedLevelIsBounce
  intro s ch now a e st d hinit h hc
  constructor <;> (rintro rfl rfl; exact runs_quiet_row hinit h hc rfl)

/-- Settles O26: the two rows with an event. -/
theorem heldLevelIsConfirmed : Obligations.HeldLevelIsConfirmed := by
  unfold Obligations.HeldLevelIsConfirmed
  rintro s ch now a e st d hinit h hc rfl
  constructor <;> (rintro rfl rfl; exact runs_confirm_row hinit h hc rfl)

/-- Settles O27: the three codes have one row. -/
theorem invalidCodeIsRepaired : Obligations.InvalidCodeIsRepaired := by
  unfold Obligations.InvalidCodeIsRepaired
  intro s ch now a e st d hinit h hc hcode
  cases st with
  | invalid5 | invalid6 | invalid7 => exact runs_quiet_row hinit h hc rfl
  | init | pendingActive | active | pendingInactive | inactive => exact absurd hcode (by decide)

/-! ### Where edge events come from -/

theorem confirm_edges {s t : State} {ch : Nat} {st : DbState} {v : Bool} (h : confirm st v ch s = .next t)
    (hne : t.edges ≠ s.edges) :
    s.dis.consumerEn = true ∧ t.edges = s.edges ++ [{ ch := ch, isActive := v }] := by
  obtain ⟨c, -, rfl⟩ := confirm_eq_next h
  rw [emitEdge_edges] at hne ⊢
  split at hne
  · exact ⟨‹_›, if_pos ‹_›⟩
  · exact absurd rfl hne

/-- Settles O43, operation by operation: every other one leaves the list of events as it was. -/
theorem edgesOnlyFromConfirmations : Obligations.EdgesOnlyFromConfirmations := by
  unfold Obligations.EdgesOnlyFromConfirmations
  intro i s t h hne
  cases hi : ofFd i with
  | true => exact absurd (exec_sameDis hi h).edges hne
  | false =>
    cases i with
    | dbPaConfirm ch =>
      obtain ⟨hen, hedges⟩ := confirm_edges (requireDis_eq_next h).2 hne
      exact ⟨hen, ch, .inl ⟨rfl, hedges⟩⟩
    | dbPiConfirm ch =>
      obtain ⟨hen, hedges⟩ := confirm_edges (requireDis_eq_next h).2 hne
      exact ⟨hen, ch, .inr ⟨rfl, hedges⟩⟩
    | dbInitA _ _ _ | dbInitD _ _ _ | dbActLeave _ _ _ | dbInaLeave _ _ _ | dbPaBounce _ _ | dbPiBounce _ _
    | dbInvalid _ _ _ _ | dbPaWait _ | dbActStay _ _ | dbPiWait _ | dbInaStay _ _ =>
      obtain ⟨c, -, rfl⟩ := changeChannel_eq_next (requireDis_eq_next h).2
      exact absurd (setChannel_edges ..) hne
    | hostResetDis => cases h; exact absurd rfl hne
    | disSetConsumer _ | disRead _ =>
      obtain ⟨-, h⟩ := requireDis_eq_next h
      cases h; exact absurd rfl hne
    | _ => cases hi

end Sys2Proof.Machine
end

section
/-! The events of each channel alternate (42_debounce_sampler.md R206): a row with an event starts on the other side of the
last one, and every row without an event stays on its side. -/

namespace Sys2Proof.Machine

/-! ### The side of a channel -/

theorem onSide_true (st : DbState) : onSide st true ↔ st = .active ∨ st = .pendingInactive := Iff.rfl

theorem onSide_false (st : DbState) : onSide st false ↔ st = .inactive ∨ st = .pendingActive := Iff.rfl

/-- A row with no event keeps the channel on its side. -/
theorem onSide_dbRow {st : DbState} {a e v : Bool} (hrow : (dbRow st a e).2.2 = none) (hs : onSide st v) :
    onSide (dbRow st a e).1 v := by
  cases v with
  | true =>
    obtain rfl | rfl := (onSide_true st).1 hs
    · cases a
      · exact .inr rfl
      · exact .inl rfl
    · cases a
      · cases e
        · exact .inr rfl
        · cases hrow
      · exact .inl rfl
  | false =>
    obtain rfl | rfl := (onSide_false st).1 hs
    · cases a
      · exact .inl rfl
      · exact .inr rfl
    · cases a
      · exact .inl rfl
      · cases e
        · exact .inr rfl
        · cases hrow

/-- A row with the event `v` leaves a pending state, which is not on the side of `v`, for a state on the side of `v`. -/
theorem dbRow_event {st : DbState} {a e v : Bool} (hrow : (dbRow st a e).2.2 = some v) :
    onSide (dbRow st a e).1 v ∧ ∀ w, onSide st w → w ≠ v := by
  cases st with
  | pendingActive =>
    cases a
    · cases hrow
    · cases e <;> cases hrow
      exact ⟨.inl rfl, fun w hw => by rintro rfl; simp [onSide_true] at hw⟩
  | pendingInactive =>
    cases a
    · cases e <;> cases hrow
      exact ⟨.inl rfl, fun w hw => by rintro rfl; simp [onSide_false] at hw⟩
    · cases hrow
  | init | active | inactive => cases a <;> cases hrow
  | invalid5 | invalid6 | invalid7 => cases hrow

/-! ### A sample -/

/-- While a consumer is registered a sample adds the event of its row to the events of its own channel. -/
theorem edgesOf_afterSample {s : State} (ch k : Nat) (c : Channel) (a e : Bool) (now : Nat)
    (hen : s.dis.consumerEn = true) :
    edgesOf ch (s.afterSample k c a e now) =
      edgesOf ch s ++ (if k = ch then (dbRow c.state a e).2.2.toList else []) := by
  have happend : edgesOf ch (s.afterSample k c a e now) = edgesOf ch s ++
      ((rowEdges true k (dbRow c.state a e).2.2).filter (fun x => x.ch == ch)).map (·.isActive) := by
    simp [edgesOf, State.afterSample, hen]
  rw [happend]
  cases (dbRow c.state a e).2.2 with
  | none => simp [rowEdges]
  | some v => by_cases hk : k = ch <;> simp [rowEdges, hk]

theorem alternates_congr {ch : Nat} {s t : State} (h : Alternates ch s) (hc : t.dis.channels = s.dis.channels)
    (he : t.edges = s.edges) : Alternates ch t := by
  rwa [Alternates, edgesOf, hc, he]

/-- A sample, of this or of another channel, keeps the events alternating. -/
theorem alternates_afterSample {ch k : Nat} {s : State} {c : Channel} (a e : Bool) (now : Nat) (h : Alternates ch s)
    (hen : s.dis.consumerEn = true) (hc : s.dis.channels[k]? = some c) :
    Alternates ch (s.afterSample k c a e now) := by
  obtain ⟨hchain, hside⟩ := h
  rw [Alternates, edgesOf_afterSample ch k c a e now hen]
  by_cases hk : k = ch
  · subst hk
    have hnew : (s.afterSample k c a e now).dis.channels[k]? = some (sampled s.params c a e now) :=
      withChannel_channel hc _
    have hold : ∀ v, (edgesOf k s).getLast? = some v → onSide c.state v := by
      intro v hv
      obtain ⟨c', hc', hs⟩ := hside v hv
      rw [hc] at hc'
      cases hc'
      exact hs
    rw [if_pos rfl]
    cases hrow : (dbRow c.state a e).2.2 with
    | none =>
      rw [Option.toList_none, List.append_nil]
      exact ⟨hchain, fun v hv => ⟨_, hnew, onSide_dbRow hrow (hold v hv)⟩⟩
    | some w =>
      obtain ⟨hto, hfrom⟩ := dbRow_event hrow
      rw [Option.toList_some, List.isChain_append, List.getLast?_concat]
      refine ⟨⟨hchain, .singleton w, fun v hv x hx => ?_⟩, fun v hv => ?_⟩
      · cases hx
        exact hfrom v (hold v hv)
      · cases hv
        exact ⟨_, hnew, hto⟩
  · have hother : (s.afterSample k c a e now).dis.channels[ch]? = s.dis.channels[ch]? := List.getElem?_set_ne hk
    rw [if_neg hk, List.append_nil, hother]
    exact ⟨hchain, hside⟩

/-! ### A step -/

/-- A host operation other than the sampler's reset leaves the channels and the events as they were. -/
theorem exec_hostOp_channels {s t : State} {e : InEvent} {i : Instr} (he : hostOp e = some i) (hne : e ≠ .resetDis)
    (h : exec i s = .next t) : t.dis.channels = s.dis.channels ∧ t.edges = s.edges := by
  cases e <;> cases he
  case resetDis => exact absurd rfl hne
  case resetFd | setConsumerFd | readState =>
    obtain ⟨hdis, hedges, -⟩ := exec_sameDis rfl h
    exact ⟨congrArg DisRegs.channels hdis, hedges⟩
  case setConsumerDis | read =>
    obtain ⟨-, h⟩ := requireDis_eq_next h
    cases h
    exact ⟨rfl, rfl⟩

/-- A fetched operation of a byte is one of the frame decoder's. -/
theorem ofFd_of_fetch_rx {s : State} {b : Byte} {now : Nat} {rest : List InEvent} {i : Instr}
    (hi : s.inputs = .rx b now :: rest) (hf : fetch s = .run i) : ofFd i = true := by
  obtain ⟨-, -, ⟨-, rfl⟩ | ⟨-, hd⟩⟩ := fetch_run_rx hi hf
  · rfl
  · exact ofFd_of_decodeRow hd

/-- A fetched operation keeps the events alternating: a byte and a host operation touch neither the channels nor the
events, a sample performs its row. -/
theorem alternates_exec {ch : Nat} {s t : State} {i : Instr} (h : Alternates ch s) (hen : s.dis.consumerEn = true)
    (hreset : s.inputs.head? ≠ some .resetDis) (hf : fetch s = .run i) (he : exec i s = .next t) : Alternates ch t := by
  cases hi : s.inputs with
  | nil => simp [fetch, hi] at hf
  | cons ev rest =>
    cases hj : hostOp ev with
    | some j =>
      rw [fetch_hostOp hi hj] at hf
      cases hf
      have hne : ev ≠ .resetDis := fun hev => hreset (by rw [hi, hev]; rfl)
      obtain ⟨hc, hedges⟩ := exec_hostOp_channels hj hne he
      exact alternates_congr h hc hedges
    | none =>
      cases ev with
      | rx b now =>
        obtain ⟨hdis, hedges, -⟩ := exec_sameDis (ofFd_of_fetch_rx hi hf) he
        exact alternates_congr h (congrArg DisRegs.channels hdis) hedges
      | pass pins now =>
        obtain ⟨-, c, hc, rfl⟩ := fetch_run_pass hi hf
        cases hinit : s.disInit with
        | false =>
          rw [exec_decodeCond_of_not_init hinit] at he
          cases he
        | true =>
          rw [exec_decodeCond_eq _ _ _ hinit hc] at he
          cases he
          exact alternates_afterSample _ _ now h hen hc
      | _ => cases hj

/-- Settles O44: retiring an event touches neither the channels nor the events. -/
theorem edgesAlternate : Obligations.EdgesAlternate := by
  unfold Obligations.EdgesAlternate
  intro ch s t h hen hreset hstep
  obtain ⟨-, rfl⟩ | ⟨i, u, hf, he, rfl⟩ := step_eq_next hstep
  · exact h
  · exact alternates_congr (alternates_exec h hen hreset hf he) (congrArg DisRegs.channels (retire_dis i u))
      (retire_edges i u)

end Sys2Proof.Machine
end

section
/-! The steps of a pass are the whole `PASS` (42_debounce_sampler.md R190, 20_memory.md R71): each step is the sample of one
channel, and the samples left do the same whatever stands in the pass's own fields. -/

namespace Sys2Proof.Machine

/-- A step on a pass whose sample goes on: the sample, then the pass goes on with the next channel, or is over. -/
theorem step_of_sample {s u : State} {pins now : Nat} {rest : List InEvent} {c : Channel}
    (hi : s.inputs = .pass pins now :: rest) (ht : timeOk s.disNow now = true)
    (hc : s.dis.channels[s.passCh]? = some c) (hw : deadlineWithin s.params c now = true)
    (h : sample s.passCh (pinLevel pins s.passCh) now s = .next u) :
    step s = .next { u with
      disNow := some now
      passCh := if s.passCh + 1 < s.params.nCh then s.passCh + 1 else 0
      inputs := if s.passCh + 1 < s.params.nCh then .pass pins now :: rest else rest } := by
  rw [sample_of hc] at h
  have hhost := exec_sameHost h
  rw [step_of_run (fetch_pass hi ht hc hw) h, retire_pass _ (hhost.inputs.trans hi), hhost.passCh, hhost.params]

theorem sample_length_channels {ch now : Nat} {level : Bool} {s t : State} (h : sample ch level now s = .next t)
    (hn : s.dis.channels.length = s.params.nCh) : t.dis.channels.length = s.params.nCh := by
  obtain ⟨c, -, he⟩ := sample_eq_next h
  exact exec_length_channels he hn

theorem sample_params {ch now : Nat} {level : Bool} {s t : State} (h : sample ch level now s = .next t) :
    t.params = s.params := by
  obtain ⟨c, -, he⟩ := sample_eq_next h
  exact (exec_sameHost he).params

/-- The samples of a pass that go on change the sampler alone. -/
theorem passFrom_eq_withSampler {pins now n ch : Nat} {s t : State} (h : passFrom pins now n ch s = .next t) :
    t = s.withSampler t.dis t.edges :=
  Host.Outcome.next.inj (h.symm.trans (passFrom_of_sameDis h (.refl s) rfl))

/-- After the sampler's first reset the samples of channels that exist go on. -/
theorem passFrom_next (pins now n : Nat) {ch : Nat} {s : State} (hinit : s.disInit = true)
    (hlen : ch + n ≤ s.dis.channels.length) : ∃ t, passFrom pins now n ch s = .next t := by
  induction n generalizing ch s with
  | zero => exact ⟨s, rfl⟩
  | succ n ih =>
    have hc := List.getElem?_eq_getElem (show ch < s.dis.channels.length by omega)
    rw [passFrom, sample_eq_afterSample _ _ hinit hc, andThen_next]
    refine ih hinit ?_
    rw [State.afterSample, State.withChannel, List.length_set]
    omega

/-- The steps from the channel that a pass stands at are the samples from there on, where these go on. -/
theorem run_of_passFrom {pins now : Nat} {rest : List InEvent} {s t : State} (n : Nat)
    (hi : s.inputs = .pass pins now :: rest) (ht : timeOk s.disNow now = true)
    (hlen : s.dis.channels.length = s.params.nCh) (hn : s.passCh + (n + 1) = s.params.nCh)
    (hw : ∀ k c, s.passCh ≤ k → s.dis.channels[k]? = some c → deadlineWithin s.params c now = true)
    (h : passFrom pins now (n + 1) s.passCh s = .next t) :
    Host.Core.run Sys2Proof.core (n + 1) s = .next { t with inputs := rest, disNow := some now, passCh := 0 } := by
  induction n generalizing s t with
  | zero =>
    obtain ⟨u, hu, h⟩ := andThen_eq_next h
    cases h
    obtain ⟨c, hc, -⟩ := sample_eq_next hu
    have hstep := step_of_sample hi ht hc (hw _ c le_rfl hc) hu
    rw [if_neg (by omega), if_neg (by omega)] at hstep
    exact (run_one s).trans hstep
  | succ n ih =>
    obtain ⟨u, hu, h⟩ := andThen_eq_next h
    obtain ⟨c, hc, -⟩ := sample_eq_next hu
    have hstep := step_of_sample hi ht hc (hw _ c le_rfl hc) hu
    rw [if_pos (by omega), if_pos (by omega)] at hstep
    have hp := sample_params hu
    have hnCh : u.params.nCh = s.params.nCh := congrArg Params.nCh hp
    obtain ⟨hothers, -⟩ := sample_others hu
    rw [run_succ, hstep]
    refine (ih (s := { u with disNow := some now, passCh := s.passCh + 1, inputs := .pass pins now :: rest }) rfl
      (decide_eq_true le_rfl) ((sample_length_channels hu hlen).trans hnCh.symm) ?_ (fun k x hk hx => ?_)
      (passFrom_of_sameDis h ⟨rfl, rfl, rfl⟩ rfl)).trans ?_
    · simp only [hnCh]
      omega
    · have hk : s.passCh + 1 ≤ k := hk
      rw [hothers k (by omega)] at hx
      exact hp ▸ hw k x (by omega) hx
    · rw [passFrom_eq_withSampler h]
      rfl

/-- Settles O51: after the sampler's first reset every sample goes on (`passFrom_next`) and each step is one of them
(`run_of_passFrom`); before it both the first sample and the first step are refused. -/
theorem stepsArePass : Obligations.StepsArePass := by
  unfold Obligations.StepsArePass
  intro s pins now rest hi ht hw hpass hpos hlen
  obtain ⟨n, hn⟩ := Nat.exists_eq_add_one_of_ne_zero hpos.ne'
  have hc := List.getElem?_eq_getElem (hlen ▸ hpass ▸ hpos : s.passCh < s.dis.channels.length)
  have hwhole : pass pins now s = passFrom pins now (n + 1) s.passCh s := by rw [pass, hn, hpass]
  rw [hwhole, hn]
  cases hinit : s.disInit with
  | false =>
    have hrefused := exec_decodeCond_of_not_init hinit
    have hsamples : passFrom pins now (n + 1) s.passCh s = .refused (.beforeReset .dis) := by
      rw [passFrom, sample_of hc, hrefused, andThen_refused]
    have hstep : step s = .refused (.beforeReset .dis) := by
      simp only [step, fetch_pass hi ht hc (hw _ (List.mem_of_getElem? hc)), hrefused, andThen_refused]
    rw [run_succ, hstep, hsamples]
    rfl
  | true =>
    obtain ⟨t, h⟩ := passFrom_next pins now (n + 1) (ch := s.passCh) hinit (by omega)
    rw [h, run_of_passFrom n hi ht hlen (by omega) (fun k c _ hk => hw c (List.mem_of_getElem? hk)) h]
    rfl

end Sys2Proof.Machine
end

section
/-! Samples of one channel in a row (42_debounce_sampler.md R208): a channel asserted from `init` waits until the hold time
has passed; then it is confirmed once, or it bounces at the first deasserted sample. -/

namespace Sys2Proof.Machine

/-! ### Single samples -/

theorem asserted_assertedLevel (p : Params) : asserted p p.assertedLevel = true := asserted_eq (by simp)

theorem asserted_not_assertedLevel (p : Params) : asserted p (!p.assertedLevel) = false := asserted_eq (by simp)

section
variable {s : State} {ch now : Nat} {c : Channel} {level a e : Bool}

/-- A sample of a row with no event changes the channel alone. -/
theorem sample_quiet_row (hinit : s.disInit = true) (hc : s.dis.channels[ch]? = some c)
    (ha : asserted s.params level = a) (he : expired c now = e) (hrow : (dbRow c.state a e).2.2 = none) :
    sample ch level now s = .next (s.withChannel ch (sampled s.params c a e now)) := by
  subst ha he
  rw [sample_eq_afterSample level now hinit hc, afterSample_of_none s ch now hrow]

/-- A sample of a row that neither moves, nor arms, nor emits changes nothing. -/
theorem sample_stay_row (hinit : s.disInit = true) (hc : s.dis.channels[ch]? = some c)
    (ha : asserted s.params level = a) (he : expired c now = e) (hrow : dbRow c.state a e = (c.state, false, none)) :
    sample ch level now s = .next s := by
  have hsame : sampled s.params c a e now = c := by simp [sampled, hrow]
  rw [sample_quiet_row hinit hc ha he (congrArg (·.2.2) hrow), hsame, withChannel_self hc]

/-- A sample of a row with an event moves the channel, and a registered consumer receives the event. -/
theorem sample_confirm_row {st : DbState} {v : Bool} (hinit : s.disInit = true) (hen : s.dis.consumerEn = true)
    (hc : s.dis.channels[ch]? = some c) (ha : asserted s.params level = a) (he : expired c now = e)
    (hrow : dbRow c.state a e = (st, false, some v)) :
    sample ch level now s = .next { s.withChannel ch { c with state := st } with
      edges := s.edges ++ [{ ch := ch, isActive := v }] } := by
  subst ha he
  rw [sample_eq_afterSample level now hinit hc, State.afterSample, sampled, hrow, hen]
  rfl

end

/-- Samples each of which would change nothing change nothing one after the other. -/
theorem samplesOf_stay {ch : Nat} {l : List (Bool × Nat)} {s : State}
    (h : ∀ x ∈ l, sample ch x.1 x.2 s = .next s) : samplesOf ch l s = .next s := by
  induction l with
  | nil => rfl
  | cons x l ih =>
    rw [samplesOf, h x List.mem_cons_self, andThen_next, ih fun y hy => h y (List.mem_cons_of_mem x hy)]

/-! ### Asserted from `init` -/

/-- Asserted from `init` and then for less than the hold time: the channel waits in `pendingActive`. -/
theorem samplesOf_asserted_before_hold {s : State} {ch t0 : Nat} {c : Channel} {offsets : List Nat}
    (hinit : s.disInit = true) (hc : s.dis.channels[ch]? = some c) (hs : c.state = .init)
    (hoff : ∀ d ∈ offsets, d < s.params.holdTicks) :
    samplesOf ch ((s.params.assertedLevel, t0) :: offsets.map (fun d => (s.params.assertedLevel, t0 + d))) s =
      .next (s.withChannel ch { state := .pendingActive, deadline := t0 + s.params.holdTicks }) := by
  have harm : sampled s.params c true (expired c t0) t0 =
      { state := .pendingActive, deadline := t0 + s.params.holdTicks } := by simp [sampled, hs, dbRow]
  rw [samplesOf, sample_quiet_row hinit hc (asserted_assertedLevel s.params) rfl (by rw [hs]; rfl), harm, andThen_next]
  refine samplesOf_stay fun x hx => ?_
  obtain ⟨d, hd, rfl⟩ := List.mem_map.1 hx
  have hlt := hoff d hd
  exact sample_stay_row (e := false) hinit (withChannel_channel hc _) (asserted_assertedLevel s.params)
    (expired_eq (by simp [hlt])) rfl

/-- From `pendingActive`, asserted at or after the deadline and then at any time: the channel is confirmed once. -/
theorem samplesOf_asserted_after_hold {s : State} {ch t0 d : Nat} {after : List Nat} (hinit : s.disInit = true)
    (hen : s.dis.consumerEn = true)
    (hc : s.dis.channels[ch]? = some { state := .pendingActive, deadline := t0 + s.params.holdTicks })
    (hd : s.params.holdTicks ≤ d) :
    samplesOf ch ((d :: after).map (fun d => (s.params.assertedLevel, t0 + d))) s =
      .next { s.withChannel ch { state := .active, deadline := t0 + s.params.holdTicks } with
        edges := s.edges ++ [{ ch := ch, isActive := true }] } := by
  rw [List.map_cons, samplesOf, sample_confirm_row (st := .active) (v := true) hinit hen hc
    (asserted_assertedLevel s.params) (expired_eq (e := true) (by simp [hd])) rfl, andThen_next]
  refine samplesOf_stay fun x hx => ?_
  obtain ⟨d', -, rfl⟩ := List.mem_map.1 hx
  exact sample_stay_row hinit (withChannel_channel hc _) (asserted_assertedLevel s.params) rfl rfl

/-- From `pendingActive`, deasserted at any times: the channel bounces and stays `inactive`. -/
theorem samplesOf_deasserted {s : State} {ch deadline x : Nat} {later : List Nat} (hinit : s.disInit = true)
    (hc : s.dis.channels[ch]? = some { state := .pendingActive, deadline := deadline }) :
    samplesOf ch ((x :: later).map (fun x => (!s.params.assertedLevel, x))) s =
      .next (s.withChannel ch { state := .inactive, deadline := deadline }) := by
  have hlow := asserted_not_assertedLevel s.params
  rw [List.map_cons, samplesOf, sample_quiet_row hinit hc hlow rfl rfl, andThen_next]
  refine samplesOf_stay fun y hy => ?_
  obtain ⟨z, -, rfl⟩ := List.mem_map.1 hy
  exact sample_stay_row hinit (withChannel_channel hc _) hlow rfl rfl

/-- Settles O55, by the first sample at the hold time or later, if there is one. -/
theorem heldAssertedEmitsOnce : Obligations.HeldAssertedEmitsOnce := by
  unfold Obligations.HeldAssertedEmitsOnce
  intro s ch c t0 offsets hinit hen hc hs
  cases hfind : offsets.find? (fun d => decide (s.params.holdTicks ≤ d)) with
  | none =>
    have hbefore : ∀ d ∈ offsets, d < s.params.holdTicks := by simpa using hfind
    refine ⟨_, samplesOf_asserted_before_hold hinit hc hs hbefore, rfl, fun ⟨d, hd, hle⟩ => ?_, fun _ => ⟨rfl, ?_⟩⟩
    · exact absurd (hbefore d hd) (Nat.not_lt.2 hle)
    · rw [withChannel_channel hc]
      rfl
  | some d =>
    obtain ⟨hd, before, after, rfl, hbefore⟩ := List.find?_eq_some_iff_append.1 hfind
    have hd : s.params.holdTicks ≤ d := of_decide_eq_true hd
    have hbefore : ∀ d ∈ before, d < s.params.holdTicks := by simpa using hbefore
    have hpending := withChannel_channel hc { state := .pendingActive, deadline := t0 + s.params.holdTicks }
    refine ⟨_, Eq.trans ?_ (samplesOf_asserted_after_hold (s := s.withChannel ch _) (after := after) hinit hen
      hpending hd), rfl, fun _ => ⟨rfl, ?_⟩, fun hall => ?_⟩
    · rw [List.map_append, ← List.cons_append, samplesOf_append, samplesOf_asserted_before_hold hinit hc hs hbefore,
        andThen_next]
      rfl
    · rw [withChannel_channel hpending]
      rfl
    · exact absurd (hall d (by simp)) (Nat.not_lt.2 hd)

/-- Settles O56: the first deasserted sample puts the channel into `inactive`, where the others leave it. -/
theorem shortBounceEmitsNothing : Obligations.ShortBounceEmitsNothing := by
  unfold Obligations.ShortBounceEmitsNothing
  intro s ch c t0 offsets later hinit hc hs hoff hlater
  obtain ⟨x, later, rfl⟩ := List.exists_cons_of_ne_nil hlater
  have hpending := withChannel_channel hc { state := .pendingActive, deadline := t0 + s.params.holdTicks }
  refine ⟨_, Eq.trans ?_ (samplesOf_deasserted (s := s.withChannel ch _) (x := x) (later := later) hinit
    hpending), rfl, rfl, ?_⟩
  · rw [← List.cons_append, samplesOf_append, samplesOf_asserted_before_hold hinit hc hs hoff, andThen_next]
    rfl
  · rw [withChannel_channel hpending]
    rfl

end Sys2Proof.Machine
end

section
/-! The host operations (43_host_operations.md R220 to R226): the two resets, the consumer bits, the two reads, and the
refusal of everything else before a block's first reset. -/

namespace Sys2Proof.Machine

/-! ### Before the first reset (R226) -/

/-- Every operation of the frame decoder but its reset is one that needs the block's reset first. -/
theorem exec_eq_requireFd {i : Instr} (hi : ofFd i = true) (hr : i ≠ .hostResetFd) (s : State) :
    ∃ o, exec i s = requireFd s o := by
  cases i with
  | hostResetFd => exact absurd rfl hr
  | fdWdog _ _ | fdIdleSop _ | fdIdleSkip _ | fdSopType | fdSopBadtype _ | fdLenHi _ | fdLenLo _ | fdHdrByte _
  | fdBodyByte _ | fdBodyOvf _ | fdDiscardDrop _ | fdDiscardSop _ | fdCsumOk _ | fdCsumBad _ | fdEopOk | fdEopBad _
  | fdSetConsumer _ | fdReadState => exact ⟨_, rfl⟩
  | _ => exact absurd hi Bool.false_ne_true

/-- Every operation of the sampler but its reset is one that needs the block's reset first. -/
theorem exec_eq_requireDis {i : Instr} (hi : ofFd i = false) (hr : i ≠ .hostResetDis) (s : State) :
    ∃ o, exec i s = requireDis s o := by
  cases i with
  | hostResetDis => exact absurd rfl hr
  | dbInitA _ _ _ | dbInitD _ _ _ | dbPaBounce _ _ | dbPaConfirm _ | dbPaWait _ | dbActStay _ _ | dbActLeave _ _ _
  | dbPiBounce _ _ | dbPiConfirm _ | dbPiWait _ | dbInaStay _ _ | dbInaLeave _ _ _ | dbInvalid _ _ _ _
  | disSetConsumer _ | disRead _ => exact ⟨_, rfl⟩
  | _ => exact absurd hi.symm Bool.false_ne_true

/-- Settles O33: each operation is guarded by its block's reset bit (`exec_eq_requireFd`, `exec_eq_requireDis`), and the
guard refuses where the bit is clear. -/
theorem refusedBeforeReset : Obligations.RefusedBeforeReset := by
  unfold Obligations.RefusedBeforeReset
  intro i s
  constructor
  · intro hinit hi hr
    obtain ⟨o, ho⟩ := exec_eq_requireFd hi hr s
    rw [ho, requireFd_of_not hinit]
  · intro hinit hi hr
    obtain ⟨o, ho⟩ := exec_eq_requireDis hi hr s
    rw [ho, requireDis_of_not hinit]

/-! ### The resets (R220, R221) -/

/-- Settles O28: the registers after the reset are `FdRegs.reset`. -/
theorem resetFrameDecoder : Obligations.ResetFrameDecoder := by
  unfold Obligations.ResetFrameDecoder
  intro s
  exact ⟨_, rfl, rfl, rfl, rfl, rfl, rfl, rfl, rfl, rfl, rfl⟩

/-- Settles O29: the registers after the reset are `DisRegs.reset`, whose channels are copies of `Channel.reset`. -/
theorem resetSampler : Obligations.ResetSampler := by
  unfold Obligations.ResetSampler
  intro s
  refine ⟨_, rfl, List.length_replicate, fun c hc => ?_, rfl, rfl⟩
  rw [List.eq_of_mem_replicate hc]
  exact ⟨rfl, rfl⟩

/-! ### The consumer bits (R222, R223) -/

/-- Settles O30: after the reset each operation is the write of its bit. -/
theorem setConsumers : Obligations.SetConsumers := by
  unfold Obligations.SetConsumers
  intro s present
  exact ⟨fun hinit => requireFd_of_init hinit _, fun hinit => requireDis_of_init hinit _⟩

/-! ### The reads (R224, R225) -/

/-- After the reset a snapshot read returns its result. -/
theorem exec_disRead {s : State} (hinit : s.disInit = true) (ch : Nat) :
    exec (.disRead ch) s = .next (s.giveResult (disReadResult s ch)) := requireDis_of_init hinit _

/-- An index that is no channel reads as an error. -/
theorem disReadResult_of_ge {s : State} {ch : Nat} (h : s.params.nCh ≤ ch) :
    disReadResult s ch = .channel true false := if_pos h

/-- The index of a channel reads as the channel's level. -/
theorem disReadResult_of_channel {s : State} {ch : Nat} {c : Channel} (hlt : ch < s.params.nCh)
    (hc : s.dis.channels[ch]? = some c) : disReadResult s ch = .channel false (readActive s.params c.state) := by
  rw [disReadResult, if_neg (Nat.not_le.2 hlt), hc, Option.map_some, Option.getD_some]

/-- The states that read as active (R209). -/
theorem readActive_iff (p : Params) (st : DbState) :
    readActive p st = true ↔ st = .active ∨ (st = .pendingInactive ∧ p.readPiAsActive = true) := by
  cases st <;> simp [readActive]

/-- Settles O31: the result is `disReadResult`, and its level is that of R209 (`readActive_iff`). -/
theorem snapshotRead : Obligations.SnapshotRead := by
  unfold Obligations.SnapshotRead
  intro s ch hinit
  constructor
  · intro hge
    rw [exec_disRead hinit, disReadResult_of_ge hge]
    rfl
  · intro c hlt hc
    refine ⟨readActive s.params c.state, ?_, readActive_iff s.params c.state⟩
    rw [exec_disRead hinit, disReadResult_of_channel hlt hc]
    rfl

/-- Settles O32: the result is `FdState.code` of the state, compared with R108 state by state. -/
theorem readDecoderState : Obligations.ReadDecoderState := by
  unfold Obligations.ReadDecoderState
  intro s hinit
  refine ⟨s.fd.state.code, requireFd_of_init hinit _, ?_⟩
  cases s.fd.state <;> rfl

end Sys2Proof.Machine
end

section
/-! The rejections (60_exceptions.md R240, R246): each diagnostic comes from the operation of its cause, and what changes
with it. -/

namespace Sys2Proof.Machine

/-- The operation that raises a cause. -/
inductive RaisedBy : Cause → Instr → Prop where
  | badType (b : Byte) : RaisedBy .badType (.fdSopBadtype b)
  | lenTooSmall (b : Byte) : RaisedBy .lenTooSmall (.fdLenLo b)
  | bodyOverflow (b : Byte) : RaisedBy .bodyOverflow (.fdBodyOvf b)
  | csumMismatch (b : Byte) : RaisedBy .csumMismatch (.fdCsumBad b)
  | badEop (b : Byte) : RaisedBy .badEop (.fdEopBad b)
  | watchdog (st : FdState) (b : Byte) : RaisedBy .watchdog (.fdWdog st b)

/-- A rejection for the cause `c`: the operation is the one of the cause, and it is the model's `reject`, after the length
and checksum registers have taken the byte where the byte is the one that completes the length (R137). -/
structure Rejection (c : Cause) (i : Instr) (s t : State) : Prop where
  raisedBy : RaisedBy c i
  rejected : ∃ len csum, t = reject c (s.setFd { s.fd with len := len, csum := csum }) ∧
    (c ≠ .lenTooSmall → len = s.fd.len ∧ csum = s.fd.csum)

theorem fdOut_ne_append {s t : State} (h : t.fdOut = s.fdOut) (e : FdEvent) : t.fdOut ≠ s.fdOut ++ [e] := by
  simp [h]

/-- A rejection emits one cause only, its own. -/
theorem reject_cause {c c' : Cause} {s : State} (h : (reject c' s).fdOut = s.fdOut ++ [.diag c]) : c' = c := by
  simpa using h

theorem rejection_of_reject {c c' : Cause} {i : Instr} {s : State} (hr : RaisedBy c' i)
    (h : (reject c' s).fdOut = s.fdOut ++ [.diag c]) : Rejection c i s (reject c' s) := by
  obtain rfl := reject_cause h
  exact ⟨hr, s.fd.len, s.fd.csum, rfl, fun _ => ⟨rfl, rfl⟩⟩

/-- An operation that emits a diagnostic is the rejection for its cause. -/
theorem exec_rejection {c : Cause} {i : Instr} {s t : State} (h : exec i s = .next t)
    (ho : t.fdOut = s.fdOut ++ [.diag c]) : Rejection c i s t := by
  cases hi : ofFd i with
  | false => exact absurd ho (fdOut_ne_append (exec_sameFd hi h).fdOut _)
  | true =>
    cases i with
    | hostResetFd => cases h; exact absurd ho (fdOut_ne_append rfl _)
    | fdWdog _ _ | fdSopBadtype _ | fdBodyOvf _ | fdCsumBad _ | fdEopBad _ =>
      obtain ⟨-, h⟩ := requireFd_eq_next h
      cases h; exact rejection_of_reject (by constructor) ho
    | fdLenLo b =>
      obtain ⟨-, h⟩ := requireFd_eq_next h
      split at h <;> cases h
      · obtain rfl := reject_cause ho
        exact ⟨.lenTooSmall b, _, _, rfl, absurd rfl⟩
      · exact absurd ho (fdOut_ne_append rfl _)
    | fdIdleSop _ | fdDiscardSop _ | fdIdleSkip _ | fdDiscardDrop _ | fdSopType | fdLenHi _ | fdCsumOk _
    | fdSetConsumer _ | fdReadState =>
      obtain ⟨-, h⟩ := requireFd_eq_next h
      cases h; exact absurd ho (fdOut_ne_append rfl _)
    | fdHdrByte b =>
      obtain ⟨-, h⟩ := requireFd_eq_next h
      obtain ⟨u, hu, h⟩ := andThen_eq_next h
      obtain ⟨-, rfl⟩ := memWrite_next hu
      dsimp only at h
      split at h <;> cases h <;> exact absurd ho (fdOut_ne_append rfl _)
    | fdBodyByte b =>
      obtain ⟨-, h⟩ := requireFd_eq_next h
      obtain ⟨u, hu, h⟩ := andThen_eq_next h
      obtain ⟨-, rfl⟩ := memWrite_next hu
      cases h; exact absurd ho (fdOut_ne_append rfl _)
    | fdEopOk =>
      obtain ⟨-, h⟩ := requireFd_eq_next h
      split at h <;> cases h
      rw [setFd_fdOut, deliver_fdOut] at ho
      split at ho <;> simp at ho
    | _ => cases hi

/-- Settles O41: a diagnostic is a rejection (`exec_rejection`), and the table is read off cause by cause. -/
theorem rejectionTable : Obligations.RejectionTable := by
  unfold Obligations.RejectionTable
  intro i s t c h ho
  obtain ⟨hraised, len, csum, rfl, hkeep⟩ := exec_rejection h ho
  refine ⟨?_, ?_, rfl, fun hcode => hkeep ?_⟩
  · cases hraised with
    | badType b | lenTooSmall b | bodyOverflow b | csumMismatch b | badEop b => exact ⟨rfl, b, rfl⟩
    | watchdog st b => exact ⟨rfl, st, b, rfl⟩
  · cases c <;> rfl
  · rintro rfl
    exact hcode rfl

end Sys2Proof.Machine
end

section
/-! A host operation and the empty input as steps (43_host_operations.md R220 to R225, 60_exceptions.md R262). -/

namespace Sys2Proof.Machine

/-- The step of a host operation: the operation, then the event is used up. -/
theorem step_of_hostOp {s : State} {e : InEvent} {i : Instr} {rest : List InEvent} (hi : s.inputs = e :: rest)
    (he : hostOp e = some i) : step s = andThen (exec i s) (fun t => .next { t with inputs := rest }) := by
  simp only [step, fetch_hostOp hi he]
  cases hexec : exec i s with
  | next t => exact congrArg Host.Outcome.next (retire_hostOp i ((exec_sameHost hexec).inputs.trans hi) he)
  | fault r => rfl
  | refused r => rfl

theorem step_of_no_input {s : State} (h : s.inputs = []) : step s = .next s := by
  simp only [step, fetch, h]

/-- Settles O4: `fetch_hostOp` and `step_of_hostOp` for an event, `step_of_no_input` for none. -/
theorem stepRunsHostOperation : Obligations.StepRunsHostOperation := by
  unfold Obligations.StepRunsHostOperation
  intro s
  exact ⟨fun e i rest hi he => ⟨fetch_hostOp hi he, step_of_hostOp hi he⟩, step_of_no_input⟩

end Sys2Proof.Machine
end

section
/-! The refusals of a time (00_scope.md R14, 70_reset_and_hazards.md R290, 93_implementation_defined.md U7): the fetch raises
them, no operation does, and the two tests of the fetch are the conditions of R14. -/

namespace Sys2Proof.Machine

/-! ### What an operation refuses (R226) -/

theorem changeChannel_ne_refused (ch : Nat) (f : Channel → Channel) (s : State) (r : Refusal) :
    changeChannel ch f s ≠ .refused r := by
  unfold changeChannel
  split <;> nofun

theorem memWrite_ne_refused (sp : Space) (addr : Nat) (b : Byte) (s : State) (r : Refusal) :
    memWrite sp addr b s ≠ .refused r := by
  unfold memWrite
  split <;> nofun

theorem andThen_ne_refused {o : Outcome} {k : State → Outcome} {r : Refusal} (ho : o ≠ .refused r)
    (hk : ∀ t, k t ≠ .refused r) : andThen o k ≠ .refused r := by
  cases o with
  | next t => exact hk t
  | fault f => nofun
  | refused r' => exact ho

theorem requireFd_eq_refused {s : State} {o : Outcome} {r : Refusal} (h : requireFd s o = .refused r)
    (ho : o ≠ .refused r) : r = .beforeReset .fd := by
  unfold requireFd at h
  split at h
  · exact absurd h ho
  · cases h; rfl

theorem requireDis_eq_refused {s : State} {o : Outcome} {r : Refusal} (h : requireDis s o = .refused r)
    (ho : o ≠ .refused r) : r = .beforeReset .dis := by
  unfold requireDis at h
  split at h
  · exact absurd h ho
  · cases h; rfl

/-- The only refusal of an operation is the one of a block that has not been reset. -/
theorem exec_eq_refused {i : Instr} {s : State} {r : Refusal} (h : exec i s = .refused r) :
    ∃ b, r = .beforeReset b := by
  cases i with
  | hostResetFd | hostResetDis => cases h
  | fdWdog _ _ | fdIdleSop _ | fdIdleSkip _ | fdSopType | fdSopBadtype _ | fdLenHi _ | fdLenLo _ | fdBodyOvf _
  | fdDiscardDrop _ | fdDiscardSop _ | fdCsumOk _ | fdCsumBad _ | fdEopBad _ | fdSetConsumer _ | fdReadState =>
    exact ⟨.fd, requireFd_eq_refused h nofun⟩
  | fdHdrByte b =>
    refine ⟨.fd, requireFd_eq_refused h (andThen_ne_refused (memWrite_ne_refused _ _ _ _ _) fun t => ?_)⟩
    split <;> nofun
  | fdBodyByte b =>
    exact ⟨.fd, requireFd_eq_refused h (andThen_ne_refused (memWrite_ne_refused _ _ _ _ _) fun _ => nofun)⟩
  | fdEopOk =>
    refine ⟨.fd, requireFd_eq_refused h ?_⟩
    split <;> nofun
  | dbInitA _ _ _ | dbInitD _ _ _ | dbPaBounce _ _ | dbPaWait _ | dbActStay _ _ | dbActLeave _ _ _ | dbPiBounce _ _
  | dbPiWait _ | dbInaStay _ _ | dbInaLeave _ _ _ | dbInvalid _ _ _ _ =>
    exact ⟨.dis, requireDis_eq_refused h (changeChannel_ne_refused _ _ _ _)⟩
  | dbPaConfirm _ | dbPiConfirm _ =>
    exact ⟨.dis, requireDis_eq_refused h (andThen_ne_refused (changeChannel_ne_refused _ _ _ _) fun _ => nofun)⟩
  | disSetConsumer _ | disRead _ => exact ⟨.dis, requireDis_eq_refused h nofun⟩

/-- Every refusal of a step but the one of a block that has not been reset is the fetch's. -/
theorem step_eq_refused_iff {s : State} {r : Refusal} (hr : ∀ b, r ≠ .beforeReset b) :
    step s = .refused r ↔ fetch s = .refuse r := by
  unfold step
  cases fetch s with
  | idle | fault f => exact ⟨nofun, nofun⟩
  | refuse r' => simp
  | run i =>
    have hexec : exec i s ≠ .refused r := fun h => by
      obtain ⟨b, hb⟩ := exec_eq_refused h
      exact hr b hb
    exact ⟨fun h => absurd h (andThen_ne_refused hexec fun _ => nofun), nofun⟩

theorem step_eq_timeGoesBack_iff (s : State) (b : Block) :
    step s = .refused (.timeGoesBack b) ↔ fetch s = .refuse (.timeGoesBack b) :=
  step_eq_refused_iff fun _ => nofun

theorem step_eq_timeTooFar_iff (s : State) (b : Block) :
    step s = .refused (.timeTooFar b) ↔ fetch s = .refuse (.timeTooFar b) :=
  step_eq_refused_iff fun _ => nofun

/-! ### The two tests of a time -/

theorem ofDecoded_eq_refuse {d : Decoded} {r : Refusal} (h : Fetch.ofDecoded d = .refuse r) : r = .noRow := by
  cases d with
  | instr i => cases h
  | reject _ => cases h; rfl

/-- The fetch of a timed event of the block `b`: `inOrder` says that the time does not go back, `near` that it can be
compared, and `d` is what the decoder answers (log 12). -/
def fetchTimed (b : Block) (inOrder near : Bool) (d : Decoded) : Fetch :=
  if inOrder then if near then Fetch.ofDecoded d else .refuse (.timeTooFar b) else .refuse (.timeGoesBack b)

theorem fetch_rx_eq_fetchTimed {s : State} {b : Byte} {now : Nat} {rest : List InEvent} (hi : s.inputs = .rx b now :: rest) :
    fetch s = fetchTimed .fd (timeOk s.fdNow now) (sessionWithin s.fd now) (decode (.rx (rxSelector s b now) now)) := by
  simp only [fetch, hi, fetchTimed]

theorem fetch_pass_eq_fetchTimed {s : State} {pins now : Nat} {rest : List InEvent} {c : Channel}
    (hi : s.inputs = .pass pins now :: rest) (hc : s.dis.channels[s.passCh]? = some c) :
    fetch s = fetchTimed .dis (timeOk s.disNow now) (deadlineWithin s.params c now)
      (decode (.sample (sampleSelector s.params c (pinLevel pins s.passCh) now) s.passCh now)) := by
  simp only [fetch, hi, hc, fetchTimed]

theorem fetchTimed_eq_timeGoesBack_iff (b : Block) (inOrder near : Bool) (d : Decoded) :
    fetchTimed b inOrder near d = .refuse (.timeGoesBack b) ↔ inOrder = false := by
  cases inOrder with
  | false => exact iff_of_true rfl rfl
  | true =>
    refine iff_of_false (fun h => ?_) nofun
    cases near with
    | false => cases h
    | true => cases ofDecoded_eq_refuse h

theorem fetchTimed_eq_timeTooFar_iff (b : Block) (inOrder near : Bool) (d : Decoded) :
    fetchTimed b inOrder near d = .refuse (.timeTooFar b) ↔ inOrder = true ∧ near = false := by
  cases inOrder with
  | false => exact iff_of_false nofun nofun
  | true =>
    cases near with
    | false => exact iff_of_true rfl ⟨rfl, rfl⟩
    | true => exact iff_of_false (fun h => nomatch ofDecoded_eq_refuse h) nofun

/-! ### The tests fail exactly there (R14) -/

theorem timeOk_eq_false_iff (last : Option Nat) (now : Nat) :
    timeOk last now = false ↔ ∃ l, last = some l ∧ now < l := by
  rw [Bool.eq_false_iff, Ne, timeOk_iff]
  push Not
  rfl

theorem sessionWithin_eq_false_iff (r : FdRegs) (now : Nat) :
    sessionWithin r now = false ↔ r.state ≠ .idle ∧ r.tStart + 2147483648 ≤ now := by
  rw [Bool.eq_false_iff, Ne, sessionWithin_iff, Classical.not_imp, Nat.not_lt]

theorem deadlineWithin_eq_false_iff (p : Params) (c : Channel) (now : Nat) :
    deadlineWithin p c now = false ↔
      (c.state = .pendingActive ∨ c.state = .pendingInactive) ∧ c.deadline - p.holdTicks + 2147483648 ≤ now := by
  rw [Bool.eq_false_iff, Ne, deadlineWithin_iff, Classical.not_imp, Nat.not_lt]

/-- Settles O34: the step refuses a time where the fetch does (`step_eq_refused_iff`), and the fetch of a byte, or of a
pass at a channel, does so by the two tests of `fetchTimed`. -/
theorem decreasingTimeRefused : Obligations.DecreasingTimeRefused := by
  unfold Obligations.DecreasingTimeRefused
  intro s now rest
  refine ⟨fun b hi => ?_, fun pins c hi hc => ?_⟩
  · rw [step_eq_timeGoesBack_iff, step_eq_timeTooFar_iff, fetch_rx_eq_fetchTimed hi, fetchTimed_eq_timeGoesBack_iff,
      fetchTimed_eq_timeTooFar_iff, timeOk_eq_false_iff, timeOk_iff, sessionWithin_eq_false_iff]
    exact ⟨Iff.rfl, Iff.rfl⟩
  · rw [step_eq_timeGoesBack_iff, step_eq_timeTooFar_iff, fetch_pass_eq_fetchTimed hi hc, fetchTimed_eq_timeGoesBack_iff,
      fetchTimed_eq_timeTooFar_iff, timeOk_eq_false_iff, timeOk_iff, deadlineWithin_eq_false_iff]
    exact ⟨Iff.rfl, Iff.rfl⟩

end Sys2Proof.Machine
end

section
/-! The placing of a table word (log 2): the byte that `placeRx` puts at the head of the input arrives in time, or late by the
watchdog's bit, and finds the guards of its selector; the sample that `placeSample` puts there finds its channel in the state
and under the condition of its selector. Both are fetched, and both go on. -/

namespace Sys2Proof.Machine

/-! ### A byte that a selector selects goes on -/

/-- A selected operation goes on where the counter of the header and the length of the body are ones their buffers have. -/
theorem exec_next_of_selects {s : State} {b : Byte} {now : Nat} {i : Instr} (hinit : s.fdInit = true)
    (hcnt : s.fd.state = .readHeader → s.fd.cnt.toNat < s.params.hdrSize) (hlen : s.fd.bodyLen.toNat ≤ s.params.bodyCap)
    (h : Selects s.params s.fd b now i) : ∃ t, exec i s = .next t := by
  cases h with
  | hdrByte hs => exact ⟨_, exec_fdHdrByte b hinit (hcnt hs)⟩
  | bodyByte hs hc => exact ⟨_, exec_fdBodyByte b hinit hc⟩
  | eopOk => exact ⟨_, exec_fdEopOk hinit hlen⟩
  | idleSkip | idleSop | sopType | sopBadtype | lenHi | lenLo | bodyOvf | discardDrop | discardSop | csumOk | csumBad
  | eopBad => exact ⟨_, requireFd_of_init hinit _⟩

/-! ### A placed byte -/

/-- The time that `placeRx` gives its byte: the block's last one, or the first at which the watchdog fires. -/
def placedTime (sel : BitVec 16) (s : State) : Nat :=
  if selWdog sel then s.fdNow.getD 0 + Config.wdogTicks + 1 else s.fdNow.getD 0

theorem placedTime_of_wdog {sel : BitVec 16} (s : State) (h : selWdog sel = true) :
    placedTime sel s = s.fdNow.getD 0 + 501 := if_pos h

theorem placedTime_of_not_wdog {sel : BitVec 16} (s : State) (h : selWdog sel = false) :
    placedTime sel s = s.fdNow.getD 0 := by rw [placedTime, h]; rfl

@[simp] theorem placeRx_tStart (sel : BitVec 16) (s : State) : (placeRx sel s).fd.tStart = s.fdNow.getD 0 := rfl
@[simp] theorem placeRx_bodyLen (sel : BitVec 16) (s : State) : (placeRx sel s).fd.bodyLen = s.fd.bodyLen := rfl

@[simp] theorem placeRx_hdrSize (sel : BitVec 16) (s : State) : (placeRx sel s).params.hdrSize = s.params.hdrSize := by
  simp only [placeRx]; split <;> rfl

@[simp] theorem placeRx_bodyCap (sel : BitVec 16) (s : State) : (placeRx sel s).params.bodyCap = s.params.bodyCap := by
  simp only [placeRx]; split <;> rfl

theorem placeRx_cnt_readLength {sel : BitVec 16} (s : State) (hs : selState sel = .readLength) :
    (placeRx sel s).fd.cnt = (selGuard sel).setWidth 16 := by simp [placeRx, hs]

theorem placeRx_cnt_readBody {sel : BitVec 16} (s : State) (hs : selState sel = .readBody) :
    (placeRx sel s).fd.cnt = if selGuard sel = 0 then 0 else BitVec.ofNat 16 s.params.bodyCap := by simp [placeRx, hs]

theorem placeRx_cnt_readHeader {sel : BitVec 16} (s : State) (hs : selState sel = .readHeader) :
    (placeRx sel s).fd.cnt = s.fd.cnt := by simp [placeRx, hs]

theorem placeRx_csum {sel : BitVec 16} (s : State) (hs : selState sel = .checksum) :
    (placeRx sel s).fd.csum = if selGuard sel = 0 then selByte sel else ~~~selByte sel := by simp [placeRx, hs]

theorem placeRx_discardResync {sel : BitVec 16} (s : State) (hs : selState sel = .discard) (hb : selByte sel = Config.sop) :
    (placeRx sel s).params.discardResync = decide (selGuard sel = 0) := by simp [placeRx, hs, hb]

theorem receives_placeRx (sel : BitVec 16) (s : State) :
    Receives (placeRx sel s) (selByte sel) (placedTime sel s) s.inputs := by
  obtain ⟨hle, hlt⟩ :
      s.fdNow.getD 0 ≤ placedTime sel s ∧ placedTime sel s < s.fdNow.getD 0 + 2147483648 := by
    cases hw : selWdog sel with
    | false => rw [placedTime_of_not_wdog s hw]; omega
    | true => rw [placedTime_of_wdog s hw]; omega
  refine ⟨rfl, (timeOk_iff _ _).2 fun l hl => ?_, (sessionWithin_iff _ _).2 fun _ => hlt⟩
  rwa [show s.fdNow = some l from hl] at hle

/-- A byte placed without the watchdog's bit arrives in time. -/
theorem timedOut_placeRx_of_not_wdog {sel : BitVec 16} (s : State) (h : selWdog sel = false) :
    timedOut (placeRx sel s).fd (placedTime sel s) = false := by
  refine timedOut_of_le ?_
  rw [placedTime_of_not_wdog s h, placeRx_tStart]
  omega

/-- A byte placed with the watchdog's bit arrives too late, in every state with a session. -/
theorem timedOut_placeRx_of_wdog {sel : BitVec 16} (s : State) (h : selWdog sel = true) (hs : selState sel ≠ .idle) :
    timedOut (placeRx sel s).fd (placedTime sel s) = true := by
  refine (timedOut_iff _ _).2 ⟨hs, ?_⟩
  rw [placedTime_of_wdog s h, placeRx_tStart]
  omega

/-- The placed state meets the guards of the row that the selector decodes to, state by state. -/
theorem selects_placeRx {sel : BitVec 16} {s : State} {now : Nat} {i : Instr} (hp : s.params.wf = true)
    (h : decodeRow (selState sel) (selGuard sel) (selByte sel) now = .instr i) :
    Selects (placeRx sel s).params (placeRx sel s).fd (selByte sel) now i := by
  cases hs : selState sel <;> simp only [decodeRow, hs] at h
  case idle =>
    split_ifs at h with hg hb <;> cases h
    · exact .idleSop hs hb
    · exact .idleSkip hs hb
  case sop =>
    split_ifs at h with hg hb <;> cases h
    · exact .sopType hs hb
    · exact .sopBadtype hs hb
  case readLength =>
    have hcnt := placeRx_cnt_readLength s hs
    split_ifs at h with h0 h1 <;> cases h
    · exact .lenHi hs (by rw [hcnt, h0]; rfl)
    · exact .lenLo hs (by rw [hcnt, h1]; rfl)
  case readHeader =>
    split_ifs at h with hg
    cases h
    exact .hdrByte hs
  case readBody =>
    obtain ⟨-, -, hpos, hcap, -⟩ := params_bounds hp
    have hcnt := placeRx_cnt_readBody s hs
    split_ifs at h with h0 h1 <;> cases h
    · refine .bodyByte hs ?_
      rw [hcnt, if_pos h0, placeRx_bodyCap]
      exact hpos
    · refine .bodyOvf hs ?_
      rw [hcnt, if_neg h0, placeRx_bodyCap, BitVec.toNat_ofNat]
      omega
  case checksum =>
    have hcsum := placeRx_csum s hs
    split_ifs at h with h0 h1 <;> cases h
    · exact .csumOk hs (by rw [hcsum, if_pos h0])
    · refine .csumBad hs ?_
      rw [hcsum, if_neg h0]
      exact BitVec.ne_not_self (by decide)
  case eop =>
    split_ifs at h with hg hb <;> cases h
    · exact .eopOk hs hb
    · exact .eopBad hs hb
  case discard =>
    split_ifs at h with h0 hb h1 <;> cases h
    · exact .discardSop hs hb (by rw [placeRx_discardResync s hs hb]; exact decide_eq_true h0)
    · exact .discardDrop hs (.inl hb)
    · obtain ⟨-, hb⟩ := h1
      exact .discardDrop hs (.inr (by rw [placeRx_discardResync s hs hb]; exact decide_eq_false h0))

/-- A placed RX selector that decodes is fetched, and its operation goes on. -/
theorem placeRx_runs {sel : BitVec 16} {s : State} {i : Instr} (hinit : s.fdInit = true) (hp : s.params.wf = true)
    (hcnt : s.fd.cnt.toNat < s.params.hdrSize) (hlen : s.fd.bodyLen.toNat ≤ s.params.bodyCap)
    (h : decodeRx sel (s.fdNow.getD 0) = .instr i) :
    fetch (placeRx sel s) = .run i ∧ ∃ t, step (placeRx sel s) = .next t := by
  have hr := receives_placeRx sel s
  unfold decodeRx at h
  split_ifs at h with hres hwdog hguard hidle
  · cases h
    have hw := timedOut_placeRx_of_wdog s hwdog hidle
    obtain ⟨hi, ht, hb⟩ := id hr
    exact ⟨fetch_rx_timedOut hi ht hb hw, _, step_timedOut hinit hr hw⟩
  · have hwdog := Bool.eq_false_of_not_eq_true hwdog
    have hsel := selects_placeRx hp (placedTime_of_not_wdog s hwdog ▸ h)
    have hf := fetch_of_selects hr (timedOut_placeRx_of_not_wdog s hwdog) hsel
    obtain ⟨t, ht⟩ := exec_next_of_selects (s := placeRx sel s) hinit
      (fun hs => by rw [placeRx_cnt_readHeader s hs, placeRx_hdrSize]; exact hcnt)
      (by rw [placeRx_bodyLen, placeRx_bodyCap]; exact hlen) hsel
    exact ⟨hf, _, step_of_run hf ht⟩

/-! ### A placed sample -/

theorem step_next_of_samples {s : State} {ch now : Nat} {st : DbState} {a e : Bool} (hinit : s.disInit = true)
    (h : Samples s ch st a e now) : ∃ t, step s = .next t := by
  obtain ⟨d, hc⟩ := channel_of_samples h
  exact ⟨_, step_of_run (fetch_of_samples h) (exec_decodeCond_eq a e now hinit hc)⟩

theorem pinLevel_zero (level : Bool) : pinLevel (if level then 1 else 0) 0 = level := by cases level <;> rfl

theorem assertedLevel_iff (x a : Bool) : (if a then x else !x) = x ↔ a = true := by cases x <;> cases a <;> decide

/-- The placed sample is of channel 0, in the state and under the condition of the selector. The bound on the time admits it in
a pending state whatever the hold time (R14). -/
theorem samples_placeSample (sel : BitVec 8) {s : State} (hch : 0 < s.dis.channels.length)
    (hnow : s.disNow.getD 0 < 2147483648) :
    Samples (placeSample sel s) 0 (DbState.ofCode (sel.extractLsb' 2 3)) (sel.getLsbD 1) (sel.getLsbD 0)
      (s.disNow.getD 0) := by
  refine ⟨rfl, (timeOk_iff _ _).2 fun l hl => ?_, _, _, _, rfl, List.getElem?_set_self hch, ?_, ?_,
    (deadlineWithin_iff _ _ _).2 fun _ => Nat.lt_add_left _ hnow⟩
  · rw [show s.disNow = some l from hl]
    exact Nat.le_refl l
  · rw [pinLevel_zero]
    exact assertedLevel_iff ..
  · cases sel.getLsbD 0 <;> simp

/-- A placed SAMPLE selector that decodes is fetched, and its operation goes on. -/
theorem placeSample_runs {sel : BitVec 8} {s : State} {i : Instr} (hinit : s.disInit = true)
    (hch : 0 < s.dis.channels.length) (hnow : s.disNow.getD 0 < 2147483648)
    (h : decodeSample sel 0 (s.disNow.getD 0) = .instr i) :
    fetch (placeSample sel s) = .run i ∧ ∃ t, step (placeSample sel s) = .next t := by
  have hs := samples_placeSample sel hch hnow
  unfold decodeSample at h
  split_ifs at h
  cases h
  exact ⟨fetch_of_samples hs, step_next_of_samples hinit hs⟩

/-! ### A table word -/

theorem decode_of_decodeTableWord {nbits w : Nat} {i : Instr} (h : decodeTableWord nbits w = some i) :
    decode (tableFetched nbits w) = .instr i := by
  unfold decodeTableWord at h
  split at h
  · cases h
    assumption
  · cases h

/-- Settles O8: a word of either format is placed so that the next step takes it (`placeRx_runs`, `placeSample_runs`); at reset
the counter and the body length are 0 and the parameters of the hardware are within their bounds. -/
theorem tableWordRunsFirst : Obligations.TableWordRunsFirst := by
  unfold Obligations.TableWordRunsFirst
  intro nbits w i h
  have hd := decode_of_decodeTableWord h
  obtain ⟨hhdr, -, -, -, hn⟩ := params_bounds device_wf
  rw [State.withFetchWord]
  unfold tableFetched at hd ⊢
  split_ifs at hd ⊢
  · exact placeSample_runs (s := State.reset) rfl (List.length_replicate.symm ▸ hn) (by decide) hd
  · exact placeRx_runs (s := State.reset) rfl device_wf hhdr (Nat.zero_le _) hd

end Sys2Proof.Machine
end
